-- ==== Sys2Proof/Word.lean ====
section
/-! DEFINITION. The plain data widths of the engine (spec 00_scope.md R8, 30_encoding.md R71). -/

namespace Sys2Proof

/-- A 32-bit word of the datapath (R6 WORD, R8). -/
abbrev Word := BitVec 32

/-- A byte of the buffer memory (R8, R50). -/
abbrev Byte := BitVec 8

/-- A buffer address as the SRC and DST wires carry it. The wires are AW bits wide with 1 <= AW <= 64 (R7, R71);
the type is as wide as the widest of them, and that a value fits AW bits is `Instr.wellFormed`. -/
abbrev Addr := BitVec 64

/-- The LEN field, 64 bits, an unsigned number of bytes (R71, R73). -/
abbrev Len := BitVec 64

end Sys2Proof
end

