-- ==== Sys2Proof/Syntax.lean ====
section
/-! DEFINITION. The commands of the engine as a type: the two ports, the descriptor a port takes, and the four
commands of spec 30_encoding.md R74. -/

namespace Sys2Proof

/-- The two command ports, one per engine (R74, R198). -/
inductive Port where
  /-- The Hash Engine's port. -/
  | he
  /-- The Block Cipher Engine's port. -/
  | ce
deriving DecidableEq, Repr

/-- The descriptor: the four fields the host gives a command port together (R71). -/
structure Descriptor where
  /-- The command word (R72). -/
  cmd : BitVec 32
  /-- Buffer address of the first input byte. -/
  src : Addr
  /-- Number of input bytes. -/
  len : Len
  /-- Buffer address of the first output byte. -/
  dst : Addr
deriving DecidableEq, Repr

/-- The complete command set (R74). Every command has the three operand fields of R71. -/
inductive Instr where
  /-- SM3.HASH src, len, dst (R128). -/
  | sm3Hash (src : Addr) (len : Len) (dst : Addr)
  /-- SM4.SETKEY src, len (R160). The descriptor's DST reaches the engine, which latches it (R78) and never uses it
  (R75); the written form leaves it out and stands for 0 (R80). -/
  | sm4SetKey (src : Addr) (len : Len) (dst : Addr)
  /-- SM4.ENC src, len, dst (R161). -/
  | sm4Enc (src : Addr) (len : Len) (dst : Addr)
  /-- SM4.DEC src, len, dst (R162). -/
  | sm4Dec (src : Addr) (len : Len) (dst : Addr)
deriving DecidableEq, Repr

/-- The port a command goes to: the prefix of its mnemonic names it (R74 column port, R80). -/
def Instr.port : Instr → Port
  | .sm3Hash _ _ _ => .he
  | .sm4SetKey _ _ _ => .ce
  | .sm4Enc _ _ _ => .ce
  | .sm4Dec _ _ _ => .ce

/-- The SRC operand. -/
def Instr.src : Instr → Addr
  | .sm3Hash src _ _ => src
  | .sm4SetKey src _ _ => src
  | .sm4Enc src _ _ => src
  | .sm4Dec src _ _ => src

/-- The LEN operand. -/
def Instr.len : Instr → Len
  | .sm3Hash _ len _ => len
  | .sm4SetKey _ len _ => len
  | .sm4Enc _ len _ => len
  | .sm4Dec _ len _ => len

/-- The DST operand. -/
def Instr.dst : Instr → Addr
  | .sm3Hash _ _ dst => dst
  | .sm4SetKey _ _ dst => dst
  | .sm4Enc _ _ dst => dst
  | .sm4Dec _ _ dst => dst

end Sys2Proof
end

