-- ==== Sys2Proof/WellFormed.lean ====
section
/-! DEFINITION. What a port of address width AW can carry (spec 30_encoding.md R71, R73): SRC and DST are AW-bit
numbers. The conditions on lengths and ranges are no part of this: a command that breaks one is still a command, and
the engine answers it with an error (60_exceptions.md R189). -/

namespace Sys2Proof

/-- An address fits the AW wires of a port (R71). -/
def Addr.fits (aw : Nat) (a : Addr) : Bool := decide (a.toNat < 2 ^ aw)

/-- A descriptor fits a port of address width `aw` (R71). CMD and LEN have their own fixed widths. -/
def Descriptor.wellFormed (aw : Nat) (d : Descriptor) : Bool := Addr.fits aw d.src && Addr.fits aw d.dst

/-- A command whose operands fit a port of address width `aw` (R71, R73). -/
def Instr.wellFormed (aw : Nat) : Instr → Bool
  | .sm3Hash src _ dst => Addr.fits aw src && Addr.fits aw dst
  | .sm4SetKey src _ dst => Addr.fits aw src && Addr.fits aw dst
  | .sm4Enc src _ dst => Addr.fits aw src && Addr.fits aw dst
  | .sm4Dec src _ dst => Addr.fits aw src && Addr.fits aw dst

end Sys2Proof
end

