-- ==== Sys2Proof/Decode.lean ====
section
/-! DEFINITION. The command decoder of each port (spec 30_encoding.md R72, R74, R76, R77), the encoder, and the
descriptor as one number (its bits numbered as spec/opcode_table.json numbers them). -/

namespace Sys2Proof

/-- The bits 31:8 of CMD, which must be 0 (R72 ZERO). -/
def cmdZero (cmd : BitVec 32) : BitVec 24 := cmd.extractLsb' 8 24

/-- The bits 7:4 of CMD, which name the engine (R72 ENG). -/
def cmdEng (cmd : BitVec 32) : BitVec 4 := cmd.extractLsb' 4 4

/-- The bits 3:0 of CMD, the function within the engine (R72 FN). -/
def cmdFn (cmd : BitVec 32) : BitVec 4 := cmd.extractLsb' 0 4

/-- OPC = CMD[7:0] = ENG and FN (R72). -/
def cmdOpc (cmd : BitVec 32) : BitVec 8 := cmd.extractLsb' 0 8

/-- Why a port does not know a CMD. Whichever it is, the command ends with IllegalCommand (R76). -/
inductive DecodeReject where
  /-- A bit of CMD[31:8] is set (R72). -/
  | zeroFieldNotZero
  /-- ENG is not this port's engine (R76). -/
  | otherEngine
  /-- ENG is this port's engine and FN is none of its functions (R76). -/
  | noSuchFunction
deriving DecidableEq, Repr

/-- The engine number ENG of a port (R72). -/
def Port.eng : Port → BitVec 4
  | .he => 0x1
  | .ce => 0x2

/-- What port `p` reads from a descriptor: one of its own commands, or a rejection by name (R76, R77). It is total, and
a CMD of the other engine is rejected like any other. -/
def decode (p : Port) (d : Descriptor) : Except DecodeReject Instr :=
  if cmdZero d.cmd ≠ 0 then .error .zeroFieldNotZero
  else if cmdEng d.cmd ≠ p.eng then .error .otherEngine
  else
    match p with
    | .he =>
      if cmdFn d.cmd = 0x0 then .ok (.sm3Hash d.src d.len d.dst)
      else .error .noSuchFunction
    | .ce =>
      if cmdFn d.cmd = 0x0 then .ok (.sm4SetKey d.src d.len d.dst)
      else if cmdFn d.cmd = 0x1 then .ok (.sm4Enc d.src d.len d.dst)
      else if cmdFn d.cmd = 0x2 then .ok (.sm4Dec d.src d.len d.dst)
      else .error .noSuchFunction

/-- The CMD word of a command (R74 column CMD). -/
def Instr.cmd : Instr → BitVec 32
  | .sm3Hash _ _ _ => 0x00000010
  | .sm4SetKey _ _ _ => 0x00000020
  | .sm4Enc _ _ _ => 0x00000021
  | .sm4Dec _ _ _ => 0x00000022

/-- The descriptor of a command (R71, R74). -/
def encode (i : Instr) : Descriptor := { cmd := i.cmd, src := i.src, len := i.len, dst := i.dst }

/-- The mnemonic of a command (R74). -/
def Instr.mnemonic : Instr → String
  | .sm3Hash _ _ _ => "SM3.HASH"
  | .sm4SetKey _ _ _ => "SM4.SETKEY"
  | .sm4Enc _ _ _ => "SM4.ENC"
  | .sm4Dec _ _ _ => "SM4.DEC"

/-- A command in the spec's written form, its operands in decimal: MNEMONIC src, len, dst, without dst for SM4.SETKEY
(R80). -/
def Instr.render : Instr → String
  | .sm3Hash src len dst => "SM3.HASH " ++ toString src.toNat ++ ", " ++ toString len.toNat ++ ", " ++ toString dst.toNat
  | .sm4SetKey src len _ => "SM4.SETKEY " ++ toString src.toNat ++ ", " ++ toString len.toNat
  | .sm4Enc src len dst => "SM4.ENC " ++ toString src.toNat ++ ", " ++ toString len.toNat ++ ", " ++ toString dst.toNat
  | .sm4Dec src len dst => "SM4.DEC " ++ toString src.toNat ++ ", " ++ toString len.toNat ++ ", " ++ toString dst.toNat

/-- The port to which a descriptor is sent when only its CMD says where it goes: the Block Cipher Engine's where ENG is
2, else the Hash Engine's (R72, R80; a CMD with another ENG is illegal at both, R76). -/
def Descriptor.route (d : Descriptor) : Port := if cmdEng d.cmd = 0x2 then .ce else .he

/-- A descriptor as one number for address width `aw`: CMD in bits 31:0, then SRC (`aw` bits), LEN (64 bits) and DST
(`aw` bits). DESIGN CHOICE (log entry 12): the spec's fields are numbers on a port with no such concatenation (R71). -/
def Descriptor.ofBits (aw w : Nat) : Descriptor where
  cmd := BitVec.ofNat 32 w
  src := BitVec.ofNat 64 (w / 2 ^ 32 % 2 ^ aw)
  len := BitVec.ofNat 64 (w / 2 ^ (32 + aw))
  dst := BitVec.ofNat 64 (w / 2 ^ (96 + aw) % 2 ^ aw)

/-- The number of a descriptor, the inverse of `Descriptor.ofBits` where the addresses fit `aw` bits. -/
def Descriptor.toBits (aw : Nat) (d : Descriptor) : Nat :=
  d.cmd.toNat + d.src.toNat * 2 ^ 32 + d.len.toNat * 2 ^ (32 + aw) + d.dst.toNat * 2 ^ (96 + aw)

/-- The descriptor whose lowest `nbits` bits are those of `w` and whose other bits are 0, at the default AW = 32. -/
def tableDescriptor (nbits w : Nat) : Descriptor := Descriptor.ofBits 32 (w % 2 ^ nbits)

/-- What the port named by the descriptor's ENG field reads from a table word (spec/opcode_table.json numbering). -/
def decodeTableWord (nbits w : Nat) : Option Instr :=
  (decode (tableDescriptor nbits w).route (tableDescriptor nbits w)).toOption

end Sys2Proof
end

