-- ==== Sys2Proof/Config.lean ====
section
/-! DEFINITION. The constants of the hardware: the parameters the spec fixes (00_scope.md R6, R7), the default of the
one open parameter AW, what an unwritten buffer byte reads as, and the free values, which nothing in Lean can
evaluate. The constant tables of 10_state.md R40 to R43 stand in Sys2Proof/Machine/Tables.lean. -/

namespace Sys2Proof.Config

/-- The default of the open parameter AW (R7, 92_eei_decisions.md D2). The model holds AW in State, where every value
from 1 to 64 is allowed (log entry 1). -/
def defaultAw : Nat := 32

/-- The first message length the Hash Engine does not accept, 2^61 bytes (R7 MAXMSG, R185). -/
def msgLimit : Nat := 2 ^ 61

/-- Bytes of a digest (R6 DIGEST). -/
def digestLen : Nat := 32

/-- Bytes of a cipher key (R6 KEYLEN). -/
def keyLen : Nat := 16

/-- Bytes of a cipher block (R6 CBLOCK). -/
def blockLen : Nat := 16

/-- Bytes of a hash block (R6 HBLOCK). -/
def hashBlockLen : Nat := 64

/-- What a buffer byte that nothing has written reads as. DESIGN CHOICE (unsafe, log entry 3): the spec gives the buffer
memory no contents at reset (R44, R50). -/
def blankByte : Byte := 0

/-- The n-th free word: a register value the spec leaves unspecified (93_implementation_defined.md U4, U6; log entry 5).
Nothing constrains it. -/
opaque freeWord : Nat → Word

/-- The n-th free byte: a buffer byte the spec leaves unspecified (U2, U3, U5; log entries 6, 7, 8). Nothing
constrains it. -/
opaque freeByte : Nat → Byte

/-- The n-th free 64-bit field: a latched operand the spec leaves unspecified after a reset (R44; log entry 5). -/
opaque freeField : Nat → BitVec 64

/-- The n-th free choice between two bytes (U5; log entry 8). -/
opaque freeChoice : Nat → Bool

/-- The n-th free count (U5: how much of a digest a reset lets through; log entry 8). -/
opaque freeCount : Nat → Nat

end Sys2Proof.Config
end

