-- ==== Sys2Proof/Machine/State.lean ====
section
/-! DEFINITION. The state of the hardware as plain data (spec 10_state.md R20 to R39, 20_memory.md R50), the reasons a
step can stop, and the state after reset (R44). -/

namespace Sys2Proof.Machine

/-- The buffer memory BUF (R50) as a list of (address, byte) pairs. Its one canonical form is `Memory.wf` of
Sys2Proof/Machine/Ops.lean: addresses strictly rising, no byte equal to `Config.blankByte`. -/
abbrev Memory := List Host.Cell

/-- The seven errors of a command (R181). The codes are `CmdError.code` of Sys2Proof/Machine/Flags.lean. -/
inductive CmdError where
  /-- Code 1, R182. -/
  | invalidKeyLength
  /-- Code 2, R183. -/
  | invalidInputLength
  /-- Code 3, R184. -/
  | noKey
  /-- Code 4, R185. -/
  | messageTooLong
  /-- Code 5, R186. -/
  | illegalCommand
  /-- Code 6, R187. -/
  | addressRange
  /-- Code 7, R188. -/
  | bufferOverlap
deriving DecidableEq, Repr

/-- The written bits of a status register (R36): BUSY, DONE and ERR. The register as the host reads it is
`heStatus` and `ceStatus` of Sys2Proof/Machine/Flags.lean; its reserved bits read 0 and so need no storage. -/
structure Status where
  /-- Bit 0. -/
  busy : Bool
  /-- Bit 1. -/
  done : Bool
  /-- Bits 7:4; `none` is code 0. -/
  err : Option CmdError
deriving DecidableEq, Repr

/-- A status register after reset (R44). -/
def Status.reset : Status := { busy := false, done := false, err := none }

/-- Eight words in a row: the hash state V[0..7] (R22), and the working registers A to H in that order (R23). -/
structure Words8 where
  w0 : Word
  w1 : Word
  w2 : Word
  w3 : Word
  w4 : Word
  w5 : Word
  w6 : Word
  w7 : Word
deriving DecidableEq, Repr

/-- Four words in a row: the key-expansion window K[0..3] (R32) and the data window X[0..3] (R33). -/
structure Words4 where
  w0 : Word
  w1 : Word
  w2 : Word
  w3 : Word
deriving DecidableEq, Repr

/-- The Hash Engine's sequencer HSEQ (R28, R129): the phase, with the block index i and the round index j in the phases
that use them. -/
inductive HSeq where
  | idle
  | load (i : Nat)
  | expand (i : Nat)
  | round (i : Nat) (j : Fin 64)
  | feed (i : Nat)
  | emit (i : Nat)
deriving DecidableEq, Repr

/-- The Block Cipher Engine's sequencer CSEQ (R28, R163): the phase, with the block index b and the round index r in the
phases that use them. -/
inductive CSeq where
  | idle
  | kload
  | kround (r : Fin 32)
  | bload (b : Nat)
  | round (b : Nat) (r : Fin 32)
  | bstore (b : Nat)
deriving DecidableEq, Repr

/-- The state the Hash Engine owns (R21). -/
structure HashEngine where
  /-- V[0..7], the hash state (R22). -/
  v : Words8
  /-- A, B, C, D, E, F, G, H, the working registers (R23). -/
  regs : Words8
  /-- W[0..67], the expanded message of the current block (R24). -/
  w : Vector Word 68
  /-- W'[0..63], the auxiliary sequence of the current block (R25). -/
  w1 : Vector Word 64
  /-- HSRC, the latched SRC (R26). -/
  hsrc : Addr
  /-- HLEN, the latched LEN (R26). -/
  hlen : Len
  /-- HDST, the latched DST (R26). -/
  hdst : Addr
  /-- HSEQ (R28). -/
  seq : HSeq
  /-- The written bits of HE_STATUS (R27, R36). -/
  status : Status
deriving DecidableEq, Repr

/-- The state the Block Cipher Engine owns (R29). -/
structure CipherEngine where
  /-- rk[0..31], the round key schedule (R30). -/
  rk : Vector Word 32
  /-- KEYVALID (R31), which is also bit 2 of CE_STATUS. -/
  keyValid : Bool
  /-- K[0..3], the key-expansion window (R32). -/
  k : Words4
  /-- X[0..3], the data window (R33). -/
  x : Words4
  /-- COP, the latched opcode (R34). -/
  cop : BitVec 8
  /-- CSRC, the latched SRC (R34). -/
  csrc : Addr
  /-- CLEN, the latched LEN (R34). -/
  clen : Len
  /-- CDST, the latched DST (R34). -/
  cdst : Addr
  /-- CSEQ (R28). -/
  seq : CSeq
  /-- The written bits of CE_STATUS (R35, R36). -/
  status : Status
deriving DecidableEq, Repr

/-- What the host, or the scheduler of the agents, does next: the steps of R20, and the directives of R81. -/
inductive HostAction where
  /-- The host writes one byte of BUF (R20). -/
  | writeByte (a : Addr) (v : Byte)
  /-- The host reads one byte of BUF (R20). -/
  | readByte (a : Addr)
  /-- The host reads a status register (R20, R36). -/
  | readStatus (p : Port)
  /-- The host presents a descriptor and the command runs to its end in this one step (R20: the engine's internal steps
  merged into one; R81: issue, then WAIT, is one call). -/
  | command (p : Port) (d : Descriptor)
  /-- The host presents a descriptor: the issue step alone (R78). -/
  | issue (p : Port) (d : Descriptor)
  /-- WAIT: the host reads the status register until it sees DONE = 1 (R81). -/
  | wait (p : Port)
  /-- An engine takes its next internal step (R20, R129, R163). -/
  | engine (p : Port)
  /-- The reset input is asserted (R210). -/
  | reset
deriving DecidableEq, Repr

/-- A range of BUF: `n` bytes from address `a` on. The address is a natural number and does not wrap (R58). -/
structure Span where
  a : Nat
  n : Nat
deriving DecidableEq, Repr

/-- The model's own: a command that has ended and whose DONE = 1 the host had not seen when something cleared DONE, the next issue
to its engine (R78) or a reset. DONE can then no longer be seen for it, so its result never becomes valid (R217) and the duties
of R65 never end for it (log entry 17). -/
structure Unseen where
  /-- The engine that ran it. -/
  port : Port
  /-- It was SM4.SETKEY, whose result is the schedule. -/
  key : Bool
  /-- What it read (R51). -/
  input : Span
  /-- What of its output range no later command, whose DONE the host has seen, has written again. -/
  outputs : List Span
deriving DecidableEq, Repr

/-- The state of the machine: the parameter AW, the two engines, the buffer memory, what the host does next and what it
last read, and six fields of the model's own. -/
structure State where
  /-- The address width AW (R7): a parameter that no step changes (log entry 1). -/
  aw : Nat
  /-- The Hash Engine. -/
  he : HashEngine
  /-- The Block Cipher Engine. -/
  ce : CipherEngine
  /-- BUF (R50). -/
  buf : Memory
  /-- The actions still to come, the next one first (R20, R81; log entry 2). -/
  host : List HostAction
  /-- The byte the host's last read of BUF returned (R20). -/
  lastByte : Byte
  /-- The value the host's last read of a status register returned (R36). -/
  lastStatus : Word
  /-- The model's own: the Hash Engine's command is in flight, that is, it was accepted and the host has not yet seen DONE = 1
  for it, so that the duties of R65 and R66 bind the host (log entry 6). -/
  heInFlight : Bool
  /-- The model's own: the same for the Block Cipher Engine's command. -/
  ceInFlight : Bool
  /-- The model's own: the host's duty of R65 or R66 was broken for the Hash Engine's running command (log entry 6). -/
  heDisturbed : Bool
  /-- The model's own: the same for the Block Cipher Engine's running command. -/
  ceDisturbed : Bool
  /-- The model's own: the ended commands whose DONE = 1 the host can no longer see (R65, R217; log entry 17). -/
  unseen : List Unseen
  /-- The model's own: how many free values have been drawn (log entry 5). -/
  draws : Nat
deriving DecidableEq, Repr

/-- Why the machine stops. -/
inductive Fault where
  /-- A host access to an address that BUF does not have, 2^AW or more (R50: BUF is the addresses 0 to 2^AW - 1).
  Raised by the host actions writeByte and readByte only. Safe: no real host can drive such an address. -/
  | noSuchAddress (a : Nat)
deriving DecidableEq, Repr

/-- Why the model gives a command no meaning. -/
inductive Refusal where
  /-- A command without a meaning in the model. Raised by no arm of exec: every command has its meaning. Safe. -/
  | notModelled (mnemonic : String)
deriving DecidableEq, Repr

/-- Eight zero words. -/
def Words8.zero : Words8 := ⟨0, 0, 0, 0, 0, 0, 0, 0⟩

/-- Four zero words. -/
def Words4.zero : Words4 := ⟨0, 0, 0, 0⟩

/-- The Hash Engine after reset: HE_STATUS 0 and HSEQ IDLE as R44 states; every other register 0, DESIGN CHOICE (unsafe,
log entry 4), since R44 leaves it unspecified. -/
def HashEngine.reset : HashEngine where
  v := Words8.zero
  regs := Words8.zero
  w := Vector.replicate 68 0
  w1 := Vector.replicate 64 0
  hsrc := 0
  hlen := 0
  hdst := 0
  seq := .idle
  status := Status.reset

/-- The Block Cipher Engine after reset: CE_STATUS 0, KEYVALID 0 and CSEQ IDLE as R44 states; every other register 0,
DESIGN CHOICE (unsafe, log entry 4). -/
def CipherEngine.reset : CipherEngine where
  rk := Vector.replicate 32 0
  keyValid := false
  k := Words4.zero
  x := Words4.zero
  cop := 0
  csrc := 0
  clen := 0
  cdst := 0
  seq := .idle
  status := Status.reset

/-- The machine right after reset (R44, R210): both engines idle, nothing listed in BUF, the host about to do nothing. -/
def State.reset : State where
  aw := Config.defaultAw
  he := HashEngine.reset
  ce := CipherEngine.reset
  buf := []
  host := []
  lastByte := 0
  lastStatus := 0
  heInFlight := false
  ceInFlight := false
  heDisturbed := false
  ceDisturbed := false
  unseen := []
  draws := 0

end Sys2Proof.Machine
end

