-- ==== Sys2Proof/Machine/Flags.lean ====
section
/-! DEFINITION. The two status registers (spec 10_state.md R36): the value the host reads, and what issue, error and
completion do to the written bits. The hardware has no other flag (R37). -/

namespace Sys2Proof.Machine

/-- The number of an error in ERR (R181). -/
def CmdError.code : CmdError → BitVec 4
  | .invalidKeyLength => 1
  | .invalidInputLength => 2
  | .noKey => 3
  | .messageTooLong => 4
  | .illegalCommand => 5
  | .addressRange => 6
  | .bufferOverlap => 7

/-- The field ERR; no error is code 0 (R181). -/
def Status.errCode (st : Status) : BitVec 4 :=
  match st.err with
  | none => 0
  | some e => e.code

/-- The 32-bit register: BUSY bit 0, DONE bit 1, KEYVALID bit 2, bit 3 reads 0, ERR bits 7:4, bits 31:8 read 0 (R36). -/
def Status.word (st : Status) (keyValid : Bool) : Word :=
  (0 : BitVec 24) ++ st.errCode ++ (0 : BitVec 1) ++ BitVec.ofBool keyValid ++ BitVec.ofBool st.done ++
    BitVec.ofBool st.busy

/-- HE_STATUS; its KEYVALID bit is hardwired to 0 (R27). -/
def heStatus (s : State) : Word := s.he.status.word false

/-- CE_STATUS; its bit 2 is KEYVALID (R35). -/
def ceStatus (s : State) : Word := s.ce.status.word s.ce.keyValid

/-- The number of a status register: HE_STATUS is 0, CE_STATUS is 1 (R36). -/
def statusNumber : Port → Nat
  | .he => 0
  | .ce => 1

/-- The status register of an engine as the host reads it; a read has no side effect (R36). -/
def statusOf (p : Port) (s : State) : Word :=
  match p with
  | .he => heStatus s
  | .ce => ceStatus s

/-- The BUSY bit of an engine (R36). -/
def busyOf (p : Port) (s : State) : Bool :=
  match p with
  | .he => s.he.status.busy
  | .ce => s.ce.status.busy

/-- The DONE bit of an engine (R36). -/
def doneOf (p : Port) (s : State) : Bool :=
  match p with
  | .he => s.he.status.done
  | .ce => s.ce.status.done

/-- The start of an issue: DONE and ERR cleared (R78). -/
def Status.clearForIssue (st : Status) : Status := { st with done := false, err := none }

/-- Error entry: ERR gets the error, DONE is set, BUSY stays (R190). -/
def Status.raise (st : Status) (e : CmdError) : Status := { st with err := some e, done := true }

/-- Acceptance: BUSY is set (R78). -/
def Status.accept (st : Status) : Status := { st with busy := true }

/-- Completion: BUSY falls, DONE is set (R129, R163). -/
def Status.complete (st : Status) : Status := { st with busy := false, done := true }

end Sys2Proof.Machine
end

