-- ==== Sys2Proof/Machine/Operands.lean ====
section
/-! DEFINITION. The operands of a command as numbers, the byte ranges they name, and the checks made on them when a
command is issued (spec 20_memory.md R51, R57, R58, R62; 60_exceptions.md R182 to R189). -/

namespace Sys2Proof.Machine

/-- OPC of SM4.SETKEY (R74). -/
def opcSetKey : BitVec 8 := 0x20

/-- OPC of SM4.ENC (R74). -/
def opcEnc : BitVec 8 := 0x21

/-- OPC of SM4.DEC (R74). -/
def opcDec : BitVec 8 := 0x22

/-- The address lies in the range. -/
def Span.has (r : Span) (x : Nat) : Bool := decide (r.a ≤ x ∧ x < r.a + r.n)

/-- The range lies inside BUF; an empty range always does (R58). -/
def Span.inBuf (aw : Nat) (r : Span) : Bool := decide (r.n = 0 ∨ r.a + r.n ≤ 2 ^ aw)

/-- Two ranges meet: some byte is in both (R62, R66, R188). -/
def Span.meets (r t : Span) : Bool := decide (0 < r.n ∧ 0 < t.n ∧ r.a < t.a + t.n ∧ t.a < r.a + r.n)

/-- The parts of a range that lie outside another one: at most one before it and one after it. -/
def Span.minus (r t : Span) : List Span :=
  if r.meets t then
    (if r.a < t.a then [⟨r.a, t.a - r.a⟩] else []) ++
    (if t.a + t.n < r.a + r.n then [⟨t.a + t.n, r.a + r.n - (t.a + t.n)⟩] else [])
  else [r]

/-- The bytes SM3.HASH reads (R51). -/
def hashInput (src : Addr) (len : Len) : Span := ⟨src.toNat, len.toNat⟩

/-- The bytes SM3.HASH writes (R51). -/
def hashOutput (dst : Addr) : Span := ⟨dst.toNat, Config.digestLen⟩

/-- The bytes SM4.SETKEY reads (R51). It writes none. -/
def keyInput (src : Addr) : Span := ⟨src.toNat, Config.keyLen⟩

/-- The bytes SM4.ENC and SM4.DEC read (R51). -/
def cryptInput (src : Addr) (len : Len) : Span := ⟨src.toNat, len.toNat⟩

/-- The bytes SM4.ENC and SM4.DEC write (R51). -/
def cryptOutput (len : Len) (dst : Addr) : Span := ⟨dst.toNat, len.toNat⟩

/-- The message is too long for the padding's length field (R185). -/
def messageTooLong (len : Len) : Bool := decide (Config.msgLimit ≤ len.toNat)

/-- The key is not exactly 16 bytes (R182). -/
def badKeyLength (len : Len) : Bool := decide (len.toNat ≠ Config.keyLen)

/-- The length is 0 or no multiple of 16 (R183). -/
def badInputLength (len : Len) : Bool := decide (len.toNat = 0 ∨ len.toNat % Config.blockLen ≠ 0)

/-- Input and output of a cipher command meet without being the same range (R188). -/
def badOverlap (src : Addr) (len : Len) (dst : Addr) : Bool :=
  decide (dst ≠ src) && (cryptInput src len).meets (cryptOutput len dst)

/-- The first failing check of SM3.HASH (R189). -/
def hashCheck (aw : Nat) (src : Addr) (len : Len) (dst : Addr) : Option CmdError :=
  if messageTooLong len then some .messageTooLong
  else if !((hashInput src len).inBuf aw && (hashOutput dst).inBuf aw) then some .addressRange
  else none

/-- The first failing check of SM4.SETKEY (R189). -/
def keyCheck (aw : Nat) (src : Addr) (len : Len) : Option CmdError :=
  if badKeyLength len then some .invalidKeyLength
  else if !(keyInput src).inBuf aw then some .addressRange
  else none

/-- The first failing check of SM4.ENC and SM4.DEC; `keyed` is KEYVALID (R189, R162). -/
def cryptCheck (aw : Nat) (keyed : Bool) (src : Addr) (len : Len) (dst : Addr) : Option CmdError :=
  if !keyed then some .noKey
  else if badInputLength len then some .invalidInputLength
  else if !((cryptInput src len).inBuf aw && (cryptOutput len dst).inBuf aw) then some .addressRange
  else if badOverlap src len dst then some .bufferOverlap
  else none

/-- The first failing check of a command, IllegalCommand apart (R189). -/
def instrCheck (aw : Nat) (keyed : Bool) : Instr → Option CmdError
  | .sm3Hash src len dst => hashCheck aw src len dst
  | .sm4SetKey src len _ => keyCheck aw src len
  | .sm4Enc src len dst => cryptCheck aw keyed src len dst
  | .sm4Dec src len dst => cryptCheck aw keyed src len dst

end Sys2Proof.Machine
end

