-- ==== Sys2Proof/Machine/Units.lean ====
section
/-! DEFINITION. The leaf units both engines are built from (spec 40_primitives.md R90 to R104): pure functions, with no
state, no flag and no error. -/

namespace Sys2Proof.Machine

/-- ROTL32, rotation left by n modulo 32 (R90). -/
def rotl (x : Word) (n : Nat) : Word := x.rotateLeft n

/-- ADD32, addition modulo 2^32; the carry out of bit 31 is discarded (R91). -/
def add32 (a b : Word) : Word := a + b

/-- XOR of two words; a tree of more operands is this one applied again (R92). -/
def xor32 (a b : Word) : Word := a ^^^ b

/-- AND of two words (R93). -/
def and32 (a b : Word) : Word := a &&& b

/-- OR of two words (R93). -/
def or32 (a b : Word) : Word := a ||| b

/-- NOT of a word (R93). -/
def not32 (a : Word) : Word := ~~~ a

/-- FF: parity for rounds 0 to 15, majority for rounds 16 to 63 (R94). -/
def ff (x y z : Word) (j : Nat) : Word :=
  if j < 16 then xor32 (xor32 x y) z else or32 (or32 (and32 x y) (and32 x z)) (and32 y z)

/-- GG: parity for rounds 0 to 15, choice for rounds 16 to 63 (R95). -/
def gg (x y z : Word) (j : Nat) : Word :=
  if j < 16 then xor32 (xor32 x y) z else or32 (and32 x y) (and32 (not32 x) z)

/-- P0 (R96). -/
def p0 (x : Word) : Word := xor32 (xor32 x (rotl x 9)) (rotl x 17)

/-- P1 (R97). -/
def p1 (x : Word) : Word := xor32 (xor32 x (rotl x 15)) (rotl x 23)

/-- TJ, the rotated round constant T_j (R98). -/
def tj (j : Nat) : Word := rotl (tBase j) (j % 32)

/-- SBOX: the high nibble selects the row of the table, the low nibble the column (R99, R42). -/
def sbox (a : Byte) : Byte := (sboxRows.getD (a.toNat / 16) []).getD (a.toNat % 16) 0

/-- Byte t of a word, byte 0 the most significant (R8). -/
def byteOf (w : Word) (t : Nat) : Byte := w.extractLsb' (8 * (3 - t)) 8

/-- be32: the word whose byte 0 is the first of the four (R104). -/
def be32 (b0 b1 b2 b3 : Byte) : Word := (b0 ++ b1 : BitVec 16) ++ (b2 ++ b3 : BitVec 16)

/-- bytes32, the inverse of be32 (R104). -/
def bytes32 (w : Word) : List Byte := [byteOf w 0, byteOf w 1, byteOf w 2, byteOf w 3]

/-- be64: byte k of the eight is n div 2^(8*(7-k)) mod 256 (R104). -/
def be64 (n : Nat) : List Byte := (List.range 8).map fun k => BitVec.ofNat 8 (n / 2 ^ (8 * (7 - k)))

/-- Word k of a byte sequence: be32 of its bytes 4k to 4k+3 (R54, R55, R121, R150, R154). The sequences it is applied to
hold those bytes; past the end of a sequence it reads zeros. -/
def wordOf (s : List Byte) (k : Nat) : Word :=
  be32 (s.getD (4 * k) 0) (s.getD (4 * k + 1) 0) (s.getD (4 * k + 2) 0) (s.getD (4 * k + 3) 0)

/-- TAU: the substitution box applied to each byte of a word, in place (R100). -/
def tau (x : Word) : Word :=
  be32 (sbox (byteOf x 0)) (sbox (byteOf x 1)) (sbox (byteOf x 2)) (sbox (byteOf x 3))

/-- L, the linear transform of the data rounds (R101). -/
def lin (b : Word) : Word :=
  xor32 (xor32 (xor32 (xor32 b (rotl b 2)) (rotl b 10)) (rotl b 18)) (rotl b 24)

/-- L', the linear transform of the key expansion (R102). -/
def linKey (b : Word) : Word := xor32 (xor32 b (rotl b 13)) (rotl b 23)

/-- T, the transform of the data rounds: TAU first, L second (R103). -/
def roundT (x : Word) : Word := lin (tau x)

/-- T', the transform of the key rounds: TAU first, L' second (R103). -/
def roundTKey (x : Word) : Word := linKey (tau x)

end Sys2Proof.Machine
end

