-- ==== Sys2Proof/Machine/Sm3.lean ====
section
/-! DEFINITION. The hash as a function of a byte sequence (spec 41_sm3_hash.md R120 to R127): padding, expansion, the
round, the compression of a block, the iteration over blocks and the digest. The engine's internal steps and the command
SM3.HASH (Sys2Proof/Machine/HashUnit.lean) are built from the same functions. -/

namespace Sys2Proof.Machine

/-- A list of words as a register file of n words. The lists it is applied to have n words; a missing one would read 0. -/
def fileOf (n : Nat) (l : List Word) : Vector Word n :=
  ⟨((List.range n).map fun j => l.getD j 0).toArray, by simp⟩

/-- z, the number of zero bytes of the padding: (55 - LEN) mod 64 (R120). -/
def padZeros (len : Nat) : Nat := ((55 - (len : Int)) % 64).toNat

/-- N, the length in bytes of the padded message (R120). -/
def paddedLen (len : Nat) : Nat := len + 1 + padZeros len + 8

/-- n, the number of 64-byte blocks of the padded message (R120). -/
def blockCount (len : Nat) : Nat := paddedLen len / Config.hashBlockLen

/-- PAD (R120). -/
def pad (m : List Byte) : List Byte :=
  m ++ [0x80] ++ List.replicate (padZeros m.length) 0x00 ++ be64 (8 * m.length)

/-- Block i of a padded message, its 64 bytes (R121). -/
def blockAt (pm : List Byte) (i : Nat) : List Byte :=
  (pm.drop (Config.hashBlockLen * i)).take Config.hashBlockLen

/-- The sixteen words W[0..15] of a block (R121). -/
def blockWords (b : List Byte) : List Word := (List.range 16).map (wordOf b)

/-- The next expanded word W[j], for `w` the list W[0..j-1] (R122). -/
def nextWord (w : List Word) : Word :=
  xor32 (xor32 (p1 (xor32 (xor32 (w.getD (w.length - 16) 0) (w.getD (w.length - 9) 0)) (rotl (w.getD (w.length - 3) 0) 15)))
    (rotl (w.getD (w.length - 13) 0) 7)) (w.getD (w.length - 6) 0)

/-- `n` more expanded words after `w`, in ascending order of j (R122). -/
def expandBy : Nat → List Word → List Word
  | 0, w => w
  | n + 1, w => expandBy n (w ++ [nextWord w])

/-- The expanded message W[0..67] from W[0..15] (R122). -/
def expand (w16 : List Word) : Vector Word 68 := fileOf 68 (expandBy 52 w16)

/-- The auxiliary sequence W'[j] = W[j] xor W[j+4] (R123). -/
def auxWords (w : Vector Word 68) : Vector Word 64 :=
  fileOf 64 ((List.range 64).map fun j => xor32 (w.toList.getD j 0) (w.toList.getD (j + 4) 0))

/-- ROUND j on the working registers A to H, with W[j] and W'[j] (R124). -/
def hashRound (j : Nat) (wj w1j : Word) : Words8 → Words8
  | ⟨a, b, c, d, e, f, g, h⟩ =>
    let ss1 := rotl (add32 (add32 (rotl a 12) e) (tj j)) 7
    let ss2 := xor32 ss1 (rotl a 12)
    let tt1 := add32 (add32 (add32 (ff a b c j) d) ss2) w1j
    let tt2 := add32 (add32 (add32 (gg e f g j) h) ss1) wj
    ⟨tt1, a, rotl b 9, c, p0 tt2, e, rotl f 19, g⟩

/-- The feed-forward: exclusive or, element by element (R125). -/
def feedForward (v r : Words8) : Words8 :=
  ⟨xor32 v.w0 r.w0, xor32 v.w1 r.w1, xor32 v.w2 r.w2, xor32 v.w3 r.w3,
   xor32 v.w4 r.w4, xor32 v.w5 r.w5, xor32 v.w6 r.w6, xor32 v.w7 r.w7⟩

/-- The 64 rounds of a block, in ascending j (R125). -/
def hashRounds (w : Vector Word 68) (w1 : Vector Word 64) (r : Words8) : Words8 :=
  (List.range 64).foldl (fun r j => hashRound j (w.toList.getD j 0) (w1.toList.getD j 0) r) r

/-- CF, the compression of the block `b` into the hash state `v` (R125). -/
def compress (v : Words8) (b : List Byte) : Words8 :=
  feedForward v (hashRounds (expand (blockWords b)) (auxWords (expand (blockWords b))) v)

/-- The initial hash state: V[k] = IV[k] (R126, R41). -/
def ivState : Words8 :=
  ⟨iv.getD 0 0, iv.getD 1 0, iv.getD 2 0, iv.getD 3 0, iv.getD 4 0, iv.getD 5 0, iv.getD 6 0, iv.getD 7 0⟩

/-- The hash state after the first n blocks of a padded message, taken in ascending order (R126). -/
def hashBlocks (pm : List Byte) (n : Nat) : Words8 :=
  (List.range n).foldl (fun v i => compress v (blockAt pm i)) ivState

/-- V after all blocks of the padded message of `m` (R126). -/
def hashState (m : List Byte) : Words8 := hashBlocks (pad m) (blockCount m.length)

/-- The 32 bytes of a hash state, eight big-endian words (R127, R54). -/
def digestOf (v : Words8) : List Byte :=
  bytes32 v.w0 ++ bytes32 v.w1 ++ bytes32 v.w2 ++ bytes32 v.w3 ++
  bytes32 v.w4 ++ bytes32 v.w5 ++ bytes32 v.w6 ++ bytes32 v.w7

/-- SM3(m), the digest of a message (R127). -/
def sm3 (m : List Byte) : List Byte := digestOf (hashState m)

end Sys2Proof.Machine
end

