-- ==== Sys2Proof/Machine/Sm4.lean ====
section
/-! DEFINITION. The cipher as functions of byte sequences and round keys (spec 42_sm4_cipher.md R150 to R157). The
engine's internal steps and its three commands (Sys2Proof/Machine/CipherUnit.lean) are built from the same functions. -/

namespace Sys2Proof.Machine

/-- Key load: K[k] = MK[k] xor FK[k] (R150). -/
def keyLoad (key : List Byte) : Words4 :=
  ⟨xor32 (wordOf key 0) (fk.getD 0 0), xor32 (wordOf key 1) (fk.getD 1 0),
   xor32 (wordOf key 2) (fk.getD 2 0), xor32 (wordOf key 3) (fk.getD 3 0)⟩

/-- The word K[i+4] of key round i, which is also rk[i], from the window K[i..i+3] (R151). -/
def keyWord (i : Nat) (k : Words4) : Word :=
  xor32 k.w0 (roundTKey (xor32 (xor32 (xor32 k.w1 k.w2) k.w3) (ck i)))

/-- A window shifted by one word: the oldest word leaves, `t` enters (R32, R33). -/
def Words4.shift (k : Words4) (t : Word) : Words4 := ⟨k.w1, k.w2, k.w3, t⟩

/-- The round keys of the rounds listed, from the window `k` on (R151). -/
def keyRounds : List Nat → Words4 → List Word
  | [], _ => []
  | i :: is, k => keyWord i k :: keyRounds is (k.shift (keyWord i k))

/-- KEYEXP: the schedule rk[0..31] of a key (R152). -/
def keyExp (key : List Byte) : Vector Word 32 := fileOf 32 (keyRounds (List.range 32) (keyLoad key))

/-- Data round with round key `k` (R153). -/
def dataRound (x : Words4) (k : Word) : Words4 :=
  x.shift (xor32 x.w0 (roundT (xor32 (xor32 (xor32 x.w1 x.w2) x.w3) k)))

/-- The data window of a 16-byte block (R154). -/
def blockLoad (block : List Byte) : Words4 :=
  ⟨wordOf block 0, wordOf block 1, wordOf block 2, wordOf block 3⟩

/-- The output block of a data window: the four words in reverse order (R154). -/
def blockStore (x : Words4) : List Byte := bytes32 x.w3 ++ bytes32 x.w2 ++ bytes32 x.w1 ++ bytes32 x.w0

/-- CRYPT: one block under a sequence of round keys (R154). -/
def crypt (keys : List Word) (block : List Byte) : List Byte :=
  blockStore (keys.foldl dataRound (blockLoad block))

/-- The direction of a cipher command (R157). -/
inductive Direction where
  | encrypt
  | decrypt
deriving DecidableEq, Repr

/-- The round keys in the order a direction uses them: rk[0..31] to encrypt, rk[31] down to rk[0] to decrypt (R155,
R156, R30). -/
def keyOrder (dir : Direction) (rk : Vector Word 32) : List Word :=
  match dir with
  | .encrypt => rk.toList
  | .decrypt => rk.toList.reverse

/-- The round key of round r: rk[r] to encrypt, rk[31 - r] to decrypt (R155, R156, R163). -/
def roundKey (dir : Direction) (rk : Vector Word 32) (r : Fin 32) : Word :=
  match dir with
  | .encrypt => rk.get r
  | .decrypt => rk.get r.rev

/-- ENCBLOCK (R155). -/
def encBlock (rk : Vector Word 32) (block : List Byte) : List Byte := crypt (keyOrder .encrypt rk) block

/-- DECBLOCK (R156). -/
def decBlock (rk : Vector Word 32) (block : List Byte) : List Byte := crypt (keyOrder .decrypt rk) block

/-- ENCBLOCK or DECBLOCK, by direction (R157). -/
def cryptBlock (dir : Direction) (rk : Vector Word 32) (block : List Byte) : List Byte :=
  match dir with
  | .encrypt => encBlock rk block
  | .decrypt => decBlock rk block

/-- Block b of a byte sequence, its 16 bytes (R157). -/
def cipherBlockAt (p : List Byte) (b : Nat) : List Byte := (p.drop (Config.blockLen * b)).take Config.blockLen

/-- ECB: every 16-byte block by itself, in ascending order (R157). -/
def ecb (dir : Direction) (rk : Vector Word 32) (p : List Byte) : List Byte :=
  (List.range (p.length / Config.blockLen)).flatMap fun b => cryptBlock dir rk (cipherBlockAt p b)

end Sys2Proof.Machine
end

