-- ==== Sys2Proof/Machine/Ops.lean ====
section
/-! DEFINITION. The named operations over the buffer memory, the engines' registers and the free values; taking an error
(the hardware's one kind of exception, spec 60_exceptions.md R180, R190) and what ends one (R192). -/

namespace Sys2Proof.Machine

/-! ### The buffer memory -/

/-- One byte of BUF (R50, R52). -/
def Memory.read : Memory → Nat → Byte
  | [], _ => Config.blankByte
  | (b, v) :: m, a => if b = a then v else Memory.read m a

/-- One byte written to BUF (R52), the canonical form kept. -/
def Memory.write : Memory → Nat → Byte → Memory
  | [], a, v => if v = Config.blankByte then [] else [(a, v)]
  | (b, x) :: m, a, v =>
    if a < b then (if v = Config.blankByte then (b, x) :: m else (a, v) :: (b, x) :: m)
    else if a = b then (if v = Config.blankByte then m else (a, v) :: m)
    else (b, x) :: Memory.write m a v

/-- The canonical form: addresses strictly rising, no byte equal to what an unlisted address reads as. -/
abbrev Memory.wf (m : Memory) : Prop :=
  m.Pairwise (fun c d => c.1 < d.1) ∧ ∀ c ∈ m, c.2 ≠ Config.blankByte

/-- MemRead(a, n): the n bytes from address a on, in ascending order (R52). -/
def memRead (m : Memory) (a n : Nat) : List Byte := (List.range n).map fun k => m.read (a + k)

/-- MemWrite(a, len(bs), bs): single-byte writes in ascending order (R52). -/
def memWrite : Memory → Nat → List Byte → Memory
  | m, _, [] => m
  | m, a, b :: bs => memWrite (m.write a b) (a + 1) bs

/-! ### Free values -/

/-- The free words number n to n + k - 1. -/
def freeWords (n k : Nat) : List Word := (List.range k).map fun i => Config.freeWord (n + i)

/-- The free bytes number n to n + k - 1. -/
def freeBytes (n k : Nat) : List Byte := (List.range k).map fun i => Config.freeByte (n + i)

/-- Eight free words from number n on. -/
def freeWords8 (n : Nat) : Words8 :=
  ⟨Config.freeWord n, Config.freeWord (n + 1), Config.freeWord (n + 2), Config.freeWord (n + 3),
   Config.freeWord (n + 4), Config.freeWord (n + 5), Config.freeWord (n + 6), Config.freeWord (n + 7)⟩

/-- Four free words from number n on. -/
def freeWords4 (n : Nat) : Words4 :=
  ⟨Config.freeWord n, Config.freeWord (n + 1), Config.freeWord (n + 2), Config.freeWord (n + 3)⟩

/-! ### Errors -/

/-- TAKING AN ERROR, `raise` of R10 and R190: in the status register of the engine the command was issued to, DONE and
ERR are cleared (R78, the start of the issue) and then ERR gets the error and DONE is set; BUSY stays. Nothing else
changes: there is no saved state, no mode, no vector and no handler (R190). Its end is the next issue to the same engine,
which clears both bits (R192); there is no return. -/
def raise (p : Port) (e : CmdError) (s : State) : State :=
  match p with
  | .he => { s with he := { s.he with status := s.he.status.clearForIssue.raise e } }
  | .ce => { s with ce := { s.ce with status := s.ce.status.clearForIssue.raise e } }

/-! ### Commands in flight and the host's duties -/

/-- The ranges of the Hash Engine's command in flight: what it reads and what it writes (R51). A command is in flight from
its acceptance until the host has seen DONE = 1 for it (R65, R66); one whose DONE was cleared unseen is in State.unseen. -/
def heSpans (s : State) : Option (Span × Span) :=
  if s.heInFlight then some (hashInput s.he.hsrc s.he.hlen, hashOutput s.he.hdst) else none

/-- The bytes the Block Cipher Engine's command writes; SM4.SETKEY writes nothing (R51). -/
def cipherOutput (s : State) : Span :=
  if s.ce.cop = opcSetKey then ⟨0, 0⟩ else cryptOutput s.ce.clen s.ce.cdst

/-- The bytes the Block Cipher Engine's command reads (R51). -/
def cipherInput (s : State) : Span :=
  if s.ce.cop = opcSetKey then keyInput s.ce.csrc else cryptInput s.ce.csrc s.ce.clen

/-- The ranges of the Block Cipher Engine's command in flight. -/
def ceSpans (s : State) : Option (Span × Span) :=
  if s.ceInFlight then some (cipherInput s, cipherOutput s) else none

/-- The ranges of an engine's command in flight. -/
def spansOf (p : Port) (s : State) : Option (Span × Span) :=
  match p with
  | .he => heSpans s
  | .ce => ceSpans s

/-- Two commands in flight break the duty of R66: an output range of one meets a range of the other. -/
def clash (x y : Option (Span × Span)) : Bool :=
  match x, y with
  | some (i, o), some (i', o') => o.meets i' || o'.meets i || o.meets o'
  | _, _ => false

/-- The Hash Engine's command as a record of `State.unseen`. -/
def hashRecord (s : State) : Unseen :=
  { port := .he, key := false, input := hashInput s.he.hsrc s.he.hlen, outputs := [hashOutput s.he.hdst] }

/-- The Block Cipher Engine's command as a record of `State.unseen`; SM4.SETKEY has no output range. -/
def cipherRecord (s : State) : Unseen :=
  { port := .ce, key := decide (s.ce.cop = opcSetKey), input := cipherInput s,
    outputs := if s.ce.cop = opcSetKey then [] else [cipherOutput s] }

/-- An issue to an engine that is not busy clears DONE (R78). Where the host has not seen DONE = 1 for the engine's last command,
it never can (R217): the command becomes a record of `State.unseen` (log entry 17). -/
def supersede (p : Port) (s : State) : State :=
  match p with
  | .he => if s.heInFlight then { s with heInFlight := false, unseen := hashRecord s :: s.unseen } else s
  | .ce => if s.ceInFlight then { s with ceInFlight := false, unseen := cipherRecord s :: s.unseen } else s

/-- A record without what a range `o` covers: those bytes hold the result of another command (R217). -/
def Unseen.without (o : Span) (u : Unseen) : Unseen := { u with outputs := u.outputs.flatMap fun r => r.minus o }

/-- The record still has something that is not valid. -/
def Unseen.stays (u : Unseen) : Bool := u.key || !u.outputs.isEmpty

/-- The records after the host has seen DONE = 1 for a command with output range `o`, which holds its result from now on (R217). -/
def settle (o : Span) (us : List Unseen) : List Unseen := (us.map (Unseen.without o)).filter Unseen.stays

/-- The address lies where the result of such a command stands. -/
def Unseen.has (a : Nat) (u : Unseen) : Bool := u.outputs.any fun o => o.has a

/-- Bytes of a range made free. -/
def spoilSpan (s : State) (o : Span) : State :=
  { s with buf := memWrite s.buf o.a (freeBytes s.draws o.n), draws := s.draws + o.n }

/-- The schedule made free. -/
def spoilKey (s : State) : State :=
  { s with ce := { s.ce with rk := fileOf 32 (freeWords s.draws 32) }, draws := s.draws + 32 }

/-- What a broken duty leaves of a finished SM3.HASH: its output range and V are free (R65, log entry 6). -/
def spoilHash (s : State) : State :=
  { s with
    buf := memWrite s.buf s.he.hdst.toNat (freeBytes s.draws Config.digestLen)
    he := { s.he with v := freeWords8 s.draws }
    draws := s.draws + Config.digestLen }

/-- What a broken duty leaves of a finished cipher command: the schedule of SM4.SETKEY, or the output range of SM4.ENC and
SM4.DEC, is free (R65, log entry 6). -/
def spoilCipher (s : State) : State :=
  if s.ce.cop = opcSetKey then spoilKey s else spoilSpan s (cryptOutput s.ce.clen s.ce.cdst)

/-- The duty for an engine's command in flight is broken (R65, R66): a running command is marked, and its end will spoil the
result; a finished one is spoiled now. -/
def breach (p : Port) (s : State) : State :=
  match p with
  | .he => if s.he.status.busy then { s with heDisturbed := true } else spoilHash s
  | .ce => if s.ce.status.busy then { s with ceDisturbed := true } else spoilCipher s

/-- The schedule of an SM4.SETKEY whose duty is broken after the next issue is free, and with it the result of the cipher command
in flight that uses it (R65, log entry 17). -/
def breachKey (s : State) : State := spoilKey (if s.ceInFlight then breach .ce s else s)

/-- The duty for an ended command whose DONE was not seen is broken (R65, log entry 17): its result is free. -/
def breachUnseen (s : State) (u : Unseen) : State :=
  if u.key then breachKey (u.outputs.foldl spoilSpan s) else u.outputs.foldl spoilSpan s

/-- A command of port `p` with the ranges `x` uses what an ended command with unseen DONE has left (log entry 17): it reads where
that one's result is not valid yet (R63, R217), or, at the other engine, one's output range meets a range of the other (R66). Two
commands of one engine never run together, so that the later may write where the earlier read and wrote. -/
def clashUnseen (p : Port) (x : Option (Span × Span)) (u : Unseen) : Bool :=
  match x with
  | none => false
  | some (i, o) =>
    (u.outputs.any fun r => r.meets i) ||
    (decide (u.port ≠ p) && (o.meets u.input || u.outputs.any fun r => r.meets o))

/-- After an acceptance at port `p`: where the two commands in flight clash, or the new one clashes with an ended one whose DONE
was not seen, the duty is broken for both (R66, log entries 6 and 17). -/
def markClash (p : Port) (s : State) : State :=
  let t := if clash (heSpans s) (ceSpans s) then breach .ce (breach .he s) else s
  let us := s.unseen.filter (clashUnseen p (spansOf p s))
  if us.isEmpty then t else breach p (us.foldl breachUnseen t)

/-- The host reads a status register: the read has no side effect on the engines (R36), and DONE = 1 tells the host that the
engine's last command has ended and that its result is valid (R63, R217), so that its duties for that one end (R65). -/
def hostReadStatus (p : Port) (s : State) : State :=
  match p with
  | .he =>
    { s with
      lastStatus := heStatus s
      heInFlight := s.heInFlight && !s.he.status.done
      unseen := if s.heInFlight && s.he.status.done then settle (hashOutput s.he.hdst) s.unseen else s.unseen }
  | .ce =>
    { s with
      lastStatus := ceStatus s
      ceInFlight := s.ceInFlight && !s.ce.status.done
      unseen := if s.ceInFlight && s.ce.status.done then settle (cipherOutput s) s.unseen else s.unseen }

/-! ### Issue -/

/-- An issue that a check refuses (R78): DONE and ERR are cleared, then the error is taken. -/
def refuse (p : Port) (e : CmdError) (s : State) : State := raise p e (supersede p s)

/-- SM3.HASH accepted: DONE and ERR cleared, HSRC, HLEN, HDST latched, BUSY set, HSEQ at (LOAD, 0) (R78, R129). -/
def acceptHash (src : Addr) (len : Len) (dst : Addr) (s : State) : State :=
  markClash .he
    { supersede .he s with
      he := { s.he with
        hsrc := src, hlen := len, hdst := dst, seq := .load 0, status := s.he.status.clearForIssue.accept }
      heInFlight := true
      heDisturbed := false }

/-- The records after the acceptance of a cipher command: SM4.SETKEY replaces the schedule, the result of every earlier one. -/
def keepUnseen (cop : BitVec 8) (us : List Unseen) : List Unseen :=
  if cop = opcSetKey then us.filter fun u => !u.key else us

/-- A cipher command accepted: DONE and ERR cleared, COP, CSRC, CLEN, CDST latched, BUSY set, CSEQ at its first phase
(R78, R163). -/
def acceptCipher (cop : BitVec 8) (first : CSeq) (src : Addr) (len : Len) (dst : Addr) (s : State) : State :=
  markClash .ce
    { supersede .ce s with
      ce := { s.ce with
        cop := cop, csrc := src, clen := len, cdst := dst, seq := first,
        status := s.ce.status.clearForIssue.accept }
      ceInFlight := true
      ceDisturbed := false
      unseen := keepUnseen cop (supersede .ce s).unseen }

end Sys2Proof.Machine
end

