-- ==== Sys2Proof/Machine/CipherUnit.lean ====
section
/-! DEFINITION. The Block Cipher Engine: its internal steps (spec 42_sm4_cipher.md R163) and the commands SM4.SETKEY
(R160), SM4.ENC (R161) and SM4.DEC (R162). -/

namespace Sys2Proof.Machine

/-- The direction the latched opcode COP asks for (R163). -/
def directionOf (cop : BitVec 8) : Direction := if cop = opcDec then .decrypt else .encrypt

/-- nb, the number of blocks of the running command (R163). -/
def cipherBlocks (s : State) : Nat := s.ce.clen.toNat / Config.blockLen

/-- The end of SM4.SETKEY: KEYVALID and DONE are set, BUSY falls, CSEQ is IDLE (R163). From here on K is unspecified (R32)
and so becomes free words (log entry 5). Where the host's duty was broken meanwhile, the result is spoiled (R65, R66, log
entry 6). -/
def keyFinish (s : State) : State :=
  let t : State :=
    { s with
      ce := { s.ce with
        keyValid := true, k := freeWords4 s.draws, seq := .idle, status := s.ce.status.complete }
      ceDisturbed := false
      draws := s.draws + 4 }
  if s.ceDisturbed then spoilCipher t else t

/-- The end of SM4.ENC and SM4.DEC: BUSY falls, DONE is set, CSEQ is IDLE (R163). From here on X is unspecified (R33) and so
becomes free words (log entry 5). Where the host's duty was broken meanwhile, the result is spoiled (R65, R66, log
entry 6). -/
def cryptFinish (s : State) : State :=
  let t : State :=
    { s with
      ce := { s.ce with x := freeWords4 s.draws, seq := .idle, status := s.ce.status.complete }
      ceDisturbed := false
      draws := s.draws + 4 }
  if s.ceDisturbed then spoilCipher t else t

/-- Key round r on the state: rk[r] and the window K (R151). -/
def keyRoundStep (r : Fin 32) (s : State) : State :=
  { s with ce := { s.ce with
      rk := s.ce.rk.set r.val (keyWord r.val s.ce.k)
      k := s.ce.k.shift (keyWord r.val s.ce.k) } }

/-- The write of output block b (R163 BSTORE). -/
def blockStoreStep (b : Nat) (s : State) : State :=
  { s with buf := memWrite s.buf (s.ce.cdst.toNat + Config.blockLen * b) (blockStore s.ce.x) }

/-- CSEQ set. -/
def setCSeq (q : CSeq) (s : State) : State := { s with ce := { s.ce with seq := q } }

/-- The next internal step of the Block Cipher Engine (R163); an idle engine has none and keeps its state (R197). -/
def cipherStep (s : State) : State :=
  match s.ce.seq with
  | .idle => s
  | .kload =>
    { s with ce := { s.ce with
        k := keyLoad (memRead s.buf s.ce.csrc.toNat Config.keyLen)
        seq := .kround 0 } }
  | .kround r =>
    if h : r.val + 1 < 32 then setCSeq (.kround ⟨r.val + 1, h⟩) (keyRoundStep r s)
    else keyFinish (keyRoundStep r s)
  | .bload b =>
    { s with ce := { s.ce with
        x := blockLoad (memRead s.buf (s.ce.csrc.toNat + Config.blockLen * b) Config.blockLen)
        seq := .round b 0 } }
  | .round b r =>
    { s with ce := { s.ce with
        x := dataRound s.ce.x (roundKey (directionOf s.ce.cop) s.ce.rk r)
        seq := if h : r.val + 1 < 32 then .round b ⟨r.val + 1, h⟩ else .bstore b } }
  | .bstore b =>
    if b + 1 < cipherBlocks s then setCSeq (.bload (b + 1)) (blockStoreStep b s)
    else cryptFinish (blockStoreStep b s)

/-- n internal steps of the Block Cipher Engine. -/
def cipherSteps : Nat → State → State
  | 0, s => s
  | n + 1, s => cipherSteps n (cipherStep s)

/-- The number of internal steps of a cipher command: 33 for SM4.SETKEY, 34 * (LEN div 16) for SM4.ENC and SM4.DEC (R163,
R219). -/
def cipherStepCount (cop : BitVec 8) (len : Nat) : Nat :=
  if cop = opcSetKey then 33 else 34 * (len / Config.blockLen)

/-- The host waits until the Block Cipher Engine's BUSY bit is 0: the running command's remaining internal steps are taken
(R78, R214, R220). An engine that is not busy stays as it is. -/
def awaitCipher (s : State) : State :=
  if s.ce.status.busy then cipherSteps (cipherStepCount s.ce.cop s.ce.clen.toNat) s else s

/-- The work of an accepted SM4.SETKEY up to its end, in one piece (R160). -/
def keyWork (s : State) : State :=
  { s with ce := { s.ce with rk := keyExp (memRead s.buf s.ce.csrc.toNat Config.keyLen) } }

/-- The work of an accepted SM4.ENC or SM4.DEC up to its end, in one piece (R161, R162): the whole input is read, and its
ECB image written. -/
def cryptWork (dir : Direction) (s : State) : State :=
  { s with
    buf := memWrite s.buf s.ce.cdst.toNat (ecb dir s.ce.rk (memRead s.buf s.ce.csrc.toNat s.ce.clen.toNat)) }

/-- SM4.SETKEY once the engine is idle: the first failing check ends it with its error; otherwise it is accepted and runs to
its end (R160). -/
def runKey (src : Addr) (len : Len) (dst : Addr) (s : State) : State :=
  match keyCheck s.aw src len with
  | some e => refuse .ce e s
  | none => keyFinish (keyWork (acceptCipher opcSetKey .kload src len dst s))

/-- SM4.ENC and SM4.DEC once the engine is idle (R161, R162). -/
def runCrypt (cop : BitVec 8) (dir : Direction) (src : Addr) (len : Len) (dst : Addr) (s : State) : State :=
  match cryptCheck s.aw s.ce.keyValid src len dst with
  | some e => refuse .ce e s
  | none => cryptFinish (cryptWork dir (acceptCipher cop (.bload 0) src len dst s))

/-- SM4.SETKEY src, len (R160) as one call (R81): the host waits while the engine is busy (R78), the command runs, and the
host reads CE_STATUS with DONE = 1. -/
def execSm4SetKey (src : Addr) (len : Len) (dst : Addr) (s : State) : Host.Outcome State Fault Refusal :=
  .next (hostReadStatus .ce (runKey src len dst (awaitCipher s)))

/-- SM4.ENC src, len, dst (R161) as one call (R81). -/
def execSm4Enc (src : Addr) (len : Len) (dst : Addr) (s : State) : Host.Outcome State Fault Refusal :=
  .next (hostReadStatus .ce (runCrypt opcEnc .encrypt src len dst (awaitCipher s)))

/-- SM4.DEC src, len, dst (R162) as one call (R81). -/
def execSm4Dec (src : Addr) (len : Len) (dst : Addr) (s : State) : Host.Outcome State Fault Refusal :=
  .next (hostReadStatus .ce (runCrypt opcDec .decrypt src len dst (awaitCipher s)))

end Sys2Proof.Machine
end

