-- ==== Sys2Proof/Machine/HashUnit.lean ====
section
/-! DEFINITION. The Hash Engine: its internal steps (spec 41_sm3_hash.md R129) and the command SM3.HASH (R128). -/

namespace Sys2Proof.Machine

/-- Byte p of the padded message of the running command, made on demand (R129). -/
def paddedByte (s : State) (p : Nat) : Byte :=
  if p < s.he.hlen.toNat then s.buf.read (s.he.hsrc.toNat + p)
  else if p = s.he.hlen.toNat then 0x80
  else if paddedLen s.he.hlen.toNat - 8 ≤ p then
    (be64 (8 * s.he.hlen.toNat)).getD (p - (paddedLen s.he.hlen.toNat - 8)) 0
  else 0x00

/-- Block i of the padded message of the running command (R129 LOAD). -/
def hashLoadBlock (s : State) (i : Nat) : List Byte :=
  (List.range Config.hashBlockLen).map fun k => paddedByte s (Config.hashBlockLen * i + k)

/-- W with its first sixteen words replaced (R121). -/
def loadWords (w16 : List Word) (w : Vector Word 68) : Vector Word 68 := fileOf 68 (w16 ++ w.toList.drop 16)

/-- The end of SM3.HASH, the step EMIT: the digest is written, BUSY falls, DONE is set, HSEQ is IDLE (R129). From here on
A to H are unspecified (R23) and so become free words (log entry 5). Where the host's duty was broken meanwhile, the result
is spoiled (R65, R66, log entry 6). -/
def hashEmit (s : State) : State :=
  let t : State :=
    { s with
      buf := memWrite s.buf s.he.hdst.toNat (digestOf s.he.v)
      he := { s.he with regs := freeWords8 s.draws, seq := .idle, status := s.he.status.complete }
      heDisturbed := false
      draws := s.draws + 8 }
  if s.heDisturbed then spoilHash t else t

/-- The next internal step of the Hash Engine (R129); an idle engine has none and keeps its state (R197). -/
def hashStep (s : State) : State :=
  match s.he.seq with
  | .idle => s
  | .load i =>
    { s with he := { s.he with
        v := if i = 0 then ivState else s.he.v
        w := loadWords (blockWords (hashLoadBlock s i)) s.he.w
        seq := .expand i } }
  | .expand i =>
    { s with he := { s.he with
        w := expand (s.he.w.toList.take 16)
        w1 := auxWords (expand (s.he.w.toList.take 16))
        regs := s.he.v
        seq := .round i 0 } }
  | .round i j =>
    { s with he := { s.he with
        regs := hashRound j.val (s.he.w.toList.getD j.val 0) (s.he.w1.toList.getD j.val 0) s.he.regs
        seq := if h : j.val + 1 < 64 then .round i ⟨j.val + 1, h⟩ else .feed i } }
  | .feed i =>
    { s with he := { s.he with
        v := feedForward s.he.v s.he.regs
        seq := if i + 1 < blockCount s.he.hlen.toNat then .load (i + 1) else .emit i } }
  | .emit _ => hashEmit s

/-- n internal steps of the Hash Engine. -/
def hashSteps : Nat → State → State
  | 0, s => s
  | n + 1, s => hashSteps n (hashStep s)

/-- The number of internal steps of SM3.HASH on a message of `len` bytes, 67 * n + 1 (R129, R219). -/
def hashStepCount (len : Nat) : Nat := 67 * blockCount len + 1

/-- The host waits until the Hash Engine's BUSY bit is 0: the running command's remaining internal steps are taken
(R78, R214, R220). An engine that is not busy stays as it is. -/
def awaitHash (s : State) : State :=
  if s.he.status.busy then hashSteps (hashStepCount s.he.hlen.toNat) s else s

/-- The work of an accepted SM3.HASH up to the step EMIT, in one piece (R128): the message is read, V holds the hash
state of it, W and W' the expansion of its last block. -/
def hashWork (s : State) : State :=
  let m := memRead s.buf s.he.hsrc.toNat s.he.hlen.toNat
  let w := expand (blockWords (blockAt (pad m) (blockCount m.length - 1)))
  { s with he := { s.he with v := hashState m, w := w, w1 := auxWords w } }

/-- SM3.HASH once the engine is idle: the first failing check ends it with its error; otherwise it is accepted and runs to its
end (R128). -/
def runHash (src : Addr) (len : Len) (dst : Addr) (s : State) : State :=
  match hashCheck s.aw src len dst with
  | some e => refuse .he e s
  | none => hashEmit (hashWork (acceptHash src len dst s))

/-- SM3.HASH src, len, dst (R128) as one call (R81): the host waits while the engine is busy (R78), the command runs, and
the host reads HE_STATUS with DONE = 1. -/
def execSm3Hash (src : Addr) (len : Len) (dst : Addr) (s : State) : Host.Outcome State Fault Refusal :=
  .next (hostReadStatus .he (runHash src len dst (awaitHash s)))

end Sys2Proof.Machine
end

