-- ==== Sys2Proof/Machine/Dispatch.lean ====
section
/-! DEFINITION. What each command does: one arm per constructor of Instr (spec 30_encoding.md R74). -/

namespace Sys2Proof.Machine

/-- The effect of a command given to its own engine, from issue to end (R20, R81: issue and WAIT are one call). -/
def exec (i : Instr) (s : State) : Host.Outcome State Fault Refusal :=
  match i with
  -- the Hash Engine's command
  | .sm3Hash src len dst => Sys2Proof.Machine.execSm3Hash src len dst s
  -- the Block Cipher Engine's commands
  | .sm4SetKey src len dst => Sys2Proof.Machine.execSm4SetKey src len dst s
  | .sm4Enc src len dst => Sys2Proof.Machine.execSm4Enc src len dst s
  | .sm4Dec src len dst => Sys2Proof.Machine.execSm4Dec src len dst s

end Sys2Proof.Machine
end

