-- ==== Sys2Proof/Machine/HostSide.lean ====
section
/-! DEFINITION. What reaches the engines from outside: the issue of a descriptor (spec 30_encoding.md R78), the host's
accesses to BUF and to the status registers (R20, R36), its duties and what their breach leaves (20_memory.md R65, R66),
waiting (R81), and reset (70_reset_and_hazards.md R210 to R212). -/

namespace Sys2Proof.Machine

/-! ### Issue -/

/-- The acceptance of a command by its engine (R78): the fields are latched, BUSY is set, the sequencer is at the command's
first phase. -/
def accept (i : Instr) (s : State) : State :=
  match i with
  | .sm3Hash src len dst => acceptHash src len dst s
  | .sm4SetKey src len dst => acceptCipher opcSetKey .kload src len dst s
  | .sm4Enc src len dst => acceptCipher opcEnc (.bload 0) src len dst s
  | .sm4Dec src len dst => acceptCipher opcDec (.bload 0) src len dst s

/-- The issue of a command to its engine, which is not busy: an error, or acceptance (R78). -/
def issueInstr (i : Instr) (s : State) : State :=
  match instrCheck s.aw s.ce.keyValid i with
  | some e => refuse i.port e s
  | none => accept i s

/-- The issue of a descriptor to a port whose engine is not busy (R78); a CMD that is not one of the port's own ends with
IllegalCommand, whatever the other fields are (R76, R186). -/
def issueAt (p : Port) (d : Descriptor) (s : State) : State :=
  match decode p d with
  | .error _ => refuse p .illegalCommand s
  | .ok i => issueInstr i s

/-- The next internal step of an engine (R129, R163). -/
def engineStep (p : Port) (s : State) : State :=
  match p with
  | .he => hashStep s
  | .ce => cipherStep s

/-- The host waits until an engine's BUSY bit is 0 (R78, R214, R220). -/
def await (p : Port) (s : State) : State :=
  match p with
  | .he => awaitHash s
  | .ce => awaitCipher s

/-- A descriptor presented to a port and run to its end in one step: what the port decodes is executed; any other CMD ends
with IllegalCommand once the engine is not busy (R76, R78, R81). -/
def runCommand (p : Port) (d : Descriptor) (s : State) : Host.Outcome State Fault Refusal :=
  match decode p d with
  | .ok i => exec i s
  | .error _ => .next (hostReadStatus p (refuse p .illegalCommand (await p s)))

/-! ### Host accesses -/

/-- The host's access to `a` breaks its duty for a command in flight with the ranges `x` (R65): a write into the input or the
output range, a read in the output range. -/
def breaksDuty (x : Option (Span × Span)) (a : Nat) (isWrite : Bool) : Bool :=
  match x with
  | none => false
  | some (i, o) => (isWrite && i.has a) || o.has a

/-- The same for an ended command whose DONE was not seen (R65, R217, log entry 17). -/
def breaksUnseen (a : Nat) (isWrite : Bool) (u : Unseen) : Bool := (isWrite && u.input.has a) || u.has a

/-- The duty is broken for every command that the access touches wrongly (R65, log entries 6 and 17). -/
def markAccess (a : Nat) (isWrite : Bool) (s : State) : State :=
  let t := if breaksDuty (heSpans s) a isWrite then breach .he s else s
  let u := if breaksDuty (ceSpans s) a isWrite then breach .ce t else t
  (s.unseen.filter (breaksUnseen a isWrite)).foldl breachUnseen u

/-- The byte at `a` belongs to a result that is not valid: the output range of a command in flight, or of an ended one whose DONE
was not seen (R65, R217). -/
def notValid (a : Nat) (s : State) : Bool :=
  breaksDuty (heSpans s) a false || breaksDuty (ceSpans s) a false || s.unseen.any (Unseen.has a)

/-- The host writes one byte of BUF (R20, R65). -/
def hostWrite (a : Nat) (v : Byte) (s : State) : State := markAccess a true { s with buf := s.buf.write a v }

/-- The host reads one byte of BUF (R20). A byte of a result that is not valid reads as a free byte (R65, R217, log entry 7). -/
def hostRead (a : Nat) (s : State) : State :=
  if notValid a s then
    markAccess a false { s with lastByte := Config.freeByte s.draws, draws := s.draws + 1 }
  else { s with lastByte := s.buf.read a }

/-! ### Reset -/

/-- `old` or `new`, byte by byte, by the free choices from number n on (R212, U5). -/
def mixBytes (n : Nat) (old new : List Byte) : List Byte :=
  (List.range old.length).map fun k =>
    if Config.freeChoice (n + k) then new.getD k 0 else old.getD k 0

/-- BUF when reset abandons the Hash Engine's command: a digest that EMIT had begun to write is there up to a free number
of bytes, and without that nothing is written (R212, log entry 8). -/
def hashAbortBuf (s : State) : Memory :=
  match s.he.seq with
  | .idle => s.buf
  | .emit _ =>
    if s.heDisturbed then memWrite s.buf s.he.hdst.toNat (freeBytes s.draws Config.digestLen)
    else memWrite s.buf s.he.hdst.toNat ((digestOf s.he.v).take (Config.freeCount s.draws))
  | _ =>
    if s.heDisturbed then memWrite s.buf s.he.hdst.toNat (freeBytes s.draws Config.digestLen) else s.buf

/-- BUF, where it is already `m`, when reset abandons SM4.ENC or SM4.DEC at block b: every output byte from that block on
holds its old value or the one the command would have written, which is what its remaining internal steps write (R212, log
entry 8). -/
def cryptAbortBuf (b : Nat) (m : Memory) (s : State) : Memory :=
  if s.ceDisturbed then
    memWrite m s.ce.cdst.toNat (freeBytes (s.draws + Config.digestLen) s.ce.clen.toNat)
  else
    memWrite m (s.ce.cdst.toNat + Config.blockLen * b)
      (mixBytes s.draws
        (memRead s.buf (s.ce.cdst.toNat + Config.blockLen * b) (s.ce.clen.toNat - Config.blockLen * b))
        (memRead (awaitCipher s).buf (s.ce.cdst.toNat + Config.blockLen * b)
          (s.ce.clen.toNat - Config.blockLen * b)))

/-- BUF, where it is already `m`, when reset abandons the Block Cipher Engine's command; SM4.SETKEY writes none of it
(R212). -/
def cipherAbortBuf (m : Memory) (s : State) : Memory :=
  match s.ce.seq with
  | .idle => m
  | .kload => m
  | .kround _ => m
  | .bload b => cryptAbortBuf b m s
  | .round b _ => cryptAbortBuf b m s
  | .bstore b => cryptAbortBuf b m s

/-- A free address of `aw` bits. -/
def freeAddr (aw n : Nat) : Addr := BitVec.ofNat 64 ((Config.freeField n).toNat % 2 ^ aw)

/-- The Hash Engine after the reset input: HE_STATUS 0, HSEQ IDLE, every other register unspecified and so free (R210, R211,
log entry 5). -/
def hashAfterReset (aw n : Nat) : HashEngine where
  v := freeWords8 n
  regs := freeWords8 (n + 8)
  w := fileOf 68 (freeWords (n + 16) 68)
  w1 := fileOf 64 (freeWords (n + 84) 64)
  hsrc := freeAddr aw n
  hlen := Config.freeField (n + 1)
  hdst := freeAddr aw (n + 2)
  seq := .idle
  status := Status.reset

/-- The Block Cipher Engine after the reset input: CE_STATUS 0, KEYVALID 0, CSEQ IDLE, every other register unspecified and
so free; whether key material is erased is left open (R210, R211, U6, log entry 5). -/
def cipherAfterReset (aw n : Nat) : CipherEngine where
  rk := fileOf 32 (freeWords (n + 148) 32)
  keyValid := false
  k := freeWords4 (n + 180)
  x := freeWords4 (n + 184)
  cop := (Config.freeField (n + 6)).extractLsb' 0 8
  csrc := freeAddr aw (n + 3)
  clen := Config.freeField (n + 4)
  cdst := freeAddr aw (n + 5)
  seq := .idle
  status := Status.reset

/-- The records after a reset: a command that had ended, and whose DONE the host had not seen, is not seen any more; one that is
abandoned leaves what R212 says and no duty; a schedule is lost (log entries 8 and 17). -/
def unseenAfterReset (s : State) : List Unseen :=
  let t := if s.he.status.busy then s else supersede .he s
  let u := if s.ce.status.busy then t else supersede .ce t
  u.unseen.filter fun r => !r.key

/-- The reset input (R210): both engines are put in the reset state, running commands are abandoned (R212), and BUF is not
affected but for the output ranges of those. -/
def resetStep (s : State) : State :=
  { s with
    buf := cipherAbortBuf (hashAbortBuf s) s
    he := hashAfterReset s.aw s.draws
    ce := cipherAfterReset s.aw s.draws
    heInFlight := false
    ceInFlight := false
    heDisturbed := false
    ceDisturbed := false
    unseen := unseenAfterReset s
    draws := s.draws + (256 + s.ce.clen.toNat) }

/-! ### One action -/

/-- The action list after its first element is taken. -/
def State.withHost (s : State) (rest : List HostAction) : State := { s with host := rest }

/-- With nothing to hold it a busy engine takes its next internal step, the Hash Engine first; with none busy nothing
happens (R20, R197, R220; the order is a DESIGN CHOICE, log entry 2). -/
def freeRun (s : State) : State :=
  if s.he.status.busy then hashStep s else cipherStep s

/-- While the host waits for an engine, that engine takes its next internal step; where it is not busy (it was never issued a
command, or has been reset) the other engine is not held up (R220, log entry 2). -/
def waitStep (p : Port) (s : State) : State := if busyOf p s then engineStep p s else freeRun s

/-- The host action `act` at the head of the list, `rest` after it. An issue to a busy engine, and a WAIT on an engine whose
DONE is 0, stay at the head while an engine takes its next internal step (R78, R81, R220, log entry 2). -/
def hostStep (act : HostAction) (rest : List HostAction) (s : State) : Host.Outcome State Fault Refusal :=
  match act with
  | .writeByte a v =>
    if a.toNat < 2 ^ s.aw then .next (hostWrite a.toNat v (s.withHost rest)) else .fault (.noSuchAddress a.toNat)
  | .readByte a =>
    if a.toNat < 2 ^ s.aw then .next (hostRead a.toNat (s.withHost rest)) else .fault (.noSuchAddress a.toNat)
  | .readStatus p => .next (hostReadStatus p (s.withHost rest))
  | .command p d => runCommand p d (s.withHost rest)
  | .issue p d => .next (if busyOf p s then engineStep p s else issueAt p d (s.withHost rest))
  | .wait p =>
    .next (if doneOf p s then hostReadStatus p (s.withHost rest) else waitStep p (hostReadStatus p s))
  | .engine p => .next (engineStep p (s.withHost rest))
  | .reset => .next (resetStep (s.withHost rest))

/-- The machine with a descriptor made from a table word as its next action. -/
def presentWord (nbits w : Nat) (s : State) : State :=
  s.withHost (.command (tableDescriptor nbits w).route (tableDescriptor nbits w) :: s.host)

/-- The directive BUF[a ..] = bytes of R81: the host writes the bytes one after the other. Bytes whose address is 2^64 or more go to
the address modulo 2^64 (DESIGN CHOICE, unsafe, log entry 18: BUF has no such address, and the spec gives such a directive no
effect). -/
def writeActions : Nat → List Byte → List HostAction
  | _, [] => []
  | a, b :: bs => .writeByte (BitVec.ofNat 64 a) b :: writeActions (a + 1) bs

end Sys2Proof.Machine
end

