-- ==== Sys2Proof/Machine/Step.lean ====
section
/-! DEFINITION. One step of the machine (spec 10_state.md R20): the next action of State's list, which says which agent moves,
or, with none left, a busy engine's internal step. -/

namespace Sys2Proof.Machine

/-- One step. -/
def step (s : State) : Host.Outcome State Fault Refusal :=
  match s.host with
  | [] => .next (freeRun s)
  | act :: rest => hostStep act rest s

/-- The state with the command of a table word (its lowest `nbits` bits) presented to its port as the next action, so that
the very next step runs it (log entry 2 says how commands come to run). -/
def State.withFetchWord (s : State) (nbits w : Nat) : State := presentWord nbits w s

end Sys2Proof.Machine
end

