-- ==== Sys2Proof/Safety.lean ====
section
/-! DEFINITION. What a legal state is (the invariant that every step keeps) and what a run within the host's duties is, in
the terms the statements use. -/

namespace Sys2Proof.Machine

/-- The legal combinations of the status bits: BUSY and DONE are never both 1, and an error stands only with DONE = 1 and
BUSY = 0 (R36). -/
abbrev Status.legal (st : Status) : Prop :=
  ¬(st.busy = true ∧ st.done = true) ∧ (st.err ≠ none → st.done = true ∧ st.busy = false)

/-- HSEQ within its bounds, for a message of n blocks: i < n, and EMIT comes after the last block (R28, R129). -/
def HSeq.legal (n : Nat) : HSeq → Prop
  | .idle => True
  | .load i => i < n
  | .expand i => i < n
  | .round i _ => i < n
  | .feed i => i < n
  | .emit i => i + 1 = n

/-- CSEQ within its bounds, for the opcode latched and nb blocks: the key phases belong to SM4.SETKEY, the block phases to
SM4.ENC and SM4.DEC, with b < nb (R28, R163). -/
def CSeq.legal (cop : BitVec 8) (nb : Nat) : CSeq → Prop
  | .idle => True
  | .kload => cop = opcSetKey
  | .kround _ => cop = opcSetKey
  | .bload b => cop ≠ opcSetKey ∧ b < nb
  | .round b _ => cop ≠ opcSetKey ∧ b < nb
  | .bstore b => cop ≠ opcSetKey ∧ b < nb

/-- A host action whose addresses fit the AW address wires (R71, R50). -/
def HostAction.fits (aw : Nat) : HostAction → Bool
  | .writeByte a _ => Addr.fits aw a
  | .readByte a => Addr.fits aw a
  | .readStatus _ => true
  | .command _ d => d.wellFormed aw
  | .issue _ d => d.wellFormed aw
  | .wait _ => true
  | .engine _ => true
  | .reset => true

/-- The operands of the Hash Engine's command in flight passed the checks made at its issue (R189, R193). -/
def hashOperandsOk (s : State) : Prop := hashCheck s.aw s.he.hsrc s.he.hlen s.he.hdst = none

/-- The operands of the Block Cipher Engine's command in flight passed the checks made at its issue (R189, R193). -/
def cipherOperandsOk (s : State) : Prop :=
  (s.ce.cop = opcSetKey ∧ keyCheck s.aw s.ce.csrc s.ce.clen = none) ∨
  ((s.ce.cop = opcEnc ∨ s.ce.cop = opcDec) ∧
    cryptCheck s.aw s.ce.keyValid s.ce.csrc s.ce.clen s.ce.cdst = none)

/-- A legal state. -/
structure State.Inv (s : State) : Prop where
  /-- AW is one of the widths the spec allows (R7). -/
  awRange : 1 ≤ s.aw ∧ s.aw ≤ 64
  /-- BUF is in its canonical form. -/
  bufWf : s.buf.wf
  /-- BUF has no address of 2^AW or more (R50). -/
  bufInside : ∀ c ∈ s.buf, c.1 < 2 ^ s.aw
  /-- What an ended command with unseen DONE wrote lies in BUF (R193). -/
  unseenInside : ∀ u ∈ s.unseen, ∀ o ∈ u.outputs, o.a + o.n ≤ 2 ^ s.aw
  /-- The host drives only addresses its wires can carry (R71). -/
  hostFits : ∀ act ∈ s.host, act.fits s.aw = true
  /-- The latched addresses have AW bits (R21, R29). -/
  hashFits : Addr.fits s.aw s.he.hsrc = true ∧ Addr.fits s.aw s.he.hdst = true
  cipherFits : Addr.fits s.aw s.ce.csrc = true ∧ Addr.fits s.aw s.ce.cdst = true
  /-- The phase is IDLE exactly when BUSY is 0 (R28). -/
  hashIdle : s.he.status.busy = true ↔ s.he.seq ≠ .idle
  cipherIdle : s.ce.status.busy = true ↔ s.ce.seq ≠ .idle
  /-- The status bits are legal (R36). -/
  hashStatus : s.he.status.legal
  cipherStatus : s.ce.status.legal
  /-- A running command is in flight. -/
  hashInFlight : s.he.status.busy = true → s.heInFlight = true
  cipherInFlight : s.ce.status.busy = true → s.ceInFlight = true
  /-- Only a running command is marked. -/
  hashMark : s.heDisturbed = true → s.he.status.busy = true
  cipherMark : s.ceDisturbed = true → s.ce.status.busy = true
  /-- A command in flight passed its checks (R193). -/
  hashOperands : s.heInFlight = true → hashOperandsOk s
  cipherOperands : s.ceInFlight = true → cipherOperandsOk s
  /-- The sequencers are within their bounds (R28). -/
  hashSeq : s.he.seq.legal (blockCount s.he.hlen.toNat)
  cipherSeq : s.ce.seq.legal s.ce.cop (cipherBlocks s)

/-- The ranges a command would put in flight (R51). -/
def instrSpans : Instr → Span × Span
  | .sm3Hash src len dst => (hashInput src len, hashOutput dst)
  | .sm4SetKey src _ _ => (keyInput src, ⟨0, 0⟩)
  | .sm4Enc src len dst => (cryptInput src len, cryptOutput len dst)
  | .sm4Dec src len dst => (cryptInput src len, cryptOutput len dst)

/-- The ranges of the other engine's command in flight. -/
def otherSpans (p : Port) (s : State) : Option (Span × Span) :=
  match p with
  | .he => ceSpans s
  | .ce => heSpans s

/-- The host keeps its duty when it issues `i` now (R66, R217, log entry 17): the command does not clash with the other engine's
command in flight, nor with an ended one whose DONE was not seen. It always holds where there is neither. -/
def dutyKept (i : Instr) (s : State) : Prop :=
  clash (some (instrSpans i)) (otherSpans i.port s) = false ∧
  ∀ u ∈ (supersede i.port s).unseen, clashUnseen i.port (some (instrSpans i)) u = false

/-- The host keeps its duty when it accesses the byte at `a` now (R65). -/
def accessKept (a : Nat) (isWrite : Bool) (s : State) : Prop :=
  breaksDuty (heSpans s) a isWrite = false ∧ breaksDuty (ceSpans s) a isWrite = false ∧
  ∀ u ∈ s.unseen, breaksUnseen a isWrite u = false

/-- The next action keeps the host's duties (R65, R66). -/
def nextKeepsDuty (s : State) : Prop :=
  (∀ a v rest, s.host = .writeByte a v :: rest → accessKept a.toNat true s) ∧
  (∀ a rest, s.host = .readByte a :: rest → accessKept a.toNat false s) ∧
  (∀ p d rest i, s.host = .issue p d :: rest → decode p d = .ok i → busyOf p s = false → dutyKept i s) ∧
  ∀ p d rest i, s.host = .command p d :: rest → decode p d = .ok i → dutyKept i (await p s)

/-- No duty is broken: neither running command is marked, and the two commands in flight do not clash (R65, R66). -/
structure State.Undisturbed (s : State) : Prop where
  hash : s.heDisturbed = false
  cipher : s.ceDisturbed = false
  apart : clash (heSpans s) (ceSpans s) = false

/-- n steps, or the stop that one of them ends in. -/
def runSteps : Nat → State → Host.Outcome State Fault Refusal
  | 0, s => .next s
  | n + 1, s =>
    match step s with
    | .next t => runSteps n t
    | .fault f => .fault f
    | .refused r => .refused r

end Sys2Proof.Machine
end

