-- ==== Sys2Proof/Certificates/Slice0/Obligations.lean ====
section
/-! DEFINITION. The statements for the provers: what the rules of the spec say of the commands, the status registers, the
errors, the buffer memory, the engines' internal steps, reset and the host. -/

open Sys2Proof Sys2Proof.Machine

/-! ### Encoding -/

/-- R71, R74, R76, R77: for every address width, every command whose operands fit it goes through its descriptor, and through
the descriptor's bits as one number, and comes back from its own port with every operand; the other port rejects it; and a port
reads a command from no other descriptor than that command's own. The bits' order in the number is the model's choice (log
entry 12). -/
def Obligations.DecodeAndEncodeAgree : Prop :=
  (∀ (aw : Nat) (i : Instr), 1 ≤ aw → aw ≤ 64 → i.wellFormed aw = true →
    decode i.port (encode i) = .ok i ∧
    decode i.port (Descriptor.ofBits aw ((encode i).toBits aw)) = .ok i ∧
    ∀ q, q ≠ i.port → decode q (encode i) = .error .otherEngine) ∧
  ∀ (p : Port) (d : Descriptor) (i : Instr), decode p d = .ok i → i.port = p ∧ encode i = d

/-- R74, R76: what each port accepts, CMD by CMD, and nothing else. -/
def Obligations.PortsAcceptExactlyTheirCommands : Prop :=
  ∀ d : Descriptor,
    (∀ i, decode .he d = .ok i ↔ d.cmd = 0x00000010 ∧ i = .sm3Hash d.src d.len d.dst) ∧
    (∀ i, decode .ce d = .ok i ↔
      (d.cmd = 0x00000020 ∧ i = .sm4SetKey d.src d.len d.dst) ∨
      (d.cmd = 0x00000021 ∧ i = .sm4Enc d.src d.len d.dst) ∨
      (d.cmd = 0x00000022 ∧ i = .sm4Dec d.src d.len d.dst))

/-- R74: the four CMD words, written bit by bit, are the four commands. -/
def Obligations.TableWordsDecode : Prop :=
  decodeTableWord 32 0b00000000000000000000000000010000 = some (.sm3Hash 0 0 0) ∧
  decodeTableWord 32 0b00000000000000000000000000100000 = some (.sm4SetKey 0 0 0) ∧
  decodeTableWord 32 0b00000000000000000000000000100001 = some (.sm4Enc 0 0 0) ∧
  decodeTableWord 32 0b00000000000000000000000000100010 = some (.sm4Dec 0 0 0)

/-! ### The step -/

/-- A step runs what is presented: a descriptor given as a call, which its port decodes to `i`, is `exec i`; one given as an
issue to an engine that is not busy is the issue step of `i` (R78); the action of an engine is that engine's next internal step
(R129, R163); a WAIT ends where DONE is 1, with the host's read of the status, and else lets a busy engine take a step (R81,
R220); with no action left a busy engine takes a step. That the actions are a list, which actions there are, and which engine
steps while the host waits or has nothing to do are the model's choice (log entry 2). -/
def Obligations.StepRunsDecodedCommand : Prop :=
  ∀ (s : State) (p : Port) (d : Descriptor) (rest : List HostAction),
    (∀ i, s.host = .command p d :: rest → decode p d = .ok i → step s = exec i (s.withHost rest)) ∧
    (∀ i, s.host = .issue p d :: rest → busyOf p s = false → decode p d = .ok i →
      step s = .next (issueInstr i (s.withHost rest))) ∧
    (s.host = .engine p :: rest → step s = .next (engineStep p (s.withHost rest))) ∧
    (s.host = .wait p :: rest →
      (doneOf p s = true → step s = .next (hostReadStatus p (s.withHost rest))) ∧
      (doneOf p s = false → busyOf p s = true → step s = .next (engineStep p (hostReadStatus p s))) ∧
      (doneOf p s = false → busyOf p s = false → step s = .next (freeRun (hostReadStatus p s)))) ∧
    (s.host = [] → step s = .next (freeRun s))

/-- R186, R76, R190, R81: a CMD that is none of the port's own commands ends with IllegalCommand, whatever SRC, LEN and DST are; the
step is `raise` (and, given as a call, the host's read of the status) after `supersede`, which changes nothing of the machine
but the model's own record of the engine's last command, whose DONE the issue clears (the model's choice, log entry 17). -/
def Obligations.UnknownCommandIsIllegal : Prop :=
  ∀ (s : State) (p : Port) (d : Descriptor) (rest : List HostAction),
    busyOf p s = false → (p = .he → d.cmd ≠ 0x00000010) →
    (p = .ce → d.cmd ≠ 0x00000020 ∧ d.cmd ≠ 0x00000021 ∧ d.cmd ≠ 0x00000022) →
    (s.host = .issue p d :: rest → step s = .next (raise p .illegalCommand (supersede p (s.withHost rest)))) ∧
    (s.host = .command p d :: rest →
      step s = .next (hostReadStatus p (raise p .illegalCommand (supersede p (s.withHost rest)))))

/-- R78, R214: an issue to a busy engine waits: it stays the next action, and the engine takes its next internal step. That
the engine is the agent that moves meanwhile is the model's choice (log entry 2). -/
def Obligations.IssueWaitsWhileBusy : Prop :=
  ∀ (s : State) (p : Port) (d : Descriptor) (rest : List HostAction),
    s.host = .issue p d :: rest → busyOf p s = true →
    ∃ t, step s = .next t ∧ t = engineStep p s ∧ t.host = .issue p d :: rest

/-- From every legal state the machine steps, to a legal state: no step ends in a fault or a refusal, the sequencers stay within
their bounds, BUSY stands exactly while a sequencer is not IDLE, the status bits stay legal, BUF keeps its canonical form within
its 2^AW addresses, and what a command in flight passed at its issue stays true of it. -/
def Obligations.EveryStepKeepsLegality : Prop :=
  ∀ s : State, s.Inv → ∃ t, step s = .next t ∧ t.Inv

/-- A command given to its engine in a legal state answers a legal state. -/
def Obligations.EveryCommandKeepsLegality : Prop :=
  ∀ (i : Instr) (s : State), s.Inv → i.wellFormed s.aw = true → ∃ t, exec i s = .next t ∧ t.Inv

/-- The state after reset is legal (the register values R44 leaves open are the model's, log entry 4). -/
def Obligations.ResetStateIsLegal : Prop := State.reset.Inv

/-- R20: AW is a parameter of the step, and no step changes it. -/
def Obligations.AddressWidthIsConstant : Prop :=
  ∀ s t : State, step s = .next t → t.aw = s.aw

/-- R197, R28: with no action waiting and both engines idle nothing changes. -/
def Obligations.IdleMachineKeepsItsState : Prop :=
  ∀ s : State, s.Inv → s.host = [] → s.he.status.busy = false → s.ce.status.busy = false → step s = .next s

/-! ### Reset -/

/-- R44: the values the spec gives for reset: both status registers 0, both sequencers IDLE, KEYVALID 0; and the register
numbers 0 and 1 name them (R36). -/
def Obligations.ResetValues : Prop :=
  heStatus State.reset = 0x00000000 ∧ ceStatus State.reset = 0x00000000 ∧
  State.reset.he.seq = .idle ∧ State.reset.ce.seq = .idle ∧ State.reset.ce.keyValid = false ∧
  statusNumber .he = 0 ∧ statusNumber .ce = 1

/-- R210: the reset input, in any state: both status registers 0, both sequencers IDLE, KEYVALID 0, AW kept; and where both
engines are idle BUF is not changed. -/
def Obligations.ResetInputAnyTime : Prop :=
  ∀ (s : State) (rest : List HostAction), s.host = .reset :: rest →
    ∃ t, step s = .next t ∧ heStatus t = 0x00000000 ∧ ceStatus t = 0x00000000 ∧
      t.he.seq = .idle ∧ t.ce.seq = .idle ∧ t.ce.keyValid = false ∧ t.aw = s.aw ∧ t.host = rest ∧
      (s.he.seq = .idle → s.ce.seq = .idle → t.buf = s.buf)

/-- R212: reset while engines are busy, the duties kept: a byte outside the output ranges of the running commands is unchanged;
a byte of the digest's place is the old one or the digest's, and the old one unless EMIT was next; a byte of a cipher command's
output range is the old one or the one the command would have written. -/
def Obligations.ResetWhileBusyLeavesOldOrNew : Prop :=
  ∀ (s t : State) (rest : List HostAction), s.Inv → s.Undisturbed → s.host = .reset :: rest → step s = .next t →
    ∀ a : Nat,
      (¬(s.he.status.busy = true ∧ (hashOutput s.he.hdst).has a = true) →
       ¬(s.ce.status.busy = true ∧ s.ce.cop ≠ opcSetKey ∧ (cryptOutput s.ce.clen s.ce.cdst).has a = true) →
        t.buf.read a = s.buf.read a) ∧
      (s.he.status.busy = true → (hashOutput s.he.hdst).has a = true →
        t.buf.read a = s.buf.read a ∨
        ((∃ i, s.he.seq = .emit i) ∧ t.buf.read a = (awaitHash s).buf.read a)) ∧
      (s.ce.status.busy = true → s.ce.cop ≠ opcSetKey → (cryptOutput s.ce.clen s.ce.cdst).has a = true →
        t.buf.read a = s.buf.read a ∨ t.buf.read a = (awaitCipher s).buf.read a)

/-! ### Status registers and errors -/

/-- R36, R181, R27: every bit of the two status registers. -/
def Obligations.StatusRegisterLayout : Prop :=
  ∀ s : State,
    (heStatus s).getLsbD 0 = s.he.status.busy ∧ (heStatus s).getLsbD 1 = s.he.status.done ∧
    (heStatus s).getLsbD 2 = false ∧ (heStatus s).getLsbD 3 = false ∧
    (heStatus s).extractLsb' 4 4 = s.he.status.errCode ∧ (heStatus s).extractLsb' 8 24 = 0 ∧
    (ceStatus s).getLsbD 0 = s.ce.status.busy ∧ (ceStatus s).getLsbD 1 = s.ce.status.done ∧
    (ceStatus s).getLsbD 2 = s.ce.keyValid ∧ (ceStatus s).getLsbD 3 = false ∧
    (ceStatus s).extractLsb' 4 4 = s.ce.status.errCode ∧ (ceStatus s).extractLsb' 8 24 = 0

/-- R181: the codes of the seven errors; none is 0 and none is 8 or more. -/
def Obligations.ErrorCodes : Prop :=
  CmdError.code .invalidKeyLength = 1 ∧ CmdError.code .invalidInputLength = 2 ∧ CmdError.code .noKey = 3 ∧
  CmdError.code .messageTooLong = 4 ∧ CmdError.code .illegalCommand = 5 ∧ CmdError.code .addressRange = 6 ∧
  CmdError.code .bufferOverlap = 7 ∧ ∀ e : CmdError, e.code ≠ 0 ∧ e.code.toNat < 8

/-- R190: taking an error, at either port: ERR gets the error's code, DONE is set and BUSY stays 0; nothing else of the machine
changes. The registers as the host reads them: 0x02 with the code in bits 7:4, and KEYVALID kept in bit 2 of CE_STATUS. -/
def Obligations.ErrorEntry : Prop :=
  ∀ (e : CmdError) (s : State),
    (s.he.status.busy = false →
      raise .he e s = { s with he := { s.he with status := ⟨false, true, some e⟩ } } ∧
      heStatus (raise .he e s) = 0x00000002 + 0x10 * (e.code.setWidth 32)) ∧
    (s.ce.status.busy = false →
      raise .ce e s = { s with ce := { s.ce with status := ⟨false, true, some e⟩ } } ∧
      ceStatus (raise .ce e s) =
        0x00000002 + 0x10 * (e.code.setWidth 32) + (if s.ce.keyValid then 0x00000004 else 0x00000000))

/-- R185, R187, R189: when SM3.HASH is refused, and with which error; an accepted length in bits fits 64 bits. -/
def Obligations.HashChecksInOrder : Prop :=
  ∀ (aw : Nat) (src : Addr) (len : Len) (dst : Addr),
    (hashCheck aw src len dst = some .messageTooLong ↔ 2 ^ 61 ≤ len.toNat) ∧
    (hashCheck aw src len dst = some .addressRange ↔
      len.toNat < 2 ^ 61 ∧
      ((0 < len.toNat ∧ 2 ^ aw < src.toNat + len.toNat) ∨ 2 ^ aw < dst.toNat + 32)) ∧
    (hashCheck aw src len dst = none ↔
      len.toNat < 2 ^ 61 ∧ (len.toNat = 0 ∨ src.toNat + len.toNat ≤ 2 ^ aw) ∧ dst.toNat + 32 ≤ 2 ^ aw) ∧
    (hashCheck aw src len dst = none → 8 * len.toNat < 2 ^ 64)

/-- R182, R187, R189: when SM4.SETKEY is refused, and with which error. -/
def Obligations.KeyChecksInOrder : Prop :=
  ∀ (aw : Nat) (src : Addr) (len : Len),
    (keyCheck aw src len = some .invalidKeyLength ↔ len.toNat ≠ 16) ∧
    (keyCheck aw src len = some .addressRange ↔ len.toNat = 16 ∧ 2 ^ aw < src.toNat + 16) ∧
    (keyCheck aw src len = none ↔ len.toNat = 16 ∧ src.toNat + 16 ≤ 2 ^ aw)

/-- R183, R184, R187, R188, R189: when SM4.ENC and SM4.DEC are refused, and with which error; an accepted length has at least 1
block and fewer than 2^60. -/
def Obligations.CryptChecksInOrder : Prop :=
  ∀ (aw : Nat) (keyed : Bool) (src : Addr) (len : Len) (dst : Addr),
    (cryptCheck aw keyed src len dst = some .noKey ↔ keyed = false) ∧
    (cryptCheck aw keyed src len dst = some .invalidInputLength ↔
      keyed = true ∧ (len.toNat = 0 ∨ len.toNat % 16 ≠ 0)) ∧
    (cryptCheck aw keyed src len dst = some .addressRange ↔
      keyed = true ∧ len.toNat ≠ 0 ∧ len.toNat % 16 = 0 ∧
      (2 ^ aw < src.toNat + len.toNat ∨ 2 ^ aw < dst.toNat + len.toNat)) ∧
    (cryptCheck aw keyed src len dst = some .bufferOverlap ↔
      keyed = true ∧ len.toNat ≠ 0 ∧ len.toNat % 16 = 0 ∧
      src.toNat + len.toNat ≤ 2 ^ aw ∧ dst.toNat + len.toNat ≤ 2 ^ aw ∧
      dst ≠ src ∧ src.toNat < dst.toNat + len.toNat ∧ dst.toNat < src.toNat + len.toNat) ∧
    (cryptCheck aw keyed src len dst = none ↔
      keyed = true ∧ len.toNat ≠ 0 ∧ len.toNat % 16 = 0 ∧
      src.toNat + len.toNat ≤ 2 ^ aw ∧ dst.toNat + len.toNat ≤ 2 ^ aw ∧
      (dst = src ∨ src.toNat + len.toNat ≤ dst.toNat ∨ dst.toNat + len.toNat ≤ src.toNat)) ∧
    (cryptCheck aw keyed src len dst = none → 1 ≤ len.toNat / 16 ∧ len.toNat / 16 < 2 ^ 60)

/-- R191, R192: a command that a check refuses, given to an idle engine, leaves the whole machine as it was but for DONE and ERR
of that engine, and the host, which reads that status, sees the error: every command, every check. Of the model's own fields only the records of the commands in flight and of those
with unseen DONE can change (`supersede`, log entry 17). -/
def Obligations.RefusedCommandChangesNothingElse : Prop :=
  ∀ (i : Instr) (s : State) (e : CmdError),
    busyOf i.port s = false → instrCheck s.aw s.ce.keyValid i = some e →
    exec i s = .next (hostReadStatus i.port (raise i.port e (supersede i.port s))) ∧
    ∃ t, exec i s = .next t ∧ t.buf = s.buf ∧ t.host = s.host ∧ t.lastByte = s.lastByte ∧ t.draws = s.draws ∧
      t.he = { s.he with status := t.he.status } ∧ t.ce = { s.ce with status := t.ce.status } ∧
      (i.port = .he → t.ce = s.ce) ∧ (i.port = .ce → t.he = s.he) ∧
      t.lastStatus = statusOf i.port t ∧ t.lastStatus.extractLsb' 4 4 = e.code ∧
      t.lastStatus.getLsbD 1 = true ∧ t.lastStatus.getLsbD 0 = false

/-- R78: the issue of a command that passes its checks to an idle engine: the fields are latched, BUSY is set, DONE and ERR
are cleared, the sequencer is at the command's first phase, and nothing else of the two engines or of BUF changes. The model's own record of an earlier command whose DONE was not seen moves
to `unseen`, and SM4.SETKEY, which replaces the schedule, ends the record of every earlier one (log entry 17). -/
def Obligations.AcceptanceLatchesTheFields : Prop :=
  ∀ (i : Instr) (s : State),
    busyOf i.port s = false → instrCheck s.aw s.ce.keyValid i = none → dutyKept i s →
    (i.port = .he →
      issueInstr i s = { s with
        he := { s.he with
          hsrc := i.src, hlen := i.len, hdst := i.dst, seq := .load 0, status := ⟨true, false, none⟩ }
        heInFlight := true, heDisturbed := false, unseen := (supersede .he s).unseen }) ∧
    (i.port = .ce →
      issueInstr i s = { s with
        ce := { s.ce with
          cop := cmdOpc i.cmd, csrc := i.src, clen := i.len, cdst := i.dst,
          seq := (if i.cmd = 0x00000020 then .kload else .bload 0), status := ⟨true, false, none⟩ }
        ceInFlight := true, ceDisturbed := false
        unseen := keepUnseen (cmdOpc i.cmd) (supersede .ce s).unseen })

/-- R26, R34, R67: while an engine is busy, no step but reset changes the fields latched for its command: not an internal
step, not a host access, not what is presented to either port as an issue, not a call to the other engine. (A call to the busy
engine itself is one step that waits for the command's end and then runs the next one: log entry 2.) -/
def Obligations.LatchedFieldsStayWhileBusy : Prop :=
  ∀ (s t : State), step s = .next t → s.host.head? ≠ some .reset →
    (s.he.status.busy = true → (∀ d rest, s.host ≠ .command .he d :: rest) →
      t.he.hsrc = s.he.hsrc ∧ t.he.hlen = s.he.hlen ∧ t.he.hdst = s.he.hdst) ∧
    (s.ce.status.busy = true → (∀ d rest, s.host ≠ .command .ce d :: rest) →
      t.ce.cop = s.ce.cop ∧ t.ce.csrc = s.ce.csrc ∧ t.ce.clen = s.ce.clen ∧ t.ce.cdst = s.ce.cdst)

/-- R36: the host's read of a status register returns its value and changes nothing of the engines or of BUF. -/
def Obligations.StatusReadHasNoSideEffect : Prop :=
  ∀ (s : State) (p : Port) (rest : List HostAction), s.host = .readStatus p :: rest →
    ∃ t, step s = .next t ∧ t.lastStatus = statusOf p s ∧
      t.he = s.he ∧ t.ce = s.ce ∧ t.buf = s.buf ∧ t.aw = s.aw ∧ t.lastByte = s.lastByte ∧ t.host = rest

/-! ### SM3.HASH -/

/-- R128: SM3.HASH completes. Given to an idle engine with operands that pass the checks, the host's duty kept, it writes the
SM3 digest of the message, leaves V with the hash state, and ends with HE_STATUS = 0x00000002. LEN = 0 and every overlap of
the message and the digest's place are among the cases. That HSRC, HLEN and HDST still hold the operands after the end is the
model's choice (log entry 16): R26 gives them no meaning when BUSY is 0. -/
def Obligations.HashCommandResult : Prop :=
  ∀ (src : Addr) (len : Len) (dst : Addr) (s : State),
    s.buf.wf → s.he.status.busy = false → dutyKept (.sm3Hash src len dst) s →
    len.toNat < 2 ^ 61 → (len.toNat = 0 ∨ src.toNat + len.toNat ≤ 2 ^ s.aw) → dst.toNat + 32 ≤ 2 ^ s.aw →
    ∃ t, exec (.sm3Hash src len dst) s = .next t ∧
      memRead t.buf dst.toNat 32 = sm3 (memRead s.buf src.toNat len.toNat) ∧
      t.he.v = hashState (memRead s.buf src.toNat len.toNat) ∧
      heStatus t = 0x00000002 ∧ t.lastStatus = 0x00000002 ∧ t.he.seq = .idle ∧
      t.he.hsrc = src ∧ t.he.hlen = len ∧ t.he.hdst = dst

/-- The frame of SM3.HASH on an idle engine (R128, R51): every byte outside the 32 bytes at DST keeps its value, and where the
command is refused every byte does; nothing of the Block Cipher Engine changes; neither does AW, the host's list or the byte it
last read. Of the Hash Engine the command writes every register (R128); refused, only the status. -/
def Obligations.HashCommandFrame : Prop :=
  ∀ (src : Addr) (len : Len) (dst : Addr) (s t : State),
    s.buf.wf → s.he.status.busy = false → dutyKept (.sm3Hash src len dst) s →
    exec (.sm3Hash src len dst) s = .next t →
    (∀ a, (a < dst.toNat ∨ dst.toNat + 32 ≤ a) → t.buf.read a = s.buf.read a) ∧
    (hashCheck s.aw src len dst ≠ none → t.buf = s.buf ∧ t.he = { s.he with status := t.he.status }) ∧
    t.ce = s.ce ∧ t.ceInFlight = s.ceInFlight ∧ t.ceDisturbed = s.ceDisturbed ∧
    t.aw = s.aw ∧ t.host = s.host ∧ t.lastByte = s.lastByte

/-- R130(a): the digest depends on the message alone: not on where it lies, not on DST, not on the state of either engine, not on
the rest of BUF, not on AW. -/
def Obligations.DigestDependsOnMessageAlone : Prop :=
  ∀ (src src' : Addr) (len : Len) (dst dst' : Addr) (s s' t t' : State),
    s.buf.wf → s'.buf.wf → s.he.status.busy = false → s'.he.status.busy = false →
    dutyKept (.sm3Hash src len dst) s → dutyKept (.sm3Hash src' len dst') s' →
    hashCheck s.aw src len dst = none → hashCheck s'.aw src' len dst' = none →
    memRead s.buf src.toNat len.toNat = memRead s'.buf src'.toNat len.toNat →
    exec (.sm3Hash src len dst) s = .next t → exec (.sm3Hash src' len dst') s' = .next t' →
    memRead t.buf dst.toNat 32 = memRead t'.buf dst'.toNat 32 ∧ heStatus t = heStatus t'

/-- R75: the fields a command does not use: two SM3.HASH of the empty message that differ in SRC alone differ in the latched HSRC
alone, and two SM4.SETKEY that differ in DST alone differ in the latched CDST alone. -/
def Obligations.UnusedFieldsAreIgnored : Prop :=
  (∀ (src src' : Addr) (dst : Addr) (s t t' : State),
    s.he.status.busy = false → dutyKept (.sm3Hash src 0 dst) s →
    exec (.sm3Hash src 0 dst) s = .next t → exec (.sm3Hash src' 0 dst) s = .next t' →
    { t' with he := { t'.he with hsrc := t.he.hsrc } } = t) ∧
  ∀ (src : Addr) (len : Len) (dst dst' : Addr) (s t t' : State),
    s.ce.status.busy = false → dutyKept (.sm4SetKey src len dst) s →
    exec (.sm4SetKey src len dst) s = .next t → exec (.sm4SetKey src len dst') s = .next t' →
    { t' with ce := { t'.ce with cdst := t.ce.cdst } } = t

/-- R129, R20: the engine's internal steps do what the command does: from a legal state with an idle engine, the issue of
SM3.HASH followed by 67 * n + 1 internal steps and the host's read of DONE is the command as one call, in every part of the
state, for every operand, refused ones too. -/
def Obligations.HashInternalStepsMeetTheCommand : Prop :=
  ∀ (src : Addr) (len : Len) (dst : Addr) (s : State), s.Inv → s.he.status.busy = false →
    exec (.sm3Hash src len dst) s =
      .next (hostReadStatus .he
        (hashSteps (67 * blockCount len.toNat + 1) (issueInstr (.sm3Hash src len dst) s)))

/-- R219, R220: an accepted SM3.HASH on n = (LEN + 72) div 64 blocks is busy for 67 * n + 1 internal steps exactly. -/
def Obligations.HashTakesItsStepCount : Prop :=
  ∀ (src : Addr) (len : Len) (dst : Addr) (s : State), s.Inv → s.he.status.busy = false →
    hashCheck s.aw src len dst = none →
    (∀ k, k < 67 * ((len.toNat + 72) / 64) + 1 →
      (hashSteps k (issueInstr (.sm3Hash src len dst) s)).he.status.busy = true) ∧
    (hashSteps (67 * ((len.toNat + 72) / 64) + 1) (issueInstr (.sm3Hash src len dst) s)).he.status.busy = false

/-! ### The cipher commands -/

/-- R160: SM4.SETKEY completes. Given to an idle engine with LEN = 16 and the key inside BUF, the host's duty kept, it loads the
schedule of the key, sets KEYVALID, and ends with CE_STATUS = 0x00000006; DST is not examined. -/
def Obligations.SetKeyCommandResult : Prop :=
  ∀ (src : Addr) (len : Len) (dst : Addr) (s : State),
    s.ce.status.busy = false → dutyKept (.sm4SetKey src len dst) s →
    len.toNat = 16 → src.toNat + 16 ≤ 2 ^ s.aw →
    ∃ t, exec (.sm4SetKey src len dst) s = .next t ∧
      t.ce.rk = keyExp (memRead s.buf src.toNat 16) ∧ t.ce.keyValid = true ∧
      ceStatus t = 0x00000006 ∧ t.lastStatus = 0x00000006 ∧ t.ce.seq = .idle ∧ t.buf = s.buf

/-- The frame of SM4.SETKEY on an idle engine (R160, R191): BUF and the Hash Engine keep their state; a refused one keeps the
old schedule and KEYVALID and every other register but the status; an accepted one keeps X. -/
def Obligations.SetKeyCommandFrame : Prop :=
  ∀ (src : Addr) (len : Len) (dst : Addr) (s t : State),
    s.ce.status.busy = false → dutyKept (.sm4SetKey src len dst) s →
    exec (.sm4SetKey src len dst) s = .next t →
    (∀ a, t.buf.read a = s.buf.read a) ∧ t.he = s.he ∧
    (keyCheck s.aw src len ≠ none → t.ce = { s.ce with status := t.ce.status }) ∧ t.ce.x = s.ce.x ∧
    t.heInFlight = s.heInFlight ∧ t.heDisturbed = s.heDisturbed ∧
    t.aw = s.aw ∧ t.host = s.host ∧ t.lastByte = s.lastByte

/-- R161: SM4.ENC completes. Given to an idle, keyed engine with a positive multiple of 16 bytes, both ranges inside BUF and equal
or disjoint, the host's duty kept, it writes the ECB encryption of the input under the schedule and ends with CE_STATUS =
0x00000006. In place, DST = SRC, is among the cases. -/
def Obligations.EncryptCommandResult : Prop :=
  ∀ (src : Addr) (len : Len) (dst : Addr) (s : State),
    s.buf.wf → s.ce.status.busy = false → dutyKept (.sm4Enc src len dst) s → s.ce.keyValid = true →
    len.toNat ≠ 0 → len.toNat % 16 = 0 → src.toNat + len.toNat ≤ 2 ^ s.aw → dst.toNat + len.toNat ≤ 2 ^ s.aw →
    (dst = src ∨ src.toNat + len.toNat ≤ dst.toNat ∨ dst.toNat + len.toNat ≤ src.toNat) →
    ∃ t, exec (.sm4Enc src len dst) s = .next t ∧
      memRead t.buf dst.toNat len.toNat = ecb .encrypt s.ce.rk (memRead s.buf src.toNat len.toNat) ∧
      ceStatus t = 0x00000006 ∧ t.lastStatus = 0x00000006 ∧ t.ce.seq = .idle ∧
      t.ce.rk = s.ce.rk ∧ t.ce.keyValid = true

/-- R162: SM4.DEC completes, under the same conditions, with the ECB decryption. -/
def Obligations.DecryptCommandResult : Prop :=
  ∀ (src : Addr) (len : Len) (dst : Addr) (s : State),
    s.buf.wf → s.ce.status.busy = false → dutyKept (.sm4Dec src len dst) s → s.ce.keyValid = true →
    len.toNat ≠ 0 → len.toNat % 16 = 0 → src.toNat + len.toNat ≤ 2 ^ s.aw → dst.toNat + len.toNat ≤ 2 ^ s.aw →
    (dst = src ∨ src.toNat + len.toNat ≤ dst.toNat ∨ dst.toNat + len.toNat ≤ src.toNat) →
    ∃ t, exec (.sm4Dec src len dst) s = .next t ∧
      memRead t.buf dst.toNat len.toNat = ecb .decrypt s.ce.rk (memRead s.buf src.toNat len.toNat) ∧
      ceStatus t = 0x00000006 ∧ t.lastStatus = 0x00000006 ∧ t.ce.seq = .idle ∧
      t.ce.rk = s.ce.rk ∧ t.ce.keyValid = true

/-- The frame of SM4.ENC and SM4.DEC on an idle engine (R161, R162, R51): every byte outside the LEN bytes at DST keeps its
value, and where the command is refused every byte does; the Hash Engine keeps its state; rk, KEYVALID and K are not written; a
refused command changes no register but the status. -/
def Obligations.CryptCommandFrame : Prop :=
  ∀ (i : Instr) (src : Addr) (len : Len) (dst : Addr) (s t : State),
    i = .sm4Enc src len dst ∨ i = .sm4Dec src len dst →
    s.buf.wf → s.ce.status.busy = false → dutyKept i s → exec i s = .next t →
    (∀ a, (a < dst.toNat ∨ dst.toNat + len.toNat ≤ a) → t.buf.read a = s.buf.read a) ∧
    (cryptCheck s.aw s.ce.keyValid src len dst ≠ none →
      t.buf = s.buf ∧ t.ce = { s.ce with status := t.ce.status }) ∧
    t.ce.rk = s.ce.rk ∧ t.ce.keyValid = s.ce.keyValid ∧ t.ce.k = s.ce.k ∧
    t.he = s.he ∧ t.heInFlight = s.heInFlight ∧ t.heDisturbed = s.heDisturbed ∧
    t.aw = s.aw ∧ t.host = s.host ∧ t.lastByte = s.lastByte

/-- R158, R162: SM4.DEC after SM4.ENC under the same schedule gives the plaintext back, wherever the ciphertext was put and
wherever the decryption is put, and so does SM4.ENC after SM4.DEC. -/
def Obligations.DecryptUndoesEncrypt : Prop :=
  ∀ (i j : Instr) (src : Addr) (len : Len) (mid dst : Addr) (s t u : State),
    (i = .sm4Enc src len mid ∧ j = .sm4Dec mid len dst) ∨ (i = .sm4Dec src len mid ∧ j = .sm4Enc mid len dst) →
    s.buf.wf → s.ce.status.busy = false → dutyKept i s → dutyKept j t →
    instrCheck s.aw s.ce.keyValid i = none → instrCheck t.aw t.ce.keyValid j = none →
    exec i s = .next t → exec j t = .next u →
    memRead u.buf dst.toNat len.toNat = memRead s.buf src.toNat len.toNat

/-- R163, R20: the engine's internal steps do what SM4.SETKEY does: from a legal state with an idle engine, the issue followed
by 33 internal steps and the host's read of DONE is the command as one call, in every part of the state, for every operand,
refused ones too. -/
def Obligations.KeyInternalStepsMeetTheCommand : Prop :=
  ∀ (src : Addr) (len : Len) (dst : Addr) (s : State), s.Inv → s.ce.status.busy = false →
    exec (.sm4SetKey src len dst) s =
      .next (hostReadStatus .ce (cipherSteps 33 (issueInstr (.sm4SetKey src len dst) s)))

/-- R163, R61, R62, R20: the engine's internal steps, block by block, do what SM4.ENC and SM4.DEC do on the whole buffer: from a
legal state with an idle engine, the issue followed by 34 * nb internal steps and the host's read of DONE is the command as
one call, in every part of the state, for every operand, refused ones too. -/
def Obligations.CryptInternalStepsMeetTheCommand : Prop :=
  ∀ (i : Instr) (src : Addr) (len : Len) (dst : Addr) (s : State),
    i = .sm4Enc src len dst ∨ i = .sm4Dec src len dst → s.Inv → s.ce.status.busy = false →
    exec i s = .next (hostReadStatus .ce (cipherSteps (34 * (len.toNat / 16)) (issueInstr i s)))

/-- R219, R220: an accepted cipher command is busy for its number of internal steps exactly: 33 for SM4.SETKEY, 34 * (LEN div 16)
for SM4.ENC and SM4.DEC. -/
def Obligations.CipherTakesItsStepCount : Prop :=
  ∀ (i : Instr) (s : State) (n : Nat), i.port = .ce → s.Inv → s.ce.status.busy = false →
    instrCheck s.aw s.ce.keyValid i = none →
    n = (if i.cmd = 0x00000020 then 33 else 34 * (i.len.toNat / 16)) →
    (∀ k, k < n → (cipherSteps k (issueInstr i s)).ce.status.busy = true) ∧
    (cipherSteps n (issueInstr i s)).ce.status.busy = false

/-- A command that passes its checks ends, whether the host's duty is kept or broken (R220): in a legal state with an idle engine it
answers a state with BUSY 0, DONE 1 and ERR 0, and outside its own output range, that of the other engine's command in flight and
those of ended commands whose DONE was not seen every byte of BUF is as before. What a broken duty leaves inside them is the
model's choice (log entries 6 and 17). -/
def Obligations.AcceptedCommandAlwaysEnds : Prop :=
  ∀ (i : Instr) (s : State), s.Inv → busyOf i.port s = false → instrCheck s.aw s.ce.keyValid i = none →
    ∃ t, exec i s = .next t ∧ busyOf i.port t = false ∧ doneOf i.port t = true ∧
      t.lastStatus = statusOf i.port t ∧ t.lastStatus.extractLsb' 4 4 = 0 ∧
      ∀ a, (instrSpans i).2.has a = false → (∀ x ∈ otherSpans i.port s, x.2.has a = false) →
        (∀ u ∈ (supersede i.port s).unseen, u.has a = false) → t.buf.read a = s.buf.read a

/-- R78, R214, R220: a command given to a busy engine waits: in a legal state, it is what the command is once the running
command's remaining internal steps are taken, and those end with BUSY = 0. That the awaited engine alone takes steps meanwhile
is the model's choice (log entry 2). -/
def Obligations.CommandWaitsForBusyEngine : Prop :=
  ∀ (i : Instr) (s : State), s.Inv → busyOf i.port s = true →
    exec i s = exec i (await i.port s) ∧ busyOf i.port (await i.port s) = false ∧
    doneOf i.port (await i.port s) = true

/-! ### Whole-machine rules -/

/-- R31, R36: KEYVALID is cleared by reset alone: no other action, of the host or of an engine, clears it. -/
def Obligations.OnlyResetClearsKeyValid : Prop :=
  ∀ s t : State, step s = .next t → s.ce.keyValid = true → s.host.head? ≠ some .reset → t.ce.keyValid = true

/-- R30, R164: with the duties kept and reset apart the schedule is written by SM4.SETKEY alone. No step of the machine changes rk
that keeps the host's duties, is not the reset input, and neither finds SM4.SETKEY running nor runs one given as a call; an internal
step of either engine changes rk in the phase KROUND only; and no other command than SM4.SETKEY, given while both engines are idle,
changes it. (What reset and a broken duty make of rk is the model's choice, log entries 5 and 6.) -/
def Obligations.OnlySetKeyWritesTheSchedule : Prop :=
  (∀ s t : State, s.Undisturbed → nextKeepsDuty s → s.host.head? ≠ some .reset →
    s.ce.seq ≠ .kload → (∀ r, s.ce.seq ≠ .kround r) →
    (∀ d rest, s.host = .command .ce d :: rest → d.cmd ≠ 0x00000020) →
    step s = .next t → t.ce.rk = s.ce.rk) ∧
  (∀ (p : Port) (s : State), (∀ r, s.ce.seq ≠ .kround r) → s.Undisturbed → (engineStep p s).ce.rk = s.ce.rk) ∧
  ∀ (i : Instr) (s t : State), (∀ src len dst, i ≠ .sm4SetKey src len dst) →
    s.ce.status.busy = false → s.he.status.busy = false → dutyKept i s → exec i s = .next t →
    t.ce.rk = s.ce.rk ∧ t.ce.keyValid = s.ce.keyValid

/-- R2, R195: the engines share no state: an internal step of one leaves every register of the other as it is. -/
def Obligations.EnginesShareNoRegisters : Prop :=
  ∀ s : State, (hashStep s).ce = s.ce ∧ (cipherStep s).he = s.he

/-- R66: with the duties kept, the order in which the two engines take their next steps does not matter: BUF, both engines'
registers and statuses are the same, but for the working registers of a command that has just ended, whose values are
unspecified (R23, R32, R33). -/
def Obligations.EngineStepsCommute : Prop :=
  ∀ s t u : State, s.Inv → s.Undisturbed → t = hashStep (cipherStep s) → u = cipherStep (hashStep s) →
    t.buf = u.buf ∧ t.he = { u.he with regs := t.he.regs } ∧ t.ce = { u.ce with k := t.ce.k, x := t.ce.x } ∧
    (t.he.seq ≠ .idle → t.he.regs = u.he.regs) ∧
    (t.ce.seq ≠ .idle → t.ce.k = u.ce.k ∧ t.ce.x = u.ce.x) ∧
    t.draws = u.draws ∧ t.heDisturbed = u.heDisturbed ∧ t.ceDisturbed = u.ceDisturbed ∧
    t.heInFlight = u.heInFlight ∧ t.ceInFlight = u.ceInFlight ∧ t.unseen = u.unseen ∧ t.host = u.host ∧ t.aw = u.aw

/-- R51: the whole of BUF that an internal step can change, with no duty broken: the 32 bytes at HDST in the phase EMIT, the
16 bytes of output block b in the phase BSTORE, and nothing in any other phase. -/
def Obligations.EngineStepsWriteTheirOutputOnly : Prop :=
  ∀ (s : State) (a : Nat), s.buf.wf → s.Undisturbed →
    ((hashStep s).buf.read a ≠ s.buf.read a →
      (∃ i, s.he.seq = .emit i) ∧ s.he.hdst.toNat ≤ a ∧ a < s.he.hdst.toNat + 32) ∧
    ((cipherStep s).buf.read a ≠ s.buf.read a →
      ∃ b, s.ce.seq = .bstore b ∧ s.ce.cdst.toNat + 16 * b ≤ a ∧ a < s.ce.cdst.toNat + 16 * b + 16)

/-- R20, R52, R59: the host writes a byte where its duties let it (R65), whatever the engines are doing: it reads back the byte it
wrote, no other byte and no engine register changes. -/
def Obligations.HostReadsWhatItWrote : Prop :=
  ∀ (s : State) (a : Addr) (v : Byte) (rest : List HostAction), s.buf.wf → a.toNat < 2 ^ s.aw →
    accessKept a.toNat true s → s.host = .writeByte a v :: .readByte a :: rest →
    ∃ t u, step s = .next t ∧ step t = .next u ∧ u.lastByte = v ∧ u.he = s.he ∧ u.ce = s.ce ∧ u.host = rest ∧
      ∀ x, x ≠ a.toNat → u.buf.read x = s.buf.read x

/-- R63, R65, R217: the result is valid once the host has seen DONE = 1 for its command, and not before. After a call the host reads
from BUF, as it stands there, every byte that the call wrote, and every other byte that belongs to no result still unseen; a
byte of a result that is not valid reads as a free byte; and the result of a command whose DONE an issue clears unseen is not
valid after that issue, accepted or refused. That such a read is a free byte, and how long an unseen result stays so, are the
model's choice (log entries 7 and 17). -/
def Obligations.DoneMakesTheResultVisible : Prop :=
  (∀ (i : Instr) (s t : State) (a : Addr) (rest : List HostAction), s.Inv → busyOf i.port s = false →
    exec i s = .next t → t.host = .readByte a :: rest → a.toNat < 2 ^ t.aw →
    (∀ x ∈ otherSpans i.port s, x.2.has a.toNat = false) →
    (instrCheck s.aw s.ce.keyValid i = none ∧ (instrSpans i).2.has a.toNat = true) ∨
      (∀ u ∈ (supersede i.port s).unseen, u.has a.toNat = false) →
    ∃ u, step t = .next u ∧ u.lastByte = t.buf.read a.toNat) ∧
  (∀ (s : State) (a : Addr) (rest : List HostAction), s.host = .readByte a :: rest → a.toNat < 2 ^ s.aw →
    notValid a.toNat s = true → ∃ t, step s = .next t ∧ t.lastByte = Config.freeByte s.draws) ∧
  ∀ (s : State) (p : Port) (d : Descriptor) (rest : List HostAction) (x : Span × Span) (a : Nat),
    s.host = .issue p d :: rest → busyOf p s = false → spansOf p s = some x → x.2.has a = true →
    ∃ t, step s = .next t ∧ notValid a t = true

/-- R50: a host access to an address that BUF does not have ends the run with the fault of that name (that it is a fault is the
model's choice, log entry 13); an access to an address BUF has does not. -/
def Obligations.NoAddressBeyondTheBuffer : Prop :=
  ∀ (s : State) (a : Addr) (v : Byte) (rest : List HostAction),
    s.host = .writeByte a v :: rest ∨ s.host = .readByte a :: rest →
    (2 ^ s.aw ≤ a.toNat → step s = .fault (.noSuchAddress a.toNat)) ∧
    (a.toNat < 2 ^ s.aw → ∃ t, step s = .next t)

/-! ### The functions the commands compute -/

/-- R90: bit (i + n mod 32) mod 32 of rotl(x, n) is bit i of x, for every amount, 0 and multiples of 32 among them. -/
def Obligations.RotateMovesEveryBit : Prop :=
  ∀ (x : Word) (n i : Nat), i < 32 → (rotl x n).getLsbD ((i + n % 32) % 32) = x.getLsbD i

/-- R94, R95: FF and GG bit by bit: parity for rounds 0 to 15, majority and choice from round 16 on. -/
def Obligations.BooleanFunctionsBitByBit : Prop :=
  ∀ (x y z : Word) (j i : Nat),
    (j < 16 → (ff x y z j).getLsbD i = ((x.getLsbD i ^^ y.getLsbD i) ^^ z.getLsbD i) ∧ gg x y z j = ff x y z j) ∧
    (16 ≤ j →
      (ff x y z j).getLsbD i =
        ((x.getLsbD i && y.getLsbD i) || (x.getLsbD i && z.getLsbD i) || (y.getLsbD i && z.getLsbD i)) ∧
      (i < 32 → (gg x y z j).getLsbD i = if x.getLsbD i then y.getLsbD i else z.getLsbD i))

/-- R104: be32 of four bytes as a number, bytes32 byte by byte, each the inverse of the other, and be64 byte by byte. -/
def Obligations.PackingFormulas : Prop :=
  (∀ b0 b1 b2 b3 : Byte,
    (be32 b0 b1 b2 b3).toNat = b0.toNat * 2 ^ 24 + b1.toNat * 2 ^ 16 + b2.toNat * 2 ^ 8 + b3.toNat ∧
    bytes32 (be32 b0 b1 b2 b3) = [b0, b1, b2, b3]) ∧
  (∀ w : Word, bytes32 w = [w.extractLsb' 24 8, w.extractLsb' 16 8, w.extractLsb' 8 8, w.extractLsb' 0 8] ∧
    be32 (byteOf w 0) (byteOf w 1) (byteOf w 2) (byteOf w 3) = w) ∧
  ∀ n k : Nat, n < 2 ^ 64 → k < 8 →
    (be64 n).length = 8 ∧ ((be64 n).getD k 0).toNat = n / 2 ^ (8 * (7 - k)) % 256

/-- R120: the padded message: a multiple of 64 bytes, n = (LEN + 72) div 64 blocks, at most 63 zero bytes; it begins with the
message, then 0x80, then zeros, and its last eight bytes are the bit length, big-endian. -/
def Obligations.PaddedMessageShape : Prop :=
  ∀ m : List Byte,
    (pad m).length = 64 * blockCount m.length ∧ blockCount m.length = (m.length + 72) / 64 ∧
    1 ≤ blockCount m.length ∧ (m.length + 1 + padZeros m.length) % 64 = 56 ∧ padZeros m.length ≤ 63 ∧
    (pad m).take m.length = m ∧ (pad m).getD m.length 0 = 0x80 ∧
    (∀ k, m.length < k → k < (pad m).length - 8 → (pad m).getD k 0 = 0x00) ∧
    (pad m).drop ((pad m).length - 8) = be64 (8 * m.length)

/-- R121, R122, R123: the expanded message of a block: W[0..15] are the block's words, W[16..67] follow the recurrence, and W'[j]
is W[j] xor W[j+4]. -/
def Obligations.MessageExpansionRecurrence : Prop :=
  ∀ (b : List Byte) (w : Vector Word 68), w = expand (blockWords b) →
    (∀ k (h : k < 16), w[k]'(by omega) = wordOf b k) ∧
    (∀ j (h : j < 68) (h16 : 16 ≤ j),
      w[j] = p1 (w[j - 16]'(by omega) ^^^ w[j - 9]'(by omega) ^^^ rotl (w[j - 3]'(by omega)) 15) ^^^
        rotl (w[j - 13]'(by omega)) 7 ^^^ w[j - 6]'(by omega)) ∧
    ∀ j (h : j < 64), (auxWords w)[j] = w[j]'(by omega) ^^^ w[j + 4]'(by omega)

/-- R150, R151, R152: the key schedule follows the recurrence, from the key words xored with FK. -/
def Obligations.KeyScheduleRecurrence : Prop :=
  ∀ (key : List Byte) (x : Nat → Word),
    (∀ k, k < 4 → x k = wordOf key k ^^^ fk.getD k 0) →
    (∀ i, i < 32 → x (i + 4) = x i ^^^ roundTKey (x (i + 1) ^^^ x (i + 2) ^^^ x (i + 3) ^^^ ck i)) →
    ∀ i (h : i < 32), (keyExp key)[i] = x (i + 4)

/-- R158: DECBLOCK undoes ENCBLOCK and ENCBLOCK undoes DECBLOCK, on every block of 16 bytes and for every 32 words used as round
keys; and so ECB decryption undoes ECB encryption, and the other way round, on every whole number of blocks. -/
def Obligations.BlockInverse : Prop :=
  ∀ rk : Vector Word 32,
    (∀ block : List Byte, block.length = 16 →
      decBlock rk (encBlock rk block) = block ∧ encBlock rk (decBlock rk block) = block) ∧
    ∀ p : List Byte, p.length % 16 = 0 →
      ecb .decrypt rk (ecb .encrypt rk p) = p ∧ ecb .encrypt rk (ecb .decrypt rk p) = p

/-- R157, R159: ECB keeps the length, and block b of the output is the block transform of block b of the input, so that equal
input blocks give equal output blocks. -/
def Obligations.BlocksAreIndependent : Prop :=
  ∀ (dir : Direction) (rk : Vector Word 32) (p : List Byte), p.length % 16 = 0 →
    (ecb dir rk p).length = p.length ∧
    (∀ b, b < p.length / 16 → cipherBlockAt (ecb dir rk p) b = cryptBlock dir rk (cipherBlockAt p b)) ∧
    ∀ b c, b < p.length / 16 → c < p.length / 16 → cipherBlockAt p b = cipherBlockAt p c →
      cipherBlockAt (ecb dir rk p) b = cipherBlockAt (ecb dir rk p) c

/-- R42, R99: the substitution box is a permutation of the 256 bytes. -/
def Obligations.SubstitutionBoxIsAPermutation : Prop :=
  (∀ a b : Byte, sbox a = sbox b → a = b) ∧ ∀ c : Byte, ∃ a : Byte, sbox a = c

/-- R43: the four words FK, and byte t of CK[i] is ((4 * i + t) * 7) mod 256. -/
def Obligations.CipherConstants : Prop :=
  fk = [0xA3B1BAC6, 0x56AA3350, 0x677D9197, 0xB27022DC] ∧
  ∀ i t : Nat, i < 32 → t < 4 → (byteOf (ck i) t).toNat = ((4 * i + t) * 7) % 256

/-! ### Progress -/

/-- R220, R219: nothing the host does can block an engine's internal steps: from every legal state, whatever actions are to come,
the machine comes in finitely many steps, none of which is a fault or a refusal, to a state in which neither engine is busy. The
order in which the engines take these steps is the model's choice (log entry 2). -/
def Obligations.EnginesAlwaysComeToRest : Prop :=
  ∀ s : State, s.Inv → ∃ n t, runSteps n s = .next t ∧ t.he.status.busy = false ∧ t.ce.status.busy = false
end

