-- ==== Sys2Proof/Laws/Flags.lean ====
section
/-! SUPPORT. What the status registers read after issue, error and completion. -/

namespace Sys2Proof.Machine

@[simp] theorem Status.raise_clear (st : Status) (e : CmdError) :
    st.clearForIssue.raise e = { busy := st.busy, done := true, err := some e } := rfl

@[simp] theorem Status.accept_clear (st : Status) :
    st.clearForIssue.accept = { busy := true, done := false, err := none } := rfl

@[simp] theorem Status.complete_accepted (b d : Bool) (e : Option CmdError) :
    Status.complete { busy := b, done := d, err := e } = { busy := false, done := true, err := e } := rfl

/-- The register of an engine whose last command ended without error, and no key is valid (or it is the Hash Engine). -/
@[simp] theorem Status.word_done : Status.word { busy := false, done := true, err := none } false = 0x00000002 := by
  decide

/-- The register of the Block Cipher Engine when its last command ended without error and a key is valid. -/
@[simp] theorem Status.word_done_keyed : Status.word { busy := false, done := true, err := none } true = 0x00000006 := by
  decide

@[simp] theorem Status.word_reset (kv : Bool) : Status.word Status.reset kv = if kv then 0x00000004 else 0x00000000 := by
  cases kv <;> decide

/-- The register after an error. -/
theorem Status.word_error (e : CmdError) (kv : Bool) :
    Status.word { busy := false, done := true, err := some e } kv =
      0x00000002 + 0x10 * (e.code.setWidth 32) + (if kv then 0x00000004 else 0x00000000) := by
  cases e <;> cases kv <;> decide

/-- The fields of the register after an error. -/
theorem Status.word_error_fields (e : CmdError) (kv : Bool) :
    (Status.word { busy := false, done := true, err := some e } kv).extractLsb' 4 4 = e.code ∧
    (Status.word { busy := false, done := true, err := some e } kv).getLsbD 1 = true ∧
    (Status.word { busy := false, done := true, err := some e } kv).getLsbD 0 = false := by
  cases e <;> cases kv <;> decide

end Sys2Proof.Machine
end

