-- ==== Sys2Proof/Laws/Memory.lean ====
section
/-! SUPPORT. The laws of the buffer memory: every operation keeps the canonical form, a read after a write, equal reads
make equal memories, and what MemRead and MemWrite do byte by byte. -/

namespace Sys2Proof.Machine

@[simp] theorem Memory.read_nil (a : Nat) : Memory.read [] a = Config.blankByte := rfl

theorem Memory.read_cons (b : Nat) (v : Byte) (m : Memory) (a : Nat) :
    Memory.read ((b, v) :: m) a = if b = a then v else Memory.read m a := rfl

/-- The tail of a canonical memory is canonical. -/
theorem Memory.wf_tail {c : Host.Cell} {m : Memory} (h : Memory.wf (c :: m)) : Memory.wf m :=
  ⟨(List.pairwise_cons.1 h.1).2, fun d hd => h.2 d (List.mem_cons_of_mem _ hd)⟩

/-- An address below all listed ones is not listed. -/
theorem Memory.read_below {m : Memory} {a : Nat} (h : ∀ c ∈ m, a < c.1) : m.read a = Config.blankByte := by
  induction m with
  | nil => rfl
  | cons c m ih =>
    obtain ⟨b, v⟩ := c
    have hb : a < b := h (b, v) List.mem_cons_self
    rw [Memory.read_cons, if_neg (by omega)]
    exact ih fun d hd => h d (List.mem_cons_of_mem _ hd)

/-- The cells of a memory after a write: the written one and old ones at other addresses. -/
theorem Memory.mem_write {m : Memory} {a : Nat} {v : Byte} {c : Host.Cell} (h : c ∈ m.write a v) :
    (c = (a, v) ∧ v ≠ Config.blankByte) ∨ c ∈ m := by
  induction m with
  | nil =>
    simp only [Memory.write] at h
    split at h
    · simp at h
    · next hv => exact .inl ⟨by simpa using h, hv⟩
  | cons d m ih =>
    obtain ⟨b, x⟩ := d
    simp only [Memory.write] at h
    split at h
    · split at h
      · exact .inr h
      · next hv =>
        rcases List.mem_cons.1 h with h | h
        · exact .inl ⟨h, hv⟩
        · exact .inr h
    · split at h
      · split at h
        · exact .inr (List.mem_cons_of_mem _ h)
        · next hv =>
          rcases List.mem_cons.1 h with h | h
          · exact .inl ⟨h, hv⟩
          · exact .inr (List.mem_cons_of_mem _ h)
      · rcases List.mem_cons.1 h with h | h
        · exact .inr (h ▸ List.mem_cons_self)
        · exact (ih h).imp id (List.mem_cons_of_mem _)

/-- A write keeps the canonical form. -/
theorem Memory.write_wf {m : Memory} (h : m.wf) (a : Nat) (v : Byte) : (m.write a v).wf := by
  refine ⟨?_, fun c hc => (Memory.mem_write hc).elim (fun e => e.1 ▸ e.2) (h.2 c)⟩
  induction m with
  | nil =>
    simp only [Memory.write]
    split <;> simp
  | cons d m ih =>
    obtain ⟨b, x⟩ := d
    have hp := List.pairwise_cons.1 h.1
    simp only [Memory.write]
    split
    · next hab =>
      split
      · exact h.1
      · refine List.pairwise_cons.2 ⟨fun c hc => ?_, h.1⟩
        rcases List.mem_cons.1 hc with rfl | hc
        · exact hab
        · exact lt_trans hab (hp.1 c hc)
    · split
      · next heq =>
        subst heq
        split
        · exact hp.2
        · exact List.pairwise_cons.2 ⟨hp.1, hp.2⟩
      · next hlt hne =>
        refine List.pairwise_cons.2 ⟨fun c hc => ?_, ih (Memory.wf_tail h)⟩
        rcases Memory.mem_write hc with e | hc
        · rw [e.1]; simp only; omega
        · exact hp.1 c hc

/-- A read after a write. -/
theorem Memory.read_write {m : Memory} (h : m.wf) (a : Nat) (v : Byte) (b : Nat) :
    (m.write a v).read b = if a = b then v else m.read b := by
  induction m with
  | nil =>
    simp only [Memory.write]
    split
    · next hv => simp [hv]
    · simp [Memory.read_cons]
  | cons d m ih =>
    obtain ⟨c, x⟩ := d
    have hp := List.pairwise_cons.1 h.1
    have low : a ≤ c → Memory.read m a = Config.blankByte := fun hac =>
      Memory.read_below fun e he => lt_of_le_of_lt hac (hp.1 e he)
    simp only [Memory.write]
    split
    · next hac =>
      split
      · next hv =>
        by_cases hb : a = b
        · subst hb
          rw [Memory.read_cons, if_neg (by omega), if_pos rfl, low (by omega), hv]
        · rw [if_neg hb]
      · simp [Memory.read_cons]
    · split
      · next heq =>
        subst heq
        split
        · next hv =>
          by_cases hb : a = b
          · subst hb
            rw [if_pos rfl, low le_rfl, hv]
          · rw [if_neg hb, Memory.read_cons, if_neg hb]
        · by_cases hb : a = b
          · simp [Memory.read_cons, hb]
          · simp [Memory.read_cons, hb]
      · next hlt hne =>
        rw [Memory.read_cons, Memory.read_cons, ih (Memory.wf_tail h)]
        by_cases hb : c = b
        · rw [if_pos hb, if_pos hb, if_neg (by omega)]
        · rw [if_neg hb, if_neg hb]

/-- A listed cell is what its address reads. -/
theorem Memory.read_of_mem {m : Memory} (h : m.wf) {c : Host.Cell} (hc : c ∈ m) : m.read c.1 = c.2 := by
  induction m with
  | nil => simp at hc
  | cons d m ih =>
    obtain ⟨b, x⟩ := d
    rcases List.mem_cons.1 hc with rfl | hc'
    · simp [Memory.read_cons]
    · have := (List.pairwise_cons.1 h.1).1 c hc'
      rw [Memory.read_cons, if_neg (by simp only at this; omega)]
      exact ih (Memory.wf_tail h) hc'

/-- Equal reads make equal memories: the canonical form is one. -/
theorem Memory.ext_read {m n : Memory} (hm : m.wf) (hn : n.wf) (h : ∀ a, m.read a = n.read a) : m = n := by
  induction m generalizing n with
  | nil =>
    cases n with
    | nil => rfl
    | cons d n =>
      have h0 := h d.1
      rw [Memory.read_of_mem hn List.mem_cons_self] at h0
      exact absurd h0.symm (hn.2 d List.mem_cons_self)
  | cons c m ih =>
    cases n with
    | nil =>
      have h0 := h c.1
      rw [Memory.read_of_mem hm List.mem_cons_self] at h0
      exact absurd h0 (hm.2 c List.mem_cons_self)
    | cons d n =>
      have hpm := List.pairwise_cons.1 hm.1
      have hpn := List.pairwise_cons.1 hn.1
      have key : ∀ {c d : Host.Cell} {m n : Memory}, Memory.wf (c :: m) → Memory.wf (d :: n) →
          (∀ a, Memory.read (c :: m) a = Memory.read (d :: n) a) → ¬ c.1 < d.1 := by
        intro c d m n hm hn h hlt
        have h0 := h c.1
        rw [Memory.read_of_mem hm List.mem_cons_self,
          Memory.read_below (m := d :: n) (a := c.1) ?_] at h0
        · exact hm.2 c List.mem_cons_self h0
        · intro e he
          rcases List.mem_cons.1 he with rfl | he
          · exact hlt
          · exact lt_trans hlt ((List.pairwise_cons.1 hn.1).1 e he)
      have h1 := key hm hn h
      have h2 := key hn hm fun a => (h a).symm
      have hfst : c.1 = d.1 := by omega
      have hsnd : c.2 = d.2 := by
        rw [← Memory.read_of_mem hm List.mem_cons_self, ← Memory.read_of_mem hn List.mem_cons_self, h, hfst]
      have hcd : c = d := Prod.ext hfst hsnd
      subst hcd
      congr 1
      refine ih (Memory.wf_tail hm) (Memory.wf_tail hn) fun a => ?_
      by_cases ha : c.1 = a
      · subst ha
        rw [Memory.read_below hpm.1, Memory.read_below hpn.1]
      · have := h a
        obtain ⟨b, x⟩ := c
        rwa [Memory.read_cons, Memory.read_cons, if_neg ha, if_neg ha] at this

@[simp] theorem memRead_length (m : Memory) (a n : Nat) : (memRead m a n).length = n := by simp [memRead]

@[simp] theorem memRead_zero (m : Memory) (a : Nat) : memRead m a 0 = [] := rfl

/-- Byte k of MemRead. -/
theorem memRead_getD (m : Memory) (a n k : Nat) (h : k < n) (d : Byte) : (memRead m a n).getD k d = m.read (a + k) := by
  simp [memRead, List.getD, h]

/-- MemRead depends on the bytes of its range only. -/
theorem memRead_congr {m m' : Memory} {a n : Nat} (h : ∀ x, a ≤ x → x < a + n → m.read x = m'.read x) :
    memRead m a n = memRead m' a n := by
  simp only [memRead]
  refine List.map_congr_left fun k hk => h _ (by omega) ?_
  have := List.mem_range.1 hk
  omega

@[simp] theorem memWrite_nil (m : Memory) (a : Nat) : memWrite m a [] = m := rfl

theorem memWrite_cons (m : Memory) (a : Nat) (b : Byte) (bs : List Byte) :
    memWrite m a (b :: bs) = memWrite (m.write a b) (a + 1) bs := rfl

/-- MemWrite keeps the canonical form. -/
theorem memWrite_wf {m : Memory} (h : m.wf) (a : Nat) (bs : List Byte) : (memWrite m a bs).wf := by
  induction bs generalizing m a with
  | nil => exact h
  | cons b bs ih => exact ih (Memory.write_wf h a b) (a + 1)

/-- MemWrite, byte by byte. -/
theorem read_memWrite {m : Memory} (h : m.wf) (a : Nat) (bs : List Byte) (x : Nat) :
    (memWrite m a bs).read x = if a ≤ x ∧ x < a + bs.length then bs.getD (x - a) 0 else m.read x := by
  induction bs generalizing m a with
  | nil => simp only [memWrite_nil, List.length_nil]; rw [if_neg (by omega)]
  | cons b bs ih =>
    rw [memWrite_cons, ih (Memory.write_wf h a b) (a + 1), Memory.read_write h]
    simp only [List.length_cons]
    by_cases hx : a + 1 ≤ x ∧ x < a + 1 + bs.length
    · rw [if_pos hx, if_pos (by omega), show x - a = (x - (a + 1)) + 1 by omega]
      simp
    · rw [if_neg hx]
      by_cases ha : a = x
      · subst ha
        rw [if_pos rfl, if_pos (by omega)]
        simp
      · rw [if_neg ha, if_neg (by omega)]

/-- A byte outside the range of a MemWrite keeps its value. -/
theorem read_memWrite_outside {m : Memory} (h : m.wf) {a x : Nat} {bs : List Byte} (hx : x < a ∨ a + bs.length ≤ x) :
    (memWrite m a bs).read x = m.read x := by
  rw [read_memWrite h, if_neg (by omega)]

/-- MemRead of what MemWrite wrote. -/
theorem memRead_memWrite {m : Memory} (h : m.wf) (a : Nat) (bs : List Byte) :
    memRead (memWrite m a bs) a bs.length = bs := by
  refine List.ext_getElem (by simp) fun k h1 h2 => ?_
  have hk : k < bs.length := h2
  have := memRead_getD (memWrite m a bs) a bs.length k hk 0
  rw [List.getD_eq_getElem _ _ h1] at this
  rw [this, read_memWrite h, if_pos (by omega), show a + k - a = k by omega, List.getD_eq_getElem _ _ h2]

/-- MemRead of a range that a MemWrite does not meet. -/
theorem memRead_memWrite_apart {m : Memory} (h : m.wf) {a b n : Nat} {bs : List Byte}
    (hd : n = 0 ∨ bs.length = 0 ∨ b + n ≤ a ∨ a + bs.length ≤ b) :
    memRead (memWrite m a bs) b n = memRead m b n := by
  refine memRead_congr fun x h1 h2 => read_memWrite_outside h ?_
  omega

/-- Two MemWrites one after the other, the second where the first ends, are one. -/
theorem memWrite_append (m : Memory) (a : Nat) (bs cs : List Byte) :
    memWrite m a (bs ++ cs) = memWrite (memWrite m a bs) (a + bs.length) cs := by
  induction bs generalizing m a with
  | nil => simp
  | cons b bs ih => simp only [List.cons_append, memWrite_cons, ih, List.length_cons]; congr 1; omega

/-- The cells of a memory after a MemWrite: written ones and old ones. -/
theorem mem_memWrite {m : Memory} {a : Nat} {bs : List Byte} {c : Host.Cell} (h : c ∈ memWrite m a bs) :
    (a ≤ c.1 ∧ c.1 < a + bs.length) ∨ c ∈ m := by
  induction bs generalizing m a with
  | nil => exact .inr h
  | cons b bs ih =>
    rcases ih h with h | h
    · simp only [List.length_cons]; omega
    · rcases Memory.mem_write h with e | h
      · left; rw [e.1]; simp
      · exact .inr h

/-- A MemWrite inside BUF leaves no address outside it. -/
theorem memWrite_inside {m : Memory} {n a : Nat} {bs : List Byte} (h : ∀ c ∈ m, c.1 < n) (ha : bs.length = 0 ∨ a + bs.length ≤ n) :
    ∀ c ∈ memWrite m a bs, c.1 < n := by
  intro c hc
  rcases mem_memWrite hc with h' | h'
  · omega
  · exact h c h'

/-- Two MemWrites to ranges that do not meet may change places. -/
theorem memWrite_comm {m : Memory} (h : m.wf) {a b : Nat} {bs cs : List Byte}
    (hd : bs.length = 0 ∨ cs.length = 0 ∨ b + cs.length ≤ a ∨ a + bs.length ≤ b) :
    memWrite (memWrite m a bs) b cs = memWrite (memWrite m b cs) a bs := by
  refine Memory.ext_read (memWrite_wf (memWrite_wf h _ _) _ _) (memWrite_wf (memWrite_wf h _ _) _ _) fun x => ?_
  rw [read_memWrite (memWrite_wf h _ _), read_memWrite h, read_memWrite (memWrite_wf h _ _), read_memWrite h]
  split <;> split <;> first | rfl | omega

end Sys2Proof.Machine
end

