-- ==== Sys2Proof/Laws/Operands.lean ====
section
/-! SUPPORT. The ranges and checks of Sys2Proof/Machine/Operands.lean in plain arithmetic, and what clashing is. -/

namespace Sys2Proof.Machine

theorem Span.has_iff (r : Span) (x : Nat) : r.has x = true ↔ r.a ≤ x ∧ x < r.a + r.n := by simp [Span.has]

theorem Span.inBuf_iff (aw : Nat) (r : Span) : r.inBuf aw = true ↔ r.n = 0 ∨ r.a + r.n ≤ 2 ^ aw := by simp [Span.inBuf]

theorem Span.meets_iff (r t : Span) :
    r.meets t = true ↔ 0 < r.n ∧ 0 < t.n ∧ r.a < t.a + t.n ∧ t.a < r.a + r.n := by simp [Span.meets]

theorem Span.not_meets_iff (r t : Span) :
    r.meets t = false ↔ r.n = 0 ∨ t.n = 0 ∨ t.a + t.n ≤ r.a ∨ r.a + r.n ≤ t.a := by
  rw [← Bool.not_eq_true, Span.meets_iff]; omega

theorem Span.meets_comm (r t : Span) : r.meets t = t.meets r := by
  rw [Bool.eq_iff_iff, Span.meets_iff, Span.meets_iff]; omega

@[simp] theorem hashInput_a (src : Addr) (len : Len) : (hashInput src len).a = src.toNat := rfl
@[simp] theorem hashInput_n (src : Addr) (len : Len) : (hashInput src len).n = len.toNat := rfl
@[simp] theorem hashOutput_a (dst : Addr) : (hashOutput dst).a = dst.toNat := rfl
@[simp] theorem hashOutput_n (dst : Addr) : (hashOutput dst).n = 32 := rfl
@[simp] theorem keyInput_a (src : Addr) : (keyInput src).a = src.toNat := rfl
@[simp] theorem keyInput_n (src : Addr) : (keyInput src).n = 16 := rfl
@[simp] theorem cryptInput_a (src : Addr) (len : Len) : (cryptInput src len).a = src.toNat := rfl
@[simp] theorem cryptInput_n (src : Addr) (len : Len) : (cryptInput src len).n = len.toNat := rfl
@[simp] theorem cryptOutput_a (len : Len) (dst : Addr) : (cryptOutput len dst).a = dst.toNat := rfl
@[simp] theorem cryptOutput_n (len : Len) (dst : Addr) : (cryptOutput len dst).n = len.toNat := rfl

@[simp] theorem digestLen_eq : Config.digestLen = 32 := rfl
@[simp] theorem keyLen_eq : Config.keyLen = 16 := rfl
@[simp] theorem blockLen_eq : Config.blockLen = 16 := rfl
@[simp] theorem hashBlockLen_eq : Config.hashBlockLen = 64 := rfl

theorem messageTooLong_iff (len : Len) : messageTooLong len = true ↔ Config.msgLimit ≤ len.toNat := by
  simp [messageTooLong]

theorem badKeyLength_iff (len : Len) : badKeyLength len = true ↔ len.toNat ≠ 16 :=
  decide_eq_true_iff

theorem badInputLength_iff (len : Len) : badInputLength len = true ↔ len.toNat = 0 ∨ len.toNat % 16 ≠ 0 :=
  decide_eq_true_iff

theorem badOverlap_iff (src : Addr) (len : Len) (dst : Addr) :
    badOverlap src len dst = true ↔
      dst ≠ src ∧ 0 < len.toNat ∧ src.toNat < dst.toNat + len.toNat ∧ dst.toNat < src.toNat + len.toNat := by
  simp only [badOverlap, Bool.and_eq_true, decide_eq_true_eq, Span.meets_iff, cryptInput_n, cryptOutput_n, cryptInput_a,
    cryptOutput_a]
  exact and_congr_right fun _ => ⟨fun h => ⟨h.1, h.2.2.1, h.2.2.2⟩, fun h => ⟨h.1, h.1, h.2.1, h.2.2⟩⟩

/-- What an accepted SM3.HASH satisfies (R185, R187). -/
theorem hashCheck_none {aw : Nat} {src : Addr} {len : Len} {dst : Addr} (h : hashCheck aw src len dst = none) :
    len.toNat < Config.msgLimit ∧ (len.toNat = 0 ∨ src.toNat + len.toNat ≤ 2 ^ aw) ∧ dst.toNat + 32 ≤ 2 ^ aw := by
  unfold hashCheck at h
  split at h
  · cases h
  · next h1 =>
    split at h
    · cases h
    · next h2 =>
      rw [messageTooLong_iff] at h1
      rw [Bool.not_eq_true, Bool.not_eq_false', Bool.and_eq_true, Span.inBuf_iff, Span.inBuf_iff] at h2
      simp only [hashInput_n, hashInput_a, hashOutput_n, hashOutput_a] at h2
      exact ⟨by omega, h2.1, by omega⟩

/-- What passes the checks of SM3.HASH (R185, R187). -/
theorem hashCheck_of {aw : Nat} {src : Addr} {len : Len} {dst : Addr} (h1 : len.toNat < Config.msgLimit)
    (h2 : len.toNat = 0 ∨ src.toNat + len.toNat ≤ 2 ^ aw) (h3 : dst.toNat + 32 ≤ 2 ^ aw) :
    hashCheck aw src len dst = none := by
  unfold hashCheck
  rw [if_neg, if_neg]
  · rw [Bool.not_eq_true, Bool.not_eq_false', Bool.and_eq_true, Span.inBuf_iff, Span.inBuf_iff]
    simp only [hashInput_n, hashInput_a, hashOutput_n, hashOutput_a]
    exact ⟨h2, .inr h3⟩
  · rw [messageTooLong_iff]; omega

/-- What an accepted SM4.SETKEY satisfies (R182, R187). -/
theorem keyCheck_none {aw : Nat} {src : Addr} {len : Len} (h : keyCheck aw src len = none) :
    len.toNat = 16 ∧ src.toNat + 16 ≤ 2 ^ aw := by
  unfold keyCheck at h
  split at h
  · cases h
  · next h1 =>
    split at h
    · cases h
    · next h2 =>
      rw [badKeyLength_iff] at h1
      rw [Bool.not_eq_true, Bool.not_eq_false', Span.inBuf_iff] at h2
      simp only [keyInput_n, keyInput_a] at h2
      omega

/-- What passes the checks of SM4.SETKEY (R182, R187). -/
theorem keyCheck_of {aw : Nat} {src : Addr} {len : Len} (h1 : len.toNat = 16) (h2 : src.toNat + 16 ≤ 2 ^ aw) :
    keyCheck aw src len = none := by
  unfold keyCheck
  rw [if_neg, if_neg]
  · rw [Bool.not_eq_true, Bool.not_eq_false', Span.inBuf_iff]
    simp only [keyInput_n, keyInput_a]
    omega
  · rw [badKeyLength_iff]; omega

/-- What an accepted SM4.ENC or SM4.DEC satisfies (R183, R184, R187, R188). -/
theorem cryptCheck_none {aw : Nat} {keyed : Bool} {src : Addr} {len : Len} {dst : Addr}
    (h : cryptCheck aw keyed src len dst = none) :
    keyed = true ∧ len.toNat ≠ 0 ∧ len.toNat % 16 = 0 ∧ src.toNat + len.toNat ≤ 2 ^ aw ∧
      dst.toNat + len.toNat ≤ 2 ^ aw ∧
      (dst = src ∨ src.toNat + len.toNat ≤ dst.toNat ∨ dst.toNat + len.toNat ≤ src.toNat) := by
  unfold cryptCheck at h
  split at h
  · cases h
  · next h0 =>
    split at h
    · cases h
    · next h1 =>
      split at h
      · cases h
      · next h2 =>
        split at h
        · cases h
        · next h3 =>
          rw [badInputLength_iff] at h1
          rw [Bool.not_eq_true, Bool.not_eq_false', Bool.and_eq_true, Span.inBuf_iff, Span.inBuf_iff] at h2
          rw [badOverlap_iff] at h3
          simp only [cryptInput_n, cryptInput_a, cryptOutput_n, cryptOutput_a] at h2
          refine ⟨by simpa using h0, by omega, by omega, by omega, by omega, ?_⟩
          by_cases hd : dst = src
          · exact .inl hd
          · right
            by_contra hc
            exact h3 ⟨hd, by omega, by omega, by omega⟩

/-- What passes the checks of SM4.ENC and SM4.DEC (R183, R184, R187, R188). -/
theorem cryptCheck_of {aw : Nat} {src : Addr} {len : Len} {dst : Addr} (h1 : len.toNat ≠ 0) (h2 : len.toNat % 16 = 0)
    (h3 : src.toNat + len.toNat ≤ 2 ^ aw) (h4 : dst.toNat + len.toNat ≤ 2 ^ aw)
    (h5 : dst = src ∨ src.toNat + len.toNat ≤ dst.toNat ∨ dst.toNat + len.toNat ≤ src.toNat) :
    cryptCheck aw true src len dst = none := by
  unfold cryptCheck
  rw [if_neg (by simp), if_neg, if_neg, if_neg]
  · rw [badOverlap_iff]
    rintro ⟨g1, g2, g3, g4⟩
    rcases h5 with h5 | h5 | h5
    · exact g1 h5
    · omega
    · omega
  · rw [Bool.not_eq_true, Bool.not_eq_false', Bool.and_eq_true, Span.inBuf_iff, Span.inBuf_iff]
    simp only [cryptInput_n, cryptInput_a, cryptOutput_n, cryptOutput_a]
    exact ⟨.inr h3, .inr h4⟩
  · rw [badInputLength_iff]; omega

/-- Clashing is symmetric. -/
theorem clash_comm (x y : Option (Span × Span)) : clash x y = clash y x := by
  rcases x with _ | ⟨i, o⟩ <;> rcases y with _ | ⟨i', o'⟩ <;> try rfl
  simp only [clash]
  rw [Span.meets_comm o i', Span.meets_comm o' i, Span.meets_comm o o']
  cases i'.meets o <;> cases i.meets o' <;> simp

@[simp] theorem clash_none_left (y : Option (Span × Span)) : clash none y = false := rfl

@[simp] theorem clash_none_right (x : Option (Span × Span)) : clash x none = false := by cases x <;> rfl

/-- What it is that two commands in flight do not clash. -/
theorem clash_some (i o i' o' : Span) :
    clash (some (i, o)) (some (i', o')) = false ↔
      o.meets i' = false ∧ o'.meets i = false ∧ o.meets o' = false := by
  simp [clash, and_assoc]

end Sys2Proof.Machine
end

