-- ==== Sys2Proof/Laws/State.lean ====
section
/-! SUPPORT. One lemma per field of State for every named update: what the update gives the field, or that it keeps it. -/

namespace Sys2Proof.Machine

@[simp] theorem withHost_aw (s : State) (rest : List HostAction) : (s.withHost rest).aw = s.aw := by
  simp only [State.withHost]
@[simp] theorem withHost_he (s : State) (rest : List HostAction) : (s.withHost rest).he = s.he := by
  simp only [State.withHost]
@[simp] theorem withHost_ce (s : State) (rest : List HostAction) : (s.withHost rest).ce = s.ce := by
  simp only [State.withHost]
@[simp] theorem withHost_buf (s : State) (rest : List HostAction) : (s.withHost rest).buf = s.buf := by
  simp only [State.withHost]
@[simp] theorem withHost_host (s : State) (rest : List HostAction) : (s.withHost rest).host = rest := by
  simp only [State.withHost]
@[simp] theorem withHost_lastByte (s : State) (rest : List HostAction) : (s.withHost rest).lastByte = s.lastByte := by
  simp only [State.withHost]
@[simp] theorem withHost_lastStatus (s : State) (rest : List HostAction) : (s.withHost rest).lastStatus = s.lastStatus := by
  simp only [State.withHost]
@[simp] theorem withHost_heInFlight (s : State) (rest : List HostAction) : (s.withHost rest).heInFlight = s.heInFlight := by
  simp only [State.withHost]
@[simp] theorem withHost_ceInFlight (s : State) (rest : List HostAction) : (s.withHost rest).ceInFlight = s.ceInFlight := by
  simp only [State.withHost]
@[simp] theorem withHost_heDisturbed (s : State) (rest : List HostAction) : (s.withHost rest).heDisturbed = s.heDisturbed := by
  simp only [State.withHost]
@[simp] theorem withHost_ceDisturbed (s : State) (rest : List HostAction) : (s.withHost rest).ceDisturbed = s.ceDisturbed := by
  simp only [State.withHost]
@[simp] theorem withHost_unseen (s : State) (rest : List HostAction) : (s.withHost rest).unseen = s.unseen := by
  simp only [State.withHost]
@[simp] theorem withHost_draws (s : State) (rest : List HostAction) : (s.withHost rest).draws = s.draws := by
  simp only [State.withHost]

@[simp] theorem raise_he_aw (e : CmdError) (s : State) : (raise .he e s).aw = s.aw := by
  simp only [raise]
@[simp] theorem raise_he_he (e : CmdError) (s : State) : (raise .he e s).he = { s.he with status := s.he.status.clearForIssue.raise e } := by
  simp only [raise]
@[simp] theorem raise_he_ce (e : CmdError) (s : State) : (raise .he e s).ce = s.ce := by
  simp only [raise]
@[simp] theorem raise_he_buf (e : CmdError) (s : State) : (raise .he e s).buf = s.buf := by
  simp only [raise]
@[simp] theorem raise_he_host (e : CmdError) (s : State) : (raise .he e s).host = s.host := by
  simp only [raise]
@[simp] theorem raise_he_lastByte (e : CmdError) (s : State) : (raise .he e s).lastByte = s.lastByte := by
  simp only [raise]
@[simp] theorem raise_he_lastStatus (e : CmdError) (s : State) : (raise .he e s).lastStatus = s.lastStatus := by
  simp only [raise]
@[simp] theorem raise_he_heInFlight (e : CmdError) (s : State) : (raise .he e s).heInFlight = s.heInFlight := by
  simp only [raise]
@[simp] theorem raise_he_ceInFlight (e : CmdError) (s : State) : (raise .he e s).ceInFlight = s.ceInFlight := by
  simp only [raise]
@[simp] theorem raise_he_heDisturbed (e : CmdError) (s : State) : (raise .he e s).heDisturbed = s.heDisturbed := by
  simp only [raise]
@[simp] theorem raise_he_ceDisturbed (e : CmdError) (s : State) : (raise .he e s).ceDisturbed = s.ceDisturbed := by
  simp only [raise]
@[simp] theorem raise_he_unseen (e : CmdError) (s : State) : (raise .he e s).unseen = s.unseen := by
  simp only [raise]
@[simp] theorem raise_he_draws (e : CmdError) (s : State) : (raise .he e s).draws = s.draws := by
  simp only [raise]

@[simp] theorem raise_ce_aw (e : CmdError) (s : State) : (raise .ce e s).aw = s.aw := by
  simp only [raise]
@[simp] theorem raise_ce_he (e : CmdError) (s : State) : (raise .ce e s).he = s.he := by
  simp only [raise]
@[simp] theorem raise_ce_ce (e : CmdError) (s : State) : (raise .ce e s).ce = { s.ce with status := s.ce.status.clearForIssue.raise e } := by
  simp only [raise]
@[simp] theorem raise_ce_buf (e : CmdError) (s : State) : (raise .ce e s).buf = s.buf := by
  simp only [raise]
@[simp] theorem raise_ce_host (e : CmdError) (s : State) : (raise .ce e s).host = s.host := by
  simp only [raise]
@[simp] theorem raise_ce_lastByte (e : CmdError) (s : State) : (raise .ce e s).lastByte = s.lastByte := by
  simp only [raise]
@[simp] theorem raise_ce_lastStatus (e : CmdError) (s : State) : (raise .ce e s).lastStatus = s.lastStatus := by
  simp only [raise]
@[simp] theorem raise_ce_heInFlight (e : CmdError) (s : State) : (raise .ce e s).heInFlight = s.heInFlight := by
  simp only [raise]
@[simp] theorem raise_ce_ceInFlight (e : CmdError) (s : State) : (raise .ce e s).ceInFlight = s.ceInFlight := by
  simp only [raise]
@[simp] theorem raise_ce_heDisturbed (e : CmdError) (s : State) : (raise .ce e s).heDisturbed = s.heDisturbed := by
  simp only [raise]
@[simp] theorem raise_ce_ceDisturbed (e : CmdError) (s : State) : (raise .ce e s).ceDisturbed = s.ceDisturbed := by
  simp only [raise]
@[simp] theorem raise_ce_unseen (e : CmdError) (s : State) : (raise .ce e s).unseen = s.unseen := by
  simp only [raise]
@[simp] theorem raise_ce_draws (e : CmdError) (s : State) : (raise .ce e s).draws = s.draws := by
  simp only [raise]

@[simp] theorem readStatus_he_aw (s : State) : (hostReadStatus .he s).aw = s.aw := by
  simp only [hostReadStatus]
@[simp] theorem readStatus_he_he (s : State) : (hostReadStatus .he s).he = s.he := by
  simp only [hostReadStatus]
@[simp] theorem readStatus_he_ce (s : State) : (hostReadStatus .he s).ce = s.ce := by
  simp only [hostReadStatus]
@[simp] theorem readStatus_he_buf (s : State) : (hostReadStatus .he s).buf = s.buf := by
  simp only [hostReadStatus]
@[simp] theorem readStatus_he_host (s : State) : (hostReadStatus .he s).host = s.host := by
  simp only [hostReadStatus]
@[simp] theorem readStatus_he_lastByte (s : State) : (hostReadStatus .he s).lastByte = s.lastByte := by
  simp only [hostReadStatus]
@[simp] theorem readStatus_he_lastStatus (s : State) : (hostReadStatus .he s).lastStatus = heStatus s := by
  simp only [hostReadStatus]
@[simp] theorem readStatus_he_heInFlight (s : State) : (hostReadStatus .he s).heInFlight = (s.heInFlight && !s.he.status.done) := by
  simp only [hostReadStatus]
@[simp] theorem readStatus_he_ceInFlight (s : State) : (hostReadStatus .he s).ceInFlight = s.ceInFlight := by
  simp only [hostReadStatus]
@[simp] theorem readStatus_he_heDisturbed (s : State) : (hostReadStatus .he s).heDisturbed = s.heDisturbed := by
  simp only [hostReadStatus]
@[simp] theorem readStatus_he_ceDisturbed (s : State) : (hostReadStatus .he s).ceDisturbed = s.ceDisturbed := by
  simp only [hostReadStatus]
@[simp] theorem readStatus_he_unseen (s : State) : (hostReadStatus .he s).unseen = (if s.heInFlight && s.he.status.done then settle (hashOutput s.he.hdst) s.unseen else s.unseen) := by
  simp only [hostReadStatus]
@[simp] theorem readStatus_he_draws (s : State) : (hostReadStatus .he s).draws = s.draws := by
  simp only [hostReadStatus]

@[simp] theorem readStatus_ce_aw (s : State) : (hostReadStatus .ce s).aw = s.aw := by
  simp only [hostReadStatus]
@[simp] theorem readStatus_ce_he (s : State) : (hostReadStatus .ce s).he = s.he := by
  simp only [hostReadStatus]
@[simp] theorem readStatus_ce_ce (s : State) : (hostReadStatus .ce s).ce = s.ce := by
  simp only [hostReadStatus]
@[simp] theorem readStatus_ce_buf (s : State) : (hostReadStatus .ce s).buf = s.buf := by
  simp only [hostReadStatus]
@[simp] theorem readStatus_ce_host (s : State) : (hostReadStatus .ce s).host = s.host := by
  simp only [hostReadStatus]
@[simp] theorem readStatus_ce_lastByte (s : State) : (hostReadStatus .ce s).lastByte = s.lastByte := by
  simp only [hostReadStatus]
@[simp] theorem readStatus_ce_lastStatus (s : State) : (hostReadStatus .ce s).lastStatus = ceStatus s := by
  simp only [hostReadStatus]
@[simp] theorem readStatus_ce_heInFlight (s : State) : (hostReadStatus .ce s).heInFlight = s.heInFlight := by
  simp only [hostReadStatus]
@[simp] theorem readStatus_ce_ceInFlight (s : State) : (hostReadStatus .ce s).ceInFlight = (s.ceInFlight && !s.ce.status.done) := by
  simp only [hostReadStatus]
@[simp] theorem readStatus_ce_heDisturbed (s : State) : (hostReadStatus .ce s).heDisturbed = s.heDisturbed := by
  simp only [hostReadStatus]
@[simp] theorem readStatus_ce_ceDisturbed (s : State) : (hostReadStatus .ce s).ceDisturbed = s.ceDisturbed := by
  simp only [hostReadStatus]
@[simp] theorem readStatus_ce_unseen (s : State) : (hostReadStatus .ce s).unseen = (if s.ceInFlight && s.ce.status.done then settle (cipherOutput s) s.unseen else s.unseen) := by
  simp only [hostReadStatus]
@[simp] theorem readStatus_ce_draws (s : State) : (hostReadStatus .ce s).draws = s.draws := by
  simp only [hostReadStatus]

@[simp] theorem spoilHash_aw (s : State) : (spoilHash s).aw = s.aw := by
  simp only [spoilHash]
@[simp] theorem spoilHash_he (s : State) : (spoilHash s).he = { s.he with v := freeWords8 s.draws } := by
  simp only [spoilHash]
@[simp] theorem spoilHash_ce (s : State) : (spoilHash s).ce = s.ce := by
  simp only [spoilHash]
@[simp] theorem spoilHash_buf (s : State) : (spoilHash s).buf = memWrite s.buf s.he.hdst.toNat (freeBytes s.draws Config.digestLen) := by
  simp only [spoilHash]
@[simp] theorem spoilHash_host (s : State) : (spoilHash s).host = s.host := by
  simp only [spoilHash]
@[simp] theorem spoilHash_lastByte (s : State) : (spoilHash s).lastByte = s.lastByte := by
  simp only [spoilHash]
@[simp] theorem spoilHash_lastStatus (s : State) : (spoilHash s).lastStatus = s.lastStatus := by
  simp only [spoilHash]
@[simp] theorem spoilHash_heInFlight (s : State) : (spoilHash s).heInFlight = s.heInFlight := by
  simp only [spoilHash]
@[simp] theorem spoilHash_ceInFlight (s : State) : (spoilHash s).ceInFlight = s.ceInFlight := by
  simp only [spoilHash]
@[simp] theorem spoilHash_heDisturbed (s : State) : (spoilHash s).heDisturbed = s.heDisturbed := by
  simp only [spoilHash]
@[simp] theorem spoilHash_ceDisturbed (s : State) : (spoilHash s).ceDisturbed = s.ceDisturbed := by
  simp only [spoilHash]
@[simp] theorem spoilHash_unseen (s : State) : (spoilHash s).unseen = s.unseen := by
  simp only [spoilHash]
@[simp] theorem spoilHash_draws (s : State) : (spoilHash s).draws = s.draws + Config.digestLen := by
  simp only [spoilHash]

@[simp] theorem spoilSpan_aw (s : State) (o : Span) : (spoilSpan s o).aw = s.aw := by
  simp only [spoilSpan]
@[simp] theorem spoilSpan_he (s : State) (o : Span) : (spoilSpan s o).he = s.he := by
  simp only [spoilSpan]
@[simp] theorem spoilSpan_ce (s : State) (o : Span) : (spoilSpan s o).ce = s.ce := by
  simp only [spoilSpan]
@[simp] theorem spoilSpan_buf (s : State) (o : Span) : (spoilSpan s o).buf = memWrite s.buf o.a (freeBytes s.draws o.n) := by
  simp only [spoilSpan]
@[simp] theorem spoilSpan_host (s : State) (o : Span) : (spoilSpan s o).host = s.host := by
  simp only [spoilSpan]
@[simp] theorem spoilSpan_lastByte (s : State) (o : Span) : (spoilSpan s o).lastByte = s.lastByte := by
  simp only [spoilSpan]
@[simp] theorem spoilSpan_lastStatus (s : State) (o : Span) : (spoilSpan s o).lastStatus = s.lastStatus := by
  simp only [spoilSpan]
@[simp] theorem spoilSpan_heInFlight (s : State) (o : Span) : (spoilSpan s o).heInFlight = s.heInFlight := by
  simp only [spoilSpan]
@[simp] theorem spoilSpan_ceInFlight (s : State) (o : Span) : (spoilSpan s o).ceInFlight = s.ceInFlight := by
  simp only [spoilSpan]
@[simp] theorem spoilSpan_heDisturbed (s : State) (o : Span) : (spoilSpan s o).heDisturbed = s.heDisturbed := by
  simp only [spoilSpan]
@[simp] theorem spoilSpan_ceDisturbed (s : State) (o : Span) : (spoilSpan s o).ceDisturbed = s.ceDisturbed := by
  simp only [spoilSpan]
@[simp] theorem spoilSpan_unseen (s : State) (o : Span) : (spoilSpan s o).unseen = s.unseen := by
  simp only [spoilSpan]
@[simp] theorem spoilSpan_draws (s : State) (o : Span) : (spoilSpan s o).draws = s.draws + o.n := by
  simp only [spoilSpan]

@[simp] theorem spoilKey_aw (s : State) : (spoilKey s).aw = s.aw := by
  simp only [spoilKey]
@[simp] theorem spoilKey_he (s : State) : (spoilKey s).he = s.he := by
  simp only [spoilKey]
@[simp] theorem spoilKey_ce (s : State) : (spoilKey s).ce = { s.ce with rk := fileOf 32 (freeWords s.draws 32) } := by
  simp only [spoilKey]
@[simp] theorem spoilKey_buf (s : State) : (spoilKey s).buf = s.buf := by
  simp only [spoilKey]
@[simp] theorem spoilKey_host (s : State) : (spoilKey s).host = s.host := by
  simp only [spoilKey]
@[simp] theorem spoilKey_lastByte (s : State) : (spoilKey s).lastByte = s.lastByte := by
  simp only [spoilKey]
@[simp] theorem spoilKey_lastStatus (s : State) : (spoilKey s).lastStatus = s.lastStatus := by
  simp only [spoilKey]
@[simp] theorem spoilKey_heInFlight (s : State) : (spoilKey s).heInFlight = s.heInFlight := by
  simp only [spoilKey]
@[simp] theorem spoilKey_ceInFlight (s : State) : (spoilKey s).ceInFlight = s.ceInFlight := by
  simp only [spoilKey]
@[simp] theorem spoilKey_heDisturbed (s : State) : (spoilKey s).heDisturbed = s.heDisturbed := by
  simp only [spoilKey]
@[simp] theorem spoilKey_ceDisturbed (s : State) : (spoilKey s).ceDisturbed = s.ceDisturbed := by
  simp only [spoilKey]
@[simp] theorem spoilKey_unseen (s : State) : (spoilKey s).unseen = s.unseen := by
  simp only [spoilKey]
@[simp] theorem spoilKey_draws (s : State) : (spoilKey s).draws = s.draws + 32 := by
  simp only [spoilKey]

@[simp] theorem supersede_he_aw (s : State) : (supersede .he s).aw = s.aw := by
  unfold supersede; by_cases h : s.heInFlight = true <;> simp [h]
@[simp] theorem supersede_he_he (s : State) : (supersede .he s).he = s.he := by
  unfold supersede; by_cases h : s.heInFlight = true <;> simp [h]
@[simp] theorem supersede_he_ce (s : State) : (supersede .he s).ce = s.ce := by
  unfold supersede; by_cases h : s.heInFlight = true <;> simp [h]
@[simp] theorem supersede_he_buf (s : State) : (supersede .he s).buf = s.buf := by
  unfold supersede; by_cases h : s.heInFlight = true <;> simp [h]
@[simp] theorem supersede_he_host (s : State) : (supersede .he s).host = s.host := by
  unfold supersede; by_cases h : s.heInFlight = true <;> simp [h]
@[simp] theorem supersede_he_lastByte (s : State) : (supersede .he s).lastByte = s.lastByte := by
  unfold supersede; by_cases h : s.heInFlight = true <;> simp [h]
@[simp] theorem supersede_he_lastStatus (s : State) : (supersede .he s).lastStatus = s.lastStatus := by
  unfold supersede; by_cases h : s.heInFlight = true <;> simp [h]
@[simp] theorem supersede_he_heInFlight (s : State) : (supersede .he s).heInFlight = false := by
  unfold supersede; by_cases h : s.heInFlight = true <;> simp [h]
@[simp] theorem supersede_he_ceInFlight (s : State) : (supersede .he s).ceInFlight = s.ceInFlight := by
  unfold supersede; by_cases h : s.heInFlight = true <;> simp [h]
@[simp] theorem supersede_he_heDisturbed (s : State) : (supersede .he s).heDisturbed = s.heDisturbed := by
  unfold supersede; by_cases h : s.heInFlight = true <;> simp [h]
@[simp] theorem supersede_he_ceDisturbed (s : State) : (supersede .he s).ceDisturbed = s.ceDisturbed := by
  unfold supersede; by_cases h : s.heInFlight = true <;> simp [h]
@[simp] theorem supersede_he_unseen (s : State) : (supersede .he s).unseen = (if s.heInFlight then hashRecord s :: s.unseen else s.unseen) := by
  unfold supersede; by_cases h : s.heInFlight = true <;> simp [h]
@[simp] theorem supersede_he_draws (s : State) : (supersede .he s).draws = s.draws := by
  unfold supersede; by_cases h : s.heInFlight = true <;> simp [h]

@[simp] theorem supersede_ce_aw (s : State) : (supersede .ce s).aw = s.aw := by
  unfold supersede; by_cases h : s.ceInFlight = true <;> simp [h]
@[simp] theorem supersede_ce_he (s : State) : (supersede .ce s).he = s.he := by
  unfold supersede; by_cases h : s.ceInFlight = true <;> simp [h]
@[simp] theorem supersede_ce_ce (s : State) : (supersede .ce s).ce = s.ce := by
  unfold supersede; by_cases h : s.ceInFlight = true <;> simp [h]
@[simp] theorem supersede_ce_buf (s : State) : (supersede .ce s).buf = s.buf := by
  unfold supersede; by_cases h : s.ceInFlight = true <;> simp [h]
@[simp] theorem supersede_ce_host (s : State) : (supersede .ce s).host = s.host := by
  unfold supersede; by_cases h : s.ceInFlight = true <;> simp [h]
@[simp] theorem supersede_ce_lastByte (s : State) : (supersede .ce s).lastByte = s.lastByte := by
  unfold supersede; by_cases h : s.ceInFlight = true <;> simp [h]
@[simp] theorem supersede_ce_lastStatus (s : State) : (supersede .ce s).lastStatus = s.lastStatus := by
  unfold supersede; by_cases h : s.ceInFlight = true <;> simp [h]
@[simp] theorem supersede_ce_heInFlight (s : State) : (supersede .ce s).heInFlight = s.heInFlight := by
  unfold supersede; by_cases h : s.ceInFlight = true <;> simp [h]
@[simp] theorem supersede_ce_ceInFlight (s : State) : (supersede .ce s).ceInFlight = false := by
  unfold supersede; by_cases h : s.ceInFlight = true <;> simp [h]
@[simp] theorem supersede_ce_heDisturbed (s : State) : (supersede .ce s).heDisturbed = s.heDisturbed := by
  unfold supersede; by_cases h : s.ceInFlight = true <;> simp [h]
@[simp] theorem supersede_ce_ceDisturbed (s : State) : (supersede .ce s).ceDisturbed = s.ceDisturbed := by
  unfold supersede; by_cases h : s.ceInFlight = true <;> simp [h]
@[simp] theorem supersede_ce_unseen (s : State) : (supersede .ce s).unseen = (if s.ceInFlight then cipherRecord s :: s.unseen else s.unseen) := by
  unfold supersede; by_cases h : s.ceInFlight = true <;> simp [h]
@[simp] theorem supersede_ce_draws (s : State) : (supersede .ce s).draws = s.draws := by
  unfold supersede; by_cases h : s.ceInFlight = true <;> simp [h]

@[simp] theorem hashWork_aw (s : State) : (hashWork s).aw = s.aw := by
  simp only [hashWork]
@[simp] theorem hashWork_ce (s : State) : (hashWork s).ce = s.ce := by
  simp only [hashWork]
@[simp] theorem hashWork_buf (s : State) : (hashWork s).buf = s.buf := by
  simp only [hashWork]
@[simp] theorem hashWork_host (s : State) : (hashWork s).host = s.host := by
  simp only [hashWork]
@[simp] theorem hashWork_lastByte (s : State) : (hashWork s).lastByte = s.lastByte := by
  simp only [hashWork]
@[simp] theorem hashWork_lastStatus (s : State) : (hashWork s).lastStatus = s.lastStatus := by
  simp only [hashWork]
@[simp] theorem hashWork_heInFlight (s : State) : (hashWork s).heInFlight = s.heInFlight := by
  simp only [hashWork]
@[simp] theorem hashWork_ceInFlight (s : State) : (hashWork s).ceInFlight = s.ceInFlight := by
  simp only [hashWork]
@[simp] theorem hashWork_heDisturbed (s : State) : (hashWork s).heDisturbed = s.heDisturbed := by
  simp only [hashWork]
@[simp] theorem hashWork_ceDisturbed (s : State) : (hashWork s).ceDisturbed = s.ceDisturbed := by
  simp only [hashWork]
@[simp] theorem hashWork_unseen (s : State) : (hashWork s).unseen = s.unseen := by
  simp only [hashWork]
@[simp] theorem hashWork_draws (s : State) : (hashWork s).draws = s.draws := by
  simp only [hashWork]

@[simp] theorem keyWork_aw (s : State) : (keyWork s).aw = s.aw := by
  simp only [keyWork]
@[simp] theorem keyWork_he (s : State) : (keyWork s).he = s.he := by
  simp only [keyWork]
@[simp] theorem keyWork_ce (s : State) : (keyWork s).ce = { s.ce with rk := keyExp (memRead s.buf s.ce.csrc.toNat Config.keyLen) } := by
  simp only [keyWork]
@[simp] theorem keyWork_buf (s : State) : (keyWork s).buf = s.buf := by
  simp only [keyWork]
@[simp] theorem keyWork_host (s : State) : (keyWork s).host = s.host := by
  simp only [keyWork]
@[simp] theorem keyWork_lastByte (s : State) : (keyWork s).lastByte = s.lastByte := by
  simp only [keyWork]
@[simp] theorem keyWork_lastStatus (s : State) : (keyWork s).lastStatus = s.lastStatus := by
  simp only [keyWork]
@[simp] theorem keyWork_heInFlight (s : State) : (keyWork s).heInFlight = s.heInFlight := by
  simp only [keyWork]
@[simp] theorem keyWork_ceInFlight (s : State) : (keyWork s).ceInFlight = s.ceInFlight := by
  simp only [keyWork]
@[simp] theorem keyWork_heDisturbed (s : State) : (keyWork s).heDisturbed = s.heDisturbed := by
  simp only [keyWork]
@[simp] theorem keyWork_ceDisturbed (s : State) : (keyWork s).ceDisturbed = s.ceDisturbed := by
  simp only [keyWork]
@[simp] theorem keyWork_unseen (s : State) : (keyWork s).unseen = s.unseen := by
  simp only [keyWork]
@[simp] theorem keyWork_draws (s : State) : (keyWork s).draws = s.draws := by
  simp only [keyWork]

@[simp] theorem cryptWork_aw (dir : Direction) (s : State) : (cryptWork dir s).aw = s.aw := by
  simp only [cryptWork]
@[simp] theorem cryptWork_he (dir : Direction) (s : State) : (cryptWork dir s).he = s.he := by
  simp only [cryptWork]
@[simp] theorem cryptWork_ce (dir : Direction) (s : State) : (cryptWork dir s).ce = s.ce := by
  simp only [cryptWork]
@[simp] theorem cryptWork_buf (dir : Direction) (s : State) : (cryptWork dir s).buf = memWrite s.buf s.ce.cdst.toNat (ecb dir s.ce.rk (memRead s.buf s.ce.csrc.toNat s.ce.clen.toNat)) := by
  simp only [cryptWork]
@[simp] theorem cryptWork_host (dir : Direction) (s : State) : (cryptWork dir s).host = s.host := by
  simp only [cryptWork]
@[simp] theorem cryptWork_lastByte (dir : Direction) (s : State) : (cryptWork dir s).lastByte = s.lastByte := by
  simp only [cryptWork]
@[simp] theorem cryptWork_lastStatus (dir : Direction) (s : State) : (cryptWork dir s).lastStatus = s.lastStatus := by
  simp only [cryptWork]
@[simp] theorem cryptWork_heInFlight (dir : Direction) (s : State) : (cryptWork dir s).heInFlight = s.heInFlight := by
  simp only [cryptWork]
@[simp] theorem cryptWork_ceInFlight (dir : Direction) (s : State) : (cryptWork dir s).ceInFlight = s.ceInFlight := by
  simp only [cryptWork]
@[simp] theorem cryptWork_heDisturbed (dir : Direction) (s : State) : (cryptWork dir s).heDisturbed = s.heDisturbed := by
  simp only [cryptWork]
@[simp] theorem cryptWork_ceDisturbed (dir : Direction) (s : State) : (cryptWork dir s).ceDisturbed = s.ceDisturbed := by
  simp only [cryptWork]
@[simp] theorem cryptWork_unseen (dir : Direction) (s : State) : (cryptWork dir s).unseen = s.unseen := by
  simp only [cryptWork]
@[simp] theorem cryptWork_draws (dir : Direction) (s : State) : (cryptWork dir s).draws = s.draws := by
  simp only [cryptWork]

@[simp] theorem setCSeq_aw (q : CSeq) (s : State) : (setCSeq q s).aw = s.aw := by
  simp only [setCSeq]
@[simp] theorem setCSeq_he (q : CSeq) (s : State) : (setCSeq q s).he = s.he := by
  simp only [setCSeq]
@[simp] theorem setCSeq_ce (q : CSeq) (s : State) : (setCSeq q s).ce = { s.ce with seq := q } := by
  simp only [setCSeq]
@[simp] theorem setCSeq_buf (q : CSeq) (s : State) : (setCSeq q s).buf = s.buf := by
  simp only [setCSeq]
@[simp] theorem setCSeq_host (q : CSeq) (s : State) : (setCSeq q s).host = s.host := by
  simp only [setCSeq]
@[simp] theorem setCSeq_lastByte (q : CSeq) (s : State) : (setCSeq q s).lastByte = s.lastByte := by
  simp only [setCSeq]
@[simp] theorem setCSeq_lastStatus (q : CSeq) (s : State) : (setCSeq q s).lastStatus = s.lastStatus := by
  simp only [setCSeq]
@[simp] theorem setCSeq_heInFlight (q : CSeq) (s : State) : (setCSeq q s).heInFlight = s.heInFlight := by
  simp only [setCSeq]
@[simp] theorem setCSeq_ceInFlight (q : CSeq) (s : State) : (setCSeq q s).ceInFlight = s.ceInFlight := by
  simp only [setCSeq]
@[simp] theorem setCSeq_heDisturbed (q : CSeq) (s : State) : (setCSeq q s).heDisturbed = s.heDisturbed := by
  simp only [setCSeq]
@[simp] theorem setCSeq_ceDisturbed (q : CSeq) (s : State) : (setCSeq q s).ceDisturbed = s.ceDisturbed := by
  simp only [setCSeq]
@[simp] theorem setCSeq_unseen (q : CSeq) (s : State) : (setCSeq q s).unseen = s.unseen := by
  simp only [setCSeq]
@[simp] theorem setCSeq_draws (q : CSeq) (s : State) : (setCSeq q s).draws = s.draws := by
  simp only [setCSeq]

@[simp] theorem keyRoundStep_aw (r : Fin 32) (s : State) : (keyRoundStep r s).aw = s.aw := by
  simp only [keyRoundStep]
@[simp] theorem keyRoundStep_he (r : Fin 32) (s : State) : (keyRoundStep r s).he = s.he := by
  simp only [keyRoundStep]
@[simp] theorem keyRoundStep_ce (r : Fin 32) (s : State) : (keyRoundStep r s).ce = { s.ce with rk := s.ce.rk.set r.val (keyWord r.val s.ce.k), k := s.ce.k.shift (keyWord r.val s.ce.k) } := by
  simp only [keyRoundStep]
@[simp] theorem keyRoundStep_buf (r : Fin 32) (s : State) : (keyRoundStep r s).buf = s.buf := by
  simp only [keyRoundStep]
@[simp] theorem keyRoundStep_host (r : Fin 32) (s : State) : (keyRoundStep r s).host = s.host := by
  simp only [keyRoundStep]
@[simp] theorem keyRoundStep_lastByte (r : Fin 32) (s : State) : (keyRoundStep r s).lastByte = s.lastByte := by
  simp only [keyRoundStep]
@[simp] theorem keyRoundStep_lastStatus (r : Fin 32) (s : State) : (keyRoundStep r s).lastStatus = s.lastStatus := by
  simp only [keyRoundStep]
@[simp] theorem keyRoundStep_heInFlight (r : Fin 32) (s : State) : (keyRoundStep r s).heInFlight = s.heInFlight := by
  simp only [keyRoundStep]
@[simp] theorem keyRoundStep_ceInFlight (r : Fin 32) (s : State) : (keyRoundStep r s).ceInFlight = s.ceInFlight := by
  simp only [keyRoundStep]
@[simp] theorem keyRoundStep_heDisturbed (r : Fin 32) (s : State) : (keyRoundStep r s).heDisturbed = s.heDisturbed := by
  simp only [keyRoundStep]
@[simp] theorem keyRoundStep_ceDisturbed (r : Fin 32) (s : State) : (keyRoundStep r s).ceDisturbed = s.ceDisturbed := by
  simp only [keyRoundStep]
@[simp] theorem keyRoundStep_unseen (r : Fin 32) (s : State) : (keyRoundStep r s).unseen = s.unseen := by
  simp only [keyRoundStep]
@[simp] theorem keyRoundStep_draws (r : Fin 32) (s : State) : (keyRoundStep r s).draws = s.draws := by
  simp only [keyRoundStep]

@[simp] theorem blockStoreStep_aw (b : Nat) (s : State) : (blockStoreStep b s).aw = s.aw := by
  simp only [blockStoreStep]
@[simp] theorem blockStoreStep_he (b : Nat) (s : State) : (blockStoreStep b s).he = s.he := by
  simp only [blockStoreStep]
@[simp] theorem blockStoreStep_ce (b : Nat) (s : State) : (blockStoreStep b s).ce = s.ce := by
  simp only [blockStoreStep]
@[simp] theorem blockStoreStep_buf (b : Nat) (s : State) : (blockStoreStep b s).buf = memWrite s.buf (s.ce.cdst.toNat + Config.blockLen * b) (blockStore s.ce.x) := by
  simp only [blockStoreStep]
@[simp] theorem blockStoreStep_host (b : Nat) (s : State) : (blockStoreStep b s).host = s.host := by
  simp only [blockStoreStep]
@[simp] theorem blockStoreStep_lastByte (b : Nat) (s : State) : (blockStoreStep b s).lastByte = s.lastByte := by
  simp only [blockStoreStep]
@[simp] theorem blockStoreStep_lastStatus (b : Nat) (s : State) : (blockStoreStep b s).lastStatus = s.lastStatus := by
  simp only [blockStoreStep]
@[simp] theorem blockStoreStep_heInFlight (b : Nat) (s : State) : (blockStoreStep b s).heInFlight = s.heInFlight := by
  simp only [blockStoreStep]
@[simp] theorem blockStoreStep_ceInFlight (b : Nat) (s : State) : (blockStoreStep b s).ceInFlight = s.ceInFlight := by
  simp only [blockStoreStep]
@[simp] theorem blockStoreStep_heDisturbed (b : Nat) (s : State) : (blockStoreStep b s).heDisturbed = s.heDisturbed := by
  simp only [blockStoreStep]
@[simp] theorem blockStoreStep_ceDisturbed (b : Nat) (s : State) : (blockStoreStep b s).ceDisturbed = s.ceDisturbed := by
  simp only [blockStoreStep]
@[simp] theorem blockStoreStep_unseen (b : Nat) (s : State) : (blockStoreStep b s).unseen = s.unseen := by
  simp only [blockStoreStep]
@[simp] theorem blockStoreStep_draws (b : Nat) (s : State) : (blockStoreStep b s).draws = s.draws := by
  simp only [blockStoreStep]

end Sys2Proof.Machine
end

