-- ==== Sys2Proof/Laws/Ops.lean ====
section
/-! SUPPORT. What each shared operation of Sys2Proof/Machine/Ops.lean, HashUnit.lean, CipherUnit.lean and HostSide.lean can do,
said once: the control registers it keeps, the flags it sets, the lengths of what it writes, and the internal steps phase by
phase. -/

namespace Sys2Proof.Machine

/-! ### Lengths -/

@[simp] theorem freeBytes_length (n k : Nat) : (freeBytes n k).length = k := by simp [freeBytes]

@[simp] theorem freeWords_length (n k : Nat) : (freeWords n k).length = k := by simp [freeWords]

@[simp] theorem bytes32_length (w : Word) : (bytes32 w).length = 4 := rfl

@[simp] theorem digestOf_length (v : Words8) : (digestOf v).length = 32 := by simp [digestOf]

@[simp] theorem blockStore_length (x : Words4) : (blockStore x).length = 16 := by simp [blockStore]

@[simp] theorem be64_length (n : Nat) : (be64 n).length = 8 := by simp [be64]

@[simp] theorem mixBytes_length (n : Nat) (old new : List Byte) : (mixBytes n old new).length = old.length := by
  simp [mixBytes]

/-- Word j of a register file made from a list. -/
theorem fileOf_getElem (n : Nat) (l : List Word) (j : Nat) (hj : j < n) : (fileOf n l)[j] = l.getD j 0 := by
  simp [fileOf]

/-! ### Waiting -/

/-- Waiting for an engine that is not busy changes nothing. -/
theorem await_idle {p : Port} {s : State} (h : busyOf p s = false) : await p s = s := by
  cases p <;> simp_all [await, awaitHash, awaitCipher, busyOf]

/-! ### Commands whose DONE was not seen -/

/-- An issue's start changes the model's record of the engine's last command and nothing else. -/
theorem supersede_eq (p : Port) (s : State) :
    supersede p s =
      { s with
        heInFlight := (supersede p s).heInFlight, ceInFlight := (supersede p s).ceInFlight
        unseen := (supersede p s).unseen } := by
  cases p <;> simp only [supersede] <;> split <;> rfl

/-- Without a command in flight it changes nothing. -/
theorem supersede_of_none {p : Port} {s : State} (h : spansOf p s = none) : supersede p s = s := by
  cases p <;> simp only [spansOf, heSpans, ceSpans] at h <;> simp only [supersede] <;> split <;> simp_all

/-- The ranges of the commands in flight after an issue's start: the engine's own is gone, the other's stays. -/
theorem spansOf_supersede (p q : Port) (s : State) :
    spansOf q (supersede p s) = if q = p then none else spansOf q s := by
  cases p <;> cases q <;> simp [spansOf, heSpans, ceSpans, cipherInput, cipherOutput]

theorem refuse_he (e : CmdError) (s : State) : refuse .he e s = raise .he e (supersede .he s) := rfl

theorem refuse_ce (e : CmdError) (s : State) : refuse .ce e s = raise .ce e (supersede .ce s) := rfl

/-- A refused issue changes the status of its engine, and the model's record of that engine's last command. -/
theorem refuse_eq (p : Port) (e : CmdError) (s : State) :
    refuse p e s =
      { raise p e s with
        heInFlight := (supersede p s).heInFlight, ceInFlight := (supersede p s).ceInFlight
        unseen := (supersede p s).unseen } := by
  cases p <;> simp only [refuse, supersede, raise] <;> split <;> rfl

/-- The parts of a range outside another one are parts of it. -/
theorem Span.minus_inside {r t x : Span} (h : x ∈ r.minus t) : r.a ≤ x.a ∧ x.a + x.n ≤ r.a + r.n := by
  unfold Span.minus at h
  split at h
  · next hm =>
    rw [Span.meets_iff] at hm
    rw [List.mem_append] at h
    rcases h with h | h <;> split at h <;> simp only [List.mem_singleton, List.not_mem_nil] at h <;> subst h <;>
      simp only <;> omega
  · rw [List.mem_singleton] at h; subst h; simp

/-- An address lies in a part outside another range exactly where it lies in the range and not in the other. -/
theorem Span.minus_has (r t : Span) (x : Nat) : (r.minus t).any (fun o => o.has x) = (r.has x && !t.has x) := by
  rw [Bool.eq_iff_iff]
  simp only [List.any_eq_true, Span.has_iff, Bool.and_eq_true, Bool.not_eq_true', ← Bool.not_eq_true]
  unfold Span.minus
  split
  · next hm =>
    rw [Span.meets_iff] at hm
    constructor
    · rintro ⟨y, hy, h1, h2⟩
      rw [List.mem_append] at hy
      rcases hy with hy | hy <;> split at hy <;> simp only [List.mem_singleton, List.not_mem_nil] at hy <;> subst hy <;>
        simp only at h1 h2 <;> omega
    · rintro ⟨⟨h1, h2⟩, h3⟩
      by_cases hx : x < t.a
      · exact ⟨⟨r.a, t.a - r.a⟩, by simp; omega, by simp only; omega⟩
      · exact ⟨⟨t.a + t.n, r.a + r.n - (t.a + t.n)⟩, by simp; omega, by simp only; omega⟩
  · next hm =>
    rw [Bool.not_eq_true, Span.not_meets_iff] at hm
    simp only [List.mem_singleton, exists_eq_left]
    omega

/-- What a record still holds after a seen command with output range `o`: what it held, outside `o`. -/
theorem Unseen.without_has (o : Span) (u : Unseen) (x : Nat) : (u.without o).has x = (u.has x && !o.has x) := by
  simp only [Unseen.without, Unseen.has, List.any_flatMap, Span.minus_has]
  induction u.outputs with
  | nil => rfl
  | cons r rs ih => rw [List.any_cons, List.any_cons, ih]; cases r.has x <;> cases o.has x <;> simp

/-- A byte is in no record's result after `settle` where the settled range covers it, and elsewhere exactly where it was before. -/
theorem settle_has (o : Span) (us : List Unseen) (x : Nat) :
    (settle o us).any (Unseen.has x) = (us.any (Unseen.has x) && !o.has x) := by
  induction us with
  | nil => rfl
  | cons u us ih =>
    have h := Unseen.without_has o u x
    simp only [settle, List.map_cons, List.filter_cons] at ih ⊢
    split
    · rw [List.any_cons, ih, List.any_cons, h]; cases u.has x <;> cases o.has x <;> simp
    · next hs =>
      have he : (u.without o).has x = false := by
        simp only [Unseen.stays, Bool.or_eq_true, Bool.not_eq_true', not_or, Bool.not_eq_false] at hs
        simp [Unseen.has, List.isEmpty_iff.1 hs.2]
      rw [he] at h
      rw [ih, List.any_cons]
      cases hu : u.has x <;> simp_all

/-- The records that settling leaves are parts of earlier ones. -/
theorem settle_inside {o x : Span} {us : List Unseen} {u : Unseen} (h : u ∈ settle o us) (hx : x ∈ u.outputs) :
    ∃ v ∈ us, ∃ r ∈ v.outputs, r.a ≤ x.a ∧ x.a + x.n ≤ r.a + r.n := by
  simp only [settle, List.mem_filter, List.mem_map] at h
  obtain ⟨⟨v, hv, rfl⟩, -⟩ := h
  simp only [Unseen.without, List.mem_flatMap] at hx
  obtain ⟨r, hr, hx⟩ := hx
  exact ⟨v, hv, r, hr, Span.minus_inside hx⟩

/-! ### What a broken duty leaves -/

/-- The result of a command of the Block Cipher Engine made free, of its registers rk alone can change. -/
theorem spoilCipher_control (s : State) :
    (spoilCipher s).ce.seq = s.ce.seq ∧ (spoilCipher s).ce.status = s.ce.status ∧ (spoilCipher s).ce.cop = s.ce.cop ∧
    (spoilCipher s).ce.csrc = s.ce.csrc ∧ (spoilCipher s).ce.clen = s.ce.clen ∧ (spoilCipher s).ce.cdst = s.ce.cdst ∧
    (spoilCipher s).ce.keyValid = s.ce.keyValid ∧ (spoilCipher s).ce.k = s.ce.k ∧ (spoilCipher s).ce.x = s.ce.x := by
  unfold spoilCipher; split <;> simp

/-- Spoiling the Block Cipher Engine's result keeps everything outside that engine, BUF and the free values' counter. -/
theorem spoilCipher_rest (s : State) :
    (spoilCipher s).aw = s.aw ∧ (spoilCipher s).he = s.he ∧ (spoilCipher s).host = s.host ∧
    (spoilCipher s).lastByte = s.lastByte ∧ (spoilCipher s).lastStatus = s.lastStatus ∧
    (spoilCipher s).heInFlight = s.heInFlight ∧ (spoilCipher s).ceInFlight = s.ceInFlight ∧
    (spoilCipher s).heDisturbed = s.heDisturbed ∧ (spoilCipher s).ceDisturbed = s.ceDisturbed ∧
    (spoilCipher s).unseen = s.unseen := by
  unfold spoilCipher; split <;> simp

/-- Spoiling keeps BUF canonical. -/
theorem spoilHash_wf {s : State} (h : s.buf.wf) : (spoilHash s).buf.wf := by
  rw [spoilHash_buf]; exact memWrite_wf h _ _

theorem spoilSpan_wf {s : State} {o : Span} (h : s.buf.wf) : (spoilSpan s o).buf.wf := by
  rw [spoilSpan_buf]; exact memWrite_wf h _ _

theorem spoilCipher_wf {s : State} (h : s.buf.wf) : (spoilCipher s).buf.wf := by
  unfold spoilCipher; split
  · exact h
  · exact spoilSpan_wf h

/-- What a chain of breaches keeps: the control registers of both engines, and everything of the rest but BUF, the marks and the
free values' counter. -/
def SameControl (s t : State) : Prop :=
  (t.he.seq = s.he.seq ∧ t.he.status = s.he.status ∧ t.he.hsrc = s.he.hsrc ∧ t.he.hlen = s.he.hlen ∧
    t.he.hdst = s.he.hdst) ∧
  (t.ce.seq = s.ce.seq ∧ t.ce.status = s.ce.status ∧ t.ce.cop = s.ce.cop ∧ t.ce.csrc = s.ce.csrc ∧
    t.ce.clen = s.ce.clen ∧ t.ce.cdst = s.ce.cdst ∧ t.ce.keyValid = s.ce.keyValid) ∧
  t.aw = s.aw ∧ t.host = s.host ∧ t.lastByte = s.lastByte ∧ t.lastStatus = s.lastStatus ∧
  t.heInFlight = s.heInFlight ∧ t.ceInFlight = s.ceInFlight ∧ t.unseen = s.unseen

theorem SameControl.refl (s : State) : SameControl s s := by simp [SameControl]

theorem SameControl.trans {s t u : State} (h : SameControl s t) (g : SameControl t u) : SameControl s u := by
  simp only [SameControl] at *; simp_all

theorem breach_same (p : Port) (s : State) : SameControl s (breach p s) := by
  cases p <;> simp only [breach] <;> split <;> simp [SameControl, spoilCipher_control, spoilCipher_rest]

theorem spoilSpans_same (os : List Span) (s : State) : SameControl s (os.foldl spoilSpan s) := by
  induction os generalizing s with
  | nil => exact .refl s
  | cons o os ih => exact .trans (by simp [SameControl]) (ih (spoilSpan s o))

theorem breachKey_same (s : State) : SameControl s (breachKey s) := by
  unfold breachKey; split
  · exact (breach_same .ce s).trans (by simp [SameControl])
  · simp [SameControl]

theorem breachUnseen_same (s : State) (u : Unseen) : SameControl s (breachUnseen s u) := by
  unfold breachUnseen; split
  · exact (spoilSpans_same _ s).trans (breachKey_same _)
  · exact spoilSpans_same _ s

theorem breachAll_same (us : List Unseen) (s : State) : SameControl s (us.foldl breachUnseen s) := by
  induction us generalizing s with
  | nil => exact .refl s
  | cons u us ih => exact (breachUnseen_same s u).trans (ih _)

/-- Marking after an acceptance keeps every control register of both engines. -/
theorem markClash_same (p : Port) (s : State) : SameControl s (markClash p s) := by
  have h : SameControl s (if clash (heSpans s) (ceSpans s) then breach .ce (breach .he s) else s) := by
    split
    · exact (breach_same .he s).trans (breach_same .ce _)
    · exact .refl s
  unfold markClash; simp only; split
  · exact h
  · exact (h.trans (breachAll_same _ _)).trans (breach_same p _)

/-- The duty broken by an access keeps them too. -/
theorem markAccess_same (a : Nat) (w : Bool) (s : State) : SameControl s (markAccess a w s) := by
  have h1 : SameControl s (if breaksDuty (heSpans s) a w then breach .he s else s) := by
    split
    · exact breach_same .he s
    · exact .refl s
  have h2 : ∀ t, SameControl s t → SameControl s (if breaksDuty (ceSpans s) a w then breach .ce t else t) := by
    intro t h; split
    · exact h.trans (breach_same .ce t)
    · exact h
  exact (h2 _ h1).trans (breachAll_same _ _)

theorem breach_wf {p : Port} {s : State} (h : s.buf.wf) : (breach p s).buf.wf := by
  cases p <;> simp only [breach] <;> split
  · exact h
  · exact spoilHash_wf h
  · exact h
  · exact spoilCipher_wf h

theorem spoilSpans_wf {os : List Span} {s : State} (h : s.buf.wf) : (os.foldl spoilSpan s).buf.wf := by
  induction os generalizing s with
  | nil => exact h
  | cons o os ih => exact ih (spoilSpan_wf h)

theorem breachUnseen_wf {s : State} {u : Unseen} (h : s.buf.wf) : (breachUnseen s u).buf.wf := by
  unfold breachUnseen; split
  · unfold breachKey; rw [spoilKey_buf]; split
    · exact breach_wf (spoilSpans_wf h)
    · exact spoilSpans_wf h
  · exact spoilSpans_wf h

theorem breachAll_wf {us : List Unseen} {s : State} (h : s.buf.wf) : (us.foldl breachUnseen s).buf.wf := by
  induction us generalizing s with
  | nil => exact h
  | cons u us ih => exact ih (breachUnseen_wf h)

theorem markClash_wf {p : Port} {s : State} (h : s.buf.wf) : (markClash p s).buf.wf := by
  have h1 : (if clash (heSpans s) (ceSpans s) then breach .ce (breach .he s) else s).buf.wf := by
    split
    · exact breach_wf (breach_wf h)
    · exact h
  unfold markClash; simp only; split
  · exact h1
  · exact breach_wf (breachAll_wf h1)

/-- Commands that clash are in flight. -/
theorem inFlight_of_clash {s : State} (h : clash (heSpans s) (ceSpans s) = true) :
    s.heInFlight = true ∧ s.ceInFlight = true := by
  unfold heSpans ceSpans at h
  constructor <;> by_contra hc <;> simp [hc] at h

/-- Without a clash nothing is marked or spoiled. -/
theorem markClash_of_apart {p : Port} {s : State} (h : clash (heSpans s) (ceSpans s) = false)
    (hu : ∀ u ∈ s.unseen, clashUnseen p (spansOf p s) u = false) : markClash p s = s := by
  have hf : s.unseen.filter (clashUnseen p (spansOf p s)) = [] := by
    rw [List.filter_eq_nil_iff]; intro u hm; simp [hu u hm]
  simp [markClash, h, hf]

/-- The host's duty at an issue is kept where no command is in flight at the other engine and no result is unseen. -/
theorem dutyKept_of_none {i : Instr} {s : State} (h : otherSpans i.port s = none)
    (hu : (supersede i.port s).unseen = []) : dutyKept i s :=
  ⟨by rw [h]; rfl, by simp [hu]⟩

/-- Where the host keeps its duty for an access, the byte belongs to no result that is not valid. -/
theorem notValid_of_kept {a : Nat} {w : Bool} {s : State} (h : accessKept a w s) : notValid a s = false := by
  obtain ⟨h1, h2, h3⟩ := h
  have hr : ∀ x, breaksDuty x a w = false → breaksDuty x a false = false := by
    intro x hx
    cases x with
    | none => rfl
    | some x => simp only [breaksDuty, Bool.or_eq_false_iff] at hx ⊢; exact ⟨rfl, hx.2⟩
  have hu : s.unseen.any (Unseen.has a) = false := by
    rw [List.any_eq_false]
    intro u hm hc
    have := h3 u hm
    simp [breaksUnseen, hc] at this
  simp [notValid, hr _ h1, hr _ h2, hu]

/-- An access that keeps the duty marks and spoils nothing. -/
theorem markAccess_of_kept {a : Nat} {w : Bool} {s : State} (h : accessKept a w s) : markAccess a w s = s := by
  have hf : s.unseen.filter (breaksUnseen a w) = [] := by
    rw [List.filter_eq_nil_iff]; intro u hm; simp [h.2.2 u hm]
  simp [markAccess, h.1, h.2.1, hf]

/-! ### The ends of the commands -/

/-- The end of SM3.HASH: the control registers and the status. -/
theorem hashEmit_control (s : State) :
    (hashEmit s).he.seq = .idle ∧ (hashEmit s).he.status = s.he.status.complete ∧ (hashEmit s).he.hsrc = s.he.hsrc ∧
    (hashEmit s).he.hlen = s.he.hlen ∧ (hashEmit s).he.hdst = s.he.hdst ∧ (hashEmit s).heDisturbed = false := by
  unfold hashEmit; simp only; split <;> simp

/-- The end of SM3.HASH: everything else but BUF and the free values' counter is kept. -/
theorem hashEmit_rest (s : State) :
    (hashEmit s).aw = s.aw ∧ (hashEmit s).ce = s.ce ∧ (hashEmit s).host = s.host ∧ (hashEmit s).lastByte = s.lastByte ∧
    (hashEmit s).lastStatus = s.lastStatus ∧ (hashEmit s).heInFlight = s.heInFlight ∧
    (hashEmit s).ceInFlight = s.ceInFlight ∧ (hashEmit s).ceDisturbed = s.ceDisturbed ∧
    (hashEmit s).unseen = s.unseen := by
  unfold hashEmit; simp only; split <;> simp

/-- The end of SM4.SETKEY: the control registers and the status. -/
theorem keyFinish_control (s : State) :
    (keyFinish s).ce.seq = .idle ∧ (keyFinish s).ce.status = s.ce.status.complete ∧ (keyFinish s).ce.cop = s.ce.cop ∧
    (keyFinish s).ce.csrc = s.ce.csrc ∧ (keyFinish s).ce.clen = s.ce.clen ∧ (keyFinish s).ce.cdst = s.ce.cdst ∧
    (keyFinish s).ce.keyValid = true ∧ (keyFinish s).ceDisturbed = false := by
  unfold keyFinish; simp only; split <;> simp [spoilCipher_control, spoilCipher_rest]

theorem keyFinish_rest (s : State) :
    (keyFinish s).aw = s.aw ∧ (keyFinish s).he = s.he ∧ (keyFinish s).host = s.host ∧
    (keyFinish s).lastByte = s.lastByte ∧ (keyFinish s).lastStatus = s.lastStatus ∧
    (keyFinish s).heInFlight = s.heInFlight ∧ (keyFinish s).ceInFlight = s.ceInFlight ∧
    (keyFinish s).heDisturbed = s.heDisturbed ∧ (keyFinish s).unseen = s.unseen := by
  unfold keyFinish; simp only; split <;> simp [spoilCipher_rest]

/-- The end of SM4.ENC and SM4.DEC: the control registers and the status. -/
theorem cryptFinish_control (s : State) :
    (cryptFinish s).ce.seq = .idle ∧ (cryptFinish s).ce.status = s.ce.status.complete ∧
    (cryptFinish s).ce.cop = s.ce.cop ∧ (cryptFinish s).ce.csrc = s.ce.csrc ∧ (cryptFinish s).ce.clen = s.ce.clen ∧
    (cryptFinish s).ce.cdst = s.ce.cdst ∧ (cryptFinish s).ce.keyValid = s.ce.keyValid ∧
    (cryptFinish s).ceDisturbed = false := by
  unfold cryptFinish; simp only; split <;> simp [spoilCipher_control, spoilCipher_rest]

theorem cryptFinish_rest (s : State) :
    (cryptFinish s).aw = s.aw ∧ (cryptFinish s).he = s.he ∧ (cryptFinish s).host = s.host ∧
    (cryptFinish s).lastByte = s.lastByte ∧ (cryptFinish s).lastStatus = s.lastStatus ∧
    (cryptFinish s).heInFlight = s.heInFlight ∧ (cryptFinish s).ceInFlight = s.ceInFlight ∧
    (cryptFinish s).heDisturbed = s.heDisturbed ∧ (cryptFinish s).unseen = s.unseen := by
  unfold cryptFinish; simp only; split <;> simp [spoilCipher_rest]

/-! ### The internal steps, phase by phase -/

theorem hashStep_idle {s : State} (h : s.he.seq = .idle) : hashStep s = s := by
  unfold hashStep; rw [h]

theorem hashStep_emit {s : State} {i : Nat} (h : s.he.seq = .emit i) : hashStep s = hashEmit s := by
  unfold hashStep; rw [h]

theorem cipherStep_idle {s : State} (h : s.ce.seq = .idle) : cipherStep s = s := by
  unfold cipherStep; rw [h]

theorem cipherStep_store_more {s : State} {b : Nat} (h : s.ce.seq = .bstore b) (hb : b + 1 < cipherBlocks s) :
    cipherStep s = setCSeq (.bload (b + 1)) (blockStoreStep b s) := by
  unfold cipherStep; simp only [h]; exact if_pos hb

theorem cipherStep_store_last {s : State} {b : Nat} (h : s.ce.seq = .bstore b) (hb : ¬b + 1 < cipherBlocks s) :
    cipherStep s = cryptFinish (blockStoreStep b s) := by
  unfold cipherStep; simp only [h]; exact if_neg hb

/-- Internal steps add up. -/
theorem hashSteps_add (a b : Nat) (s : State) : hashSteps (a + b) s = hashSteps b (hashSteps a s) := by
  induction a generalizing s with
  | zero => simp [hashSteps]
  | succ n ih => rw [show n + 1 + b = (n + b) + 1 by omega, hashSteps, ih, hashSteps]

theorem cipherSteps_add (a b : Nat) (s : State) : cipherSteps (a + b) s = cipherSteps b (cipherSteps a s) := by
  induction a generalizing s with
  | zero => simp [cipherSteps]
  | succ n ih => rw [show n + 1 + b = (n + b) + 1 by omega, cipherSteps, ih, cipherSteps]

/-- An idle engine stays idle (R197). -/
theorem hashSteps_idle {s : State} (n : Nat) (h : s.he.seq = .idle) : hashSteps n s = s := by
  induction n with
  | zero => rfl
  | succ n ih => rw [hashSteps, hashStep_idle h]; exact ih

theorem cipherSteps_idle {s : State} (n : Nat) (h : s.ce.seq = .idle) : cipherSteps n s = s := by
  induction n with
  | zero => rfl
  | succ n ih => rw [cipherSteps, cipherStep_idle h]; exact ih

/-! ### Issue -/

/-- What a port reads from a descriptor is a command of its own, with the descriptor's operands. -/
theorem decode_inv {p : Port} {d : Descriptor} {i : Instr} (h : decode p d = .ok i) :
    i.port = p ∧ i.src = d.src ∧ i.len = d.len ∧ i.dst = d.dst := by
  unfold decode at h
  split at h
  · cases h
  · split at h
    · cases h
    · cases p <;> simp only at h <;> (repeat' split at h) <;> cases h <;> simp [Instr.port, Instr.src, Instr.len, Instr.dst]

end Sys2Proof.Machine
end

