-- ==== Sys2Proof/Laws/Legality.lean ====
section
/-! SUPPORT. Legal states (`State.Inv`) in three parts, and that each shared operation and each internal step keeps them. -/

namespace Sys2Proof.Machine

/-- The part of legality about AW, BUF, the action list and the ended commands whose DONE was not seen. -/
structure MemoryOk (aw : Nat) (buf : Memory) (host : List HostAction) (unseen : List Unseen) : Prop where
  awRange : 1 ≤ aw ∧ aw ≤ 64
  wf : buf.wf
  inside : ∀ c ∈ buf, c.1 < 2 ^ aw
  outputs : ∀ u ∈ unseen, ∀ o ∈ u.outputs, o.a + o.n ≤ 2 ^ aw
  fits : ∀ act ∈ host, act.fits aw = true

/-- The part about the Hash Engine: its latched fields, sequencer and status, whether its command is in flight and marked. -/
structure HashOk (aw : Nat) (src : Addr) (len : Len) (dst : Addr) (seq : HSeq) (st : Status) (flight mark : Bool) :
    Prop where
  fits : Addr.fits aw src = true ∧ Addr.fits aw dst = true
  idle : st.busy = true ↔ seq ≠ .idle
  legal : st.legal
  inFlight : st.busy = true → flight = true
  marked : mark = true → st.busy = true
  operands : flight = true → hashCheck aw src len dst = none
  bounds : seq.legal (blockCount len.toNat)

/-- The part about the Block Cipher Engine. -/
structure CipherOk (aw : Nat) (keyed : Bool) (cop : BitVec 8) (src : Addr) (len : Len) (dst : Addr) (seq : CSeq)
    (st : Status) (flight mark : Bool) : Prop where
  fits : Addr.fits aw src = true ∧ Addr.fits aw dst = true
  idle : st.busy = true ↔ seq ≠ .idle
  legal : st.legal
  inFlight : st.busy = true → flight = true
  marked : mark = true → st.busy = true
  operands : flight = true → (cop = opcSetKey ∧ keyCheck aw src len = none) ∨
    ((cop = opcEnc ∨ cop = opcDec) ∧ cryptCheck aw keyed src len dst = none)
  bounds : seq.legal cop (len.toNat / Config.blockLen)

abbrev State.MemOk (s : State) : Prop := MemoryOk s.aw s.buf s.host s.unseen

abbrev State.HeOk (s : State) : Prop :=
  HashOk s.aw s.he.hsrc s.he.hlen s.he.hdst s.he.seq s.he.status s.heInFlight s.heDisturbed

abbrev State.CeOk (s : State) : Prop :=
  CipherOk s.aw s.ce.keyValid s.ce.cop s.ce.csrc s.ce.clen s.ce.cdst s.ce.seq s.ce.status s.ceInFlight s.ceDisturbed

/-- A state is legal when its three parts are. -/
theorem inv_iff_parts (s : State) : s.Inv ↔ s.MemOk ∧ s.HeOk ∧ s.CeOk := by
  constructor
  · rintro ⟨a, b, c, u, d, e, f, g, h, i, j, k, l, m, n, o, p, q, r⟩
    exact ⟨⟨a, b, c, u, d⟩, ⟨e, g, i, k, m, o, q⟩, ⟨f, h, j, l, n, p, r⟩⟩
  · rintro ⟨⟨a, b, c, u, d⟩, ⟨e, g, i, k, m, o, q⟩, ⟨f, h, j, l, n, p, r⟩⟩
    exact ⟨a, b, c, u, d, e, f, g, h, i, j, k, l, m, n, o, p, q, r⟩

/-- A write inside BUF keeps the memory part. -/
theorem MemoryOk.write {aw a : Nat} {buf : Memory} {host : List HostAction} {us : List Unseen} {bs : List Byte}
    (h : MemoryOk aw buf host us) (ha : bs.length = 0 ∨ a + bs.length ≤ 2 ^ aw) :
    MemoryOk aw (memWrite buf a bs) host us :=
  ⟨h.awRange, memWrite_wf h.wf _ _, memWrite_inside h.inside ha, h.outputs, h.fits⟩

/-- Fewer records, or smaller ones, keep it too. -/
theorem MemoryOk.fewer {aw : Nat} {buf : Memory} {host : List HostAction} {us vs : List Unseen}
    (h : MemoryOk aw buf host us)
    (hv : ∀ v ∈ vs, ∀ x ∈ v.outputs, ∃ u ∈ us, ∃ o ∈ u.outputs, x.a + x.n ≤ o.a + o.n) : MemoryOk aw buf host vs :=
  ⟨h.awRange, h.wf, h.inside, fun v hm x hx => by
    obtain ⟨u, hu, o, ho, hle⟩ := hv v hm x hx
    exact hle.trans (h.outputs u hu o ho), h.fits⟩

theorem MemoryOk.subset {aw : Nat} {buf : Memory} {host : List HostAction} {us vs : List Unseen}
    (h : MemoryOk aw buf host us) (hv : ∀ v ∈ vs, v ∈ us) : MemoryOk aw buf host vs :=
  h.fewer fun v hm x hx => ⟨v, hv v hm, x, hx, le_refl _⟩

/-! ### Where the commands in flight write -/

/-- The digest's place of a command in flight lies in BUF. -/
theorem State.HeOk.room {s : State} (h : s.HeOk) (hf : s.heInFlight = true) : s.he.hdst.toNat + 32 ≤ 2 ^ s.aw :=
  (hashCheck_none (h.operands hf)).2.2

/-- A command in flight that is not SM4.SETKEY passed the checks of SM4.ENC and SM4.DEC. -/
theorem State.CeOk.crypt {s : State} (h : s.CeOk) (hf : s.ceInFlight = true) (hk : s.ce.cop ≠ opcSetKey) :
    (s.ce.cop = opcEnc ∨ s.ce.cop = opcDec) ∧
      cryptCheck s.aw s.ce.keyValid s.ce.csrc s.ce.clen s.ce.cdst = none := by
  rcases h.operands hf with ⟨a, _⟩ | a
  · exact absurd a hk
  · exact a

/-! ### Broken duties -/

theorem spoilHash_inv {s : State} (hf : s.heInFlight = true) (h : s.Inv) : (spoilHash s).Inv := by
  rw [inv_iff_parts] at *
  obtain ⟨m, e, c⟩ := h
  have hr := State.HeOk.room e hf
  refine ⟨?_, ?_, ?_⟩
  · unfold State.MemOk
    rw [spoilHash_aw, spoilHash_buf, spoilHash_host, spoilHash_unseen]
    exact m.write (.inr (by simpa using hr))
  · simpa only [State.HeOk, spoilHash_aw, spoilHash_he, spoilHash_heInFlight, spoilHash_heDisturbed] using e
  · simpa only [State.CeOk, spoilHash_aw, spoilHash_ce, spoilHash_ceInFlight, spoilHash_ceDisturbed] using c

theorem spoilSpan_inv {s : State} {o : Span} (ho : o.a + o.n ≤ 2 ^ s.aw) (h : s.Inv) : (spoilSpan s o).Inv := by
  rw [inv_iff_parts] at *
  obtain ⟨m, e, c⟩ := h
  exact ⟨m.write (.inr (by simpa using ho)), e, c⟩

theorem spoilKey_inv {s : State} (h : s.Inv) : (spoilKey s).Inv := by
  rw [inv_iff_parts] at *
  exact h

theorem spoilCipher_inv {s : State} (hf : s.ceInFlight = true) (h : s.Inv) : (spoilCipher s).Inv := by
  unfold spoilCipher
  split
  · exact spoilKey_inv h
  · next hk =>
    have c := ((inv_iff_parts s).1 h).2.2
    exact spoilSpan_inv (cryptCheck_none (State.CeOk.crypt c hf hk).2).2.2.2.2.1 h

theorem spoilSpans_inv {os : List Span} {s : State} (ho : ∀ o ∈ os, o.a + o.n ≤ 2 ^ s.aw) (h : s.Inv) :
    (os.foldl spoilSpan s).Inv := by
  induction os generalizing s with
  | nil => exact h
  | cons o os ih =>
    exact ih (fun x hx => by simpa using ho x (by simp [hx])) (spoilSpan_inv (ho o (by simp)) h)

theorem breach_he_inv {s : State} (hf : s.heInFlight = true) (h : s.Inv) : (breach .he s).Inv := by
  simp only [breach]
  split
  · next hb =>
    rw [inv_iff_parts] at *
    obtain ⟨m, e, c⟩ := h
    exact ⟨m, ⟨e.fits, e.idle, e.legal, e.inFlight, fun _ => hb, e.operands, e.bounds⟩, c⟩
  · exact spoilHash_inv hf h

theorem breach_ce_inv {s : State} (hf : s.ceInFlight = true) (h : s.Inv) : (breach .ce s).Inv := by
  simp only [breach]
  split
  · next hb =>
    rw [inv_iff_parts] at *
    obtain ⟨m, e, c⟩ := h
    exact ⟨m, e, ⟨c.fits, c.idle, c.legal, c.inFlight, fun _ => hb, c.operands, c.bounds⟩⟩
  · exact spoilCipher_inv hf h

theorem breachUnseen_inv {u : Unseen} {s : State} (hu : ∀ o ∈ u.outputs, o.a + o.n ≤ 2 ^ s.aw) (h : s.Inv) :
    (breachUnseen s u).Inv := by
  have h1 := spoilSpans_inv hu h
  unfold breachUnseen
  split
  · unfold breachKey
    apply spoilKey_inv
    split
    · next hf => exact breach_ce_inv hf h1
    · exact h1
  · exact h1

theorem breachAll_inv {us : List Unseen} {s : State} (hu : ∀ u ∈ us, ∀ o ∈ u.outputs, o.a + o.n ≤ 2 ^ s.aw)
    (h : s.Inv) : (us.foldl breachUnseen s).Inv := by
  induction us generalizing s with
  | nil => exact h
  | cons u us ih =>
    refine ih (fun v hv o ho => ?_) (breachUnseen_inv (hu u (by simp)) h)
    rw [(breachUnseen_same s u).2.2.1]
    exact hu v (by simp [hv]) o ho

theorem breach_inv {p : Port} {s : State} (hf : spansOf p s ≠ none) (h : s.Inv) : (breach p s).Inv := by
  cases p
  · exact breach_he_inv (by by_contra hc; simp [spansOf, heSpans, hc] at hf) h
  · exact breach_ce_inv (by by_contra hc; simp [spansOf, ceSpans, hc] at hf) h

/-- The ranges of the commands in flight are those of the control registers. -/
theorem spansOf_same {s t : State} (h : SameControl s t) (p : Port) : spansOf p t = spansOf p s := by
  obtain ⟨⟨-, -, h1, h2, h3⟩, ⟨-, -, h4, h5, h6, h7, -⟩, -, -, -, -, h8, h9, -⟩ := h
  cases p <;> simp [spansOf, heSpans, ceSpans, cipherInput, cipherOutput, h1, h2, h3, h4, h5, h6, h7, h8, h9]

theorem markClash_inv {p : Port} {s : State} (hf : spansOf p s ≠ none) (h : s.Inv) : (markClash p s).Inv := by
  have key : ∀ t, SameControl s t → t.Inv → (let us := s.unseen.filter (clashUnseen p (spansOf p s))
      if us.isEmpty then t else breach p (us.foldl breachUnseen t)).Inv := by
    intro t ht hi
    simp only
    split
    · exact hi
    · apply breach_inv
      · rw [spansOf_same (breachAll_same _ t), spansOf_same ht]; exact hf
      · apply breachAll_inv _ hi
        intro u hu o ho
        rw [ht.2.2.1]
        exact h.unseenInside u (List.mem_filter.1 hu).1 o ho
  unfold markClash
  refine key _ ?_ ?_
  · split
    · exact (breach_same .he s).trans (breach_same .ce _)
    · exact .refl s
  · split
    · next hc =>
      obtain ⟨h1, h2⟩ := inFlight_of_clash hc
      exact breach_ce_inv ((breach_same .he s).2.2.2.2.2.2.2.1.trans h2) (breach_he_inv h1 h)
    · exact h

theorem markAccess_inv {a : Nat} {w : Bool} {s : State} (h : s.Inv) : (markAccess a w s).Inv := by
  have h1 : breaksDuty (heSpans s) a w = true → s.heInFlight = true := by
    intro hd; by_contra hc; simp [heSpans, hc, breaksDuty] at hd
  have h2 : breaksDuty (ceSpans s) a w = true → s.ceInFlight = true := by
    intro hd; by_contra hc; simp [ceSpans, hc, breaksDuty] at hd
  have g1 : (if breaksDuty (heSpans s) a w then breach .he s else s).Inv ∧
      SameControl s (if breaksDuty (heSpans s) a w then breach .he s else s) := by
    split
    · next g => exact ⟨breach_he_inv (h1 g) h, breach_same .he s⟩
    · exact ⟨h, .refl s⟩
  have g2 : ∀ t : State, t.Inv ∧ SameControl s t → (if breaksDuty (ceSpans s) a w then breach .ce t else t).Inv ∧
      SameControl s (if breaksDuty (ceSpans s) a w then breach .ce t else t) := by
    intro t ht
    split
    · next g =>
      exact ⟨breach_ce_inv (ht.2.2.2.2.2.2.2.2.1.trans (h2 g)) ht.1, ht.2.trans (breach_same .ce t)⟩
    · exact ht
  have g3 := g2 _ g1
  refine breachAll_inv (fun u hu o ho => ?_) g3.1
  rw [g3.2.2.2.1]
  exact h.unseenInside u (List.mem_filter.1 hu).1 o ho

/-! ### Records of ended commands -/

theorem supersede_inv {p : Port} {s : State} (hb : busyOf p s = false) (h : s.Inv) : (supersede p s).Inv := by
  rw [inv_iff_parts] at *
  obtain ⟨m, e, c⟩ := h
  cases p <;> simp only [busyOf] at hb <;> simp only [supersede] <;> split
  · next hf =>
    refine ⟨⟨m.awRange, m.wf, m.inside, ?_, m.fits⟩,
      ⟨e.fits, e.idle, e.legal, fun g => by simp [hb] at g, e.marked, fun g => by simp at g, e.bounds⟩, c⟩
    intro u hu
    rcases List.mem_cons.1 hu with rfl | hu
    · intro o ho
      simp only [hashRecord, List.mem_singleton] at ho
      subst ho
      exact State.HeOk.room e hf
    · exact m.outputs u hu
  · exact ⟨m, e, c⟩
  · next hf =>
    refine ⟨⟨m.awRange, m.wf, m.inside, ?_, m.fits⟩, e,
      ⟨c.fits, c.idle, c.legal, fun g => by simp [hb] at g, c.marked, fun g => by simp at g, c.bounds⟩⟩
    intro u hu
    rcases List.mem_cons.1 hu with rfl | hu
    · intro o ho
      simp only [cipherRecord] at ho
      split at ho
      · simp at ho
      · next hk =>
        simp only [List.mem_singleton] at ho
        subst ho
        simp only [cipherOutput, hk, if_false]
        exact (cryptCheck_none (State.CeOk.crypt c hf hk).2).2.2.2.2.1
    · exact m.outputs u hu
  · exact ⟨m, e, c⟩

/-! ### Issue, errors and status reads -/

theorem acceptHash_inv {src : Addr} {len : Len} {dst : Addr} {s : State} (h : s.Inv) (hb : s.he.status.busy = false)
    (hs : Addr.fits s.aw src = true) (hd : Addr.fits s.aw dst = true) (hc : hashCheck s.aw src len dst = none) :
    (acceptHash src len dst s).Inv := by
  have h1 := supersede_inv (p := .he) hb h
  apply markClash_inv
  · simp [spansOf, heSpans]
  rw [inv_iff_parts] at *
  obtain ⟨m, e, c⟩ := h1
  simp only [State.MemOk, State.CeOk, supersede_he_aw, supersede_he_buf, supersede_he_host, supersede_he_ce,
    supersede_he_ceInFlight, supersede_he_ceDisturbed] at m c
  refine ⟨?_, ⟨?_, by simp [Status.accept], by simp [Status.accept, Status.clearForIssue, Status.legal],
    fun _ => rfl, fun h => by simp at h, fun _ => ?_, ?_⟩, ?_⟩
  · simpa only [State.MemOk, supersede_he_aw, supersede_he_buf, supersede_he_host] using m
  · simpa only [supersede_he_aw] using ⟨hs, hd⟩
  · simpa only [supersede_he_aw] using hc
  · simp only [HSeq.legal, blockCount, paddedLen, padZeros, hashBlockLen_eq]
    omega
  · simpa only [State.CeOk, supersede_he_aw, supersede_he_ce, supersede_he_ceInFlight, supersede_he_ceDisturbed] using c

theorem acceptCipher_inv {cop : BitVec 8} {first : CSeq} {src : Addr} {len : Len} {dst : Addr} {s : State} (h : s.Inv)
    (hb : s.ce.status.busy = false) (hs : Addr.fits s.aw src = true) (hd : Addr.fits s.aw dst = true)
    (hc : (cop = opcSetKey ∧ keyCheck s.aw src len = none ∧ first = .kload) ∨
      ((cop = opcEnc ∨ cop = opcDec) ∧ cryptCheck s.aw s.ce.keyValid src len dst = none ∧ first = .bload 0)) :
    (acceptCipher cop first src len dst s).Inv := by
  have h1 := supersede_inv (p := .ce) hb h
  apply markClash_inv
  · simp [spansOf, ceSpans]
  rw [inv_iff_parts] at *
  obtain ⟨m, e, c⟩ := h1
  have hk : ∀ u ∈ keepUnseen cop (supersede .ce s).unseen, u ∈ (supersede .ce s).unseen := by
    intro u hu
    unfold keepUnseen at hu
    split at hu
    · exact (List.mem_filter.1 hu).1
    · exact hu
  refine ⟨?_, ?_, ⟨?_, ?_, by simp [Status.accept, Status.clearForIssue, Status.legal], fun _ => rfl,
    fun h => by simp at h, fun _ => ?_, ?_⟩⟩
  · exact MemoryOk.subset m hk
  · exact e
  · simpa only [supersede_ce_aw] using ⟨hs, hd⟩
  · rcases hc with ⟨_, _, rfl⟩ | ⟨_, _, rfl⟩ <;> simp [Status.accept]
  · simp only [supersede_ce_aw]
    rcases hc with ⟨a, b, _⟩ | ⟨a, b, _⟩
    · exact .inl ⟨a, b⟩
    · exact .inr ⟨a, b⟩
  · rcases hc with ⟨a, _, rfl⟩ | ⟨a, b, rfl⟩
    · exact a
    · have hb := cryptCheck_none b
      refine ⟨?_, ?_⟩
      · show cop ≠ opcSetKey
        rcases a with rfl | rfl <;> decide
      · simp only [blockLen_eq]; omega

theorem raise_inv {p : Port} {err : CmdError} {s : State} (hb : busyOf p s = false) (h : s.Inv) :
    (raise p err s).Inv := by
  rw [inv_iff_parts] at *
  obtain ⟨m, e, c⟩ := h
  cases p <;> simp only [busyOf] at hb
  · refine ⟨m, ⟨e.fits, ?_, ?_, ?_, ?_, e.operands, e.bounds⟩, c⟩
    · simpa [raise, Status.raise, Status.clearForIssue] using e.idle
    · simp [raise, Status.raise, Status.clearForIssue, Status.legal, hb]
    · simp [raise, Status.raise, Status.clearForIssue, hb]
    · simpa [raise, Status.raise, Status.clearForIssue] using e.marked
  · refine ⟨m, e, ⟨c.fits, ?_, ?_, ?_, ?_, c.operands, c.bounds⟩⟩
    · simpa [raise, Status.raise, Status.clearForIssue] using c.idle
    · simp [raise, Status.raise, Status.clearForIssue, Status.legal, hb]
    · simp [raise, Status.raise, Status.clearForIssue, hb]
    · simpa [raise, Status.raise, Status.clearForIssue] using c.marked

theorem refuse_inv {p : Port} {err : CmdError} {s : State} (hb : busyOf p s = false) (h : s.Inv) :
    (refuse p err s).Inv := by
  refine raise_inv ?_ (supersede_inv hb h)
  cases p <;> simpa [busyOf] using hb

theorem hostReadStatus_inv {p : Port} {s : State} (h : s.Inv) : (hostReadStatus p s).Inv := by
  rw [inv_iff_parts] at *
  obtain ⟨m, e, c⟩ := h
  cases p
  · refine ⟨?_, ⟨e.fits, e.idle, e.legal, fun hb => ?_, e.marked, fun hf => ?_, e.bounds⟩, c⟩
    · refine MemoryOk.fewer m fun v hv x hx => ?_
      simp only [readStatus_he_unseen] at hv
      split at hv
      · obtain ⟨u, hu, r, hr, -, h2⟩ := settle_inside hv hx
        exact ⟨u, hu, r, hr, h2⟩
      · exact ⟨v, hv, x, hx, le_refl _⟩
    · have h1 := e.inFlight hb
      have h2 := e.legal.1
      simp only [readStatus_he_he] at hb
      simp_all
    · simp only [readStatus_he_heInFlight, Bool.and_eq_true] at hf
      exact e.operands hf.1
  · refine ⟨?_, e, ⟨c.fits, c.idle, c.legal, fun hb => ?_, c.marked, fun hf => ?_, c.bounds⟩⟩
    · refine MemoryOk.fewer m fun v hv x hx => ?_
      simp only [readStatus_ce_unseen] at hv
      split at hv
      · obtain ⟨u, hu, r, hr, -, h2⟩ := settle_inside hv hx
        exact ⟨u, hu, r, hr, h2⟩
      · exact ⟨v, hv, x, hx, le_refl _⟩
    · have h1 := c.inFlight hb
      have h2 := c.legal.1
      simp only [readStatus_ce_ce] at hb
      simp_all
    · simp only [readStatus_ce_ceInFlight, Bool.and_eq_true] at hf
      exact c.operands hf.1

/-! ### The internal steps -/

/-- Writing 32 bytes at HDST and ending the command keeps legality; `bs` is the digest in use. -/
theorem hashEnded_inv {s : State} (h : s.Inv) (hb : s.he.status.busy = true) (bs : List Byte) (hl : bs.length = 32)
    (r : Words8) (n : Nat) :
    ({ s with
        buf := memWrite s.buf s.he.hdst.toNat bs
        he := { s.he with regs := r, seq := .idle, status := s.he.status.complete }
        heDisturbed := false
        draws := n } : State).Inv := by
  rw [inv_iff_parts] at *
  obtain ⟨m, e, c⟩ := h
  refine ⟨m.write (.inr ?_), ⟨e.fits, by simp [Status.complete], ?_, ?_, ?_, e.operands, trivial⟩, c⟩
  · rw [hl]; exact State.HeOk.room e (e.inFlight hb)
  · have := e.legal.2; simp_all [Status.complete, Status.legal]
  · simp [Status.complete]
  · simp

theorem hashEmit_inv {s : State} (h : s.Inv) (hb : s.he.status.busy = true) : (hashEmit s).Inv := by
  have h1 := hashEnded_inv h hb (digestOf s.he.v) (digestOf_length _) (freeWords8 s.draws) (s.draws + 8)
  unfold hashEmit
  simp only
  split
  · exact spoilHash_inv (h.hashInFlight hb) h1
  · exact h1

theorem keyFinish_inv {s : State} (h : s.Inv) (hb : s.ce.status.busy = true) (hk : s.ce.cop = opcSetKey) :
    (keyFinish s).Inv := by
  have h1 : ∀ (k : Words4) (n : Nat), ({ s with
      ce := { s.ce with keyValid := true, k := k, seq := .idle, status := s.ce.status.complete }
      ceDisturbed := false
      draws := n } : State).Inv := by
    intro k n
    rw [inv_iff_parts] at *
    obtain ⟨m, e, c⟩ := h
    refine ⟨m, e, ⟨c.fits, by simp [Status.complete], ?_, ?_, ?_, fun hf => .inl ⟨hk, ?_⟩, trivial⟩⟩
    · have := c.legal.2; simp_all [Status.complete, Status.legal]
    · simp [Status.complete]
    · simp
    · rcases c.operands hf with ⟨_, a⟩ | ⟨a | a, _⟩
      · exact a
      · exact absurd (a.symm.trans hk) (by decide)
      · exact absurd (a.symm.trans hk) (by decide)
  unfold keyFinish
  simp only
  split
  · exact spoilCipher_inv (h.cipherInFlight hb) (h1 _ _)
  · exact h1 _ _

theorem cryptFinish_inv {s : State} (h : s.Inv) (hb : s.ce.status.busy = true) : (cryptFinish s).Inv := by
  have h1 : ∀ (x : Words4) (n : Nat), ({ s with
      ce := { s.ce with x := x, seq := .idle, status := s.ce.status.complete }
      ceDisturbed := false
      draws := n } : State).Inv := by
    intro x n
    rw [inv_iff_parts] at *
    obtain ⟨m, e, c⟩ := h
    refine ⟨m, e, ⟨c.fits, by simp [Status.complete], ?_, ?_, ?_, c.operands, trivial⟩⟩
    · have := c.legal.2; simp_all [Status.complete, Status.legal]
    · simp [Status.complete]
    · simp
  unfold cryptFinish
  simp only
  split
  · exact spoilCipher_inv (h.cipherInFlight hb) (h1 _ _)
  · exact h1 _ _

/-- A step of the Hash Engine that leaves it busy. -/
theorem hashRunning_inv {s : State} (h : s.Inv) (hb : s.he.status.busy = true) (v r : Words8) (w : Vector Word 68)
    (w1 : Vector Word 64) (q : HSeq) (hq : q ≠ .idle) (hl : q.legal (blockCount s.he.hlen.toNat)) :
    ({ s with he := { s.he with v := v, regs := r, w := w, w1 := w1, seq := q } } : State).Inv := by
  rw [inv_iff_parts] at *
  obtain ⟨m, e, c⟩ := h
  exact ⟨m, ⟨e.fits, by simp [hb, hq], e.legal, e.inFlight, e.marked, e.operands, hl⟩, c⟩

theorem hashStep_inv {s : State} (h : s.Inv) : (hashStep s).Inv := by
  have hi := h.hashIdle
  have hq := h.hashSeq
  unfold hashStep
  cases hs : s.he.seq with
  | idle => exact h
  | load i => rw [hs] at hi hq; exact hashRunning_inv h (by simpa using hi) _ _ _ _ _ (by simp) hq
  | expand i => rw [hs] at hi hq; exact hashRunning_inv h (by simpa using hi) _ _ _ _ _ (by simp) hq
  | round i j =>
    rw [hs] at hi hq
    refine hashRunning_inv h (by simpa using hi) _ _ _ _ _ ?_ ?_
    · split <;> simp
    · split <;> exact hq
  | feed i =>
    rw [hs] at hi hq
    refine hashRunning_inv h (by simpa using hi) _ _ _ _ _ ?_ ?_
    · split <;> simp
    · simp only [HSeq.legal] at hq
      split
      · assumption
      · simp only [HSeq.legal]; omega
  | emit i => exact hashEmit_inv h (by rw [hs] at hi; simpa using hi)

/-- A step of the Block Cipher Engine that leaves it busy. -/
theorem cipherRunning_inv {s : State} (h : s.Inv) (hb : s.ce.status.busy = true) (rk : Vector Word 32) (k x : Words4)
    (q : CSeq) (hq : q ≠ .idle) (hl : q.legal s.ce.cop (cipherBlocks s)) :
    ({ s with ce := { s.ce with rk := rk, k := k, x := x, seq := q } } : State).Inv := by
  rw [inv_iff_parts] at *
  obtain ⟨m, e, c⟩ := h
  exact ⟨m, e, ⟨c.fits, by simp [hb, hq], c.legal, c.inFlight, c.marked, c.operands, hl⟩⟩

/-- Writing output block b keeps legality; `bs` is the block in use. -/
theorem blockStored_inv {s : State} (h : s.Inv) (hb : s.ce.status.busy = true) (b : Nat)
    (hl : s.ce.cop ≠ opcSetKey ∧ b < cipherBlocks s) (bs : List Byte) (hs : bs.length = 16) :
    ({ s with buf := memWrite s.buf (s.ce.cdst.toNat + Config.blockLen * b) bs } : State).Inv := by
  rw [inv_iff_parts] at *
  obtain ⟨m, e, c⟩ := h
  refine ⟨m.write (.inr ?_), e, c⟩
  have hc := cryptCheck_none (State.CeOk.crypt c (c.inFlight hb) hl.1).2
  simp only [cipherBlocks, blockLen_eq] at *
  omega

theorem cipherStep_inv {s : State} (h : s.Inv) : (cipherStep s).Inv := by
  have hi := h.cipherIdle
  have hq := h.cipherSeq
  unfold cipherStep
  cases hs : s.ce.seq with
  | idle => exact h
  | kload => rw [hs] at hi hq; exact cipherRunning_inv h (by simpa using hi) _ _ _ _ (by simp) hq
  | kround r =>
    rw [hs] at hi hq
    have hb : s.ce.status.busy = true := by simpa using hi
    simp only
    split
    · exact cipherRunning_inv h hb _ _ _ _ (by simp) hq
    · refine keyFinish_inv ?_ hb hq
      exact cipherRunning_inv h hb _ _ _ _ (by rw [hs]; simp) (by rw [hs]; exact hq)
  | bload b => rw [hs] at hi hq; exact cipherRunning_inv h (by simpa using hi) _ _ _ _ (by simp) hq
  | round b r =>
    rw [hs] at hi hq
    refine cipherRunning_inv h (by simpa using hi) _ _ _ _ ?_ ?_
    · split <;> simp
    · split <;> exact hq
  | bstore b =>
    rw [hs] at hi hq
    have hb : s.ce.status.busy = true := by simpa using hi
    have h1 := blockStored_inv h hb b hq (blockStore s.ce.x) (blockStore_length _)
    simp only
    split
    · next hlt => exact cipherRunning_inv h1 hb _ _ _ _ (by simp) ⟨hq.1, hlt⟩
    · exact cryptFinish_inv h1 hb

/-! ### The host -/

theorem withHost_inv {s : State} (h : s.Inv) {rest : List HostAction} (hr : ∀ x ∈ rest, x.fits s.aw = true) :
    (s.withHost rest).Inv := by
  rw [inv_iff_parts] at *
  obtain ⟨m, e, c⟩ := h
  exact ⟨⟨m.awRange, m.wf, m.inside, m.outputs, hr⟩, e, c⟩

theorem hostWrite_inv {a : Nat} {v : Byte} {s : State} (h : s.Inv) (ha : a < 2 ^ s.aw) : (hostWrite a v s).Inv := by
  apply markAccess_inv
  rw [inv_iff_parts] at *
  obtain ⟨m, e, c⟩ := h
  exact ⟨m.write (bs := [v]) (.inr (by simpa using ha)), e, c⟩

theorem hostRead_inv {a : Nat} {s : State} (h : s.Inv) : (hostRead a s).Inv := by
  unfold hostRead
  split
  · apply markAccess_inv
    rw [inv_iff_parts] at *
    exact h
  · rw [inv_iff_parts] at *
    exact h

end Sys2Proof.Machine
end

