-- ==== Sys2Proof/Laws/PerInstr.lean ====
section
/-! SUPPORT. What is true of every command as syntax, one lemma per constructor of Instr. -/

namespace Sys2Proof.Laws.CmdWord

/-- The CMD word of a command has ZERO = 0 and ENG = its port's engine, so that ENG alone names the port, and its OPC is ENG and
FN (R72, R74); and its operands are well-formed exactly when both addresses fit. -/
def Statement (i : Instr) : Prop :=
  cmdZero i.cmd = 0 ∧ cmdEng i.cmd = i.port.eng ∧ cmdOpc i.cmd = cmdEng i.cmd ++ cmdFn i.cmd ∧
  (encode i).route = i.port ∧
  ∀ aw : Nat, i.wellFormed aw = (Addr.fits aw i.src && Addr.fits aw i.dst)

theorem sm3Hash (src : Addr) (len : Len) (dst : Addr) : Statement (.sm3Hash src len dst) :=
  ⟨by simp only [Instr.cmd]; decide, by simp only [Instr.cmd, Instr.port]; decide, by simp only [Instr.cmd]; decide,
    if_neg (by decide : ¬cmdEng 0x10 = 0x2), fun _ => rfl⟩

theorem sm4SetKey (src : Addr) (len : Len) (dst : Addr) : Statement (.sm4SetKey src len dst) :=
  ⟨by simp only [Instr.cmd]; decide, by simp only [Instr.cmd, Instr.port]; decide, by simp only [Instr.cmd]; decide,
    if_pos (by decide : cmdEng 0x20 = 0x2), fun _ => rfl⟩

theorem sm4Enc (src : Addr) (len : Len) (dst : Addr) : Statement (.sm4Enc src len dst) :=
  ⟨by simp only [Instr.cmd]; decide, by simp only [Instr.cmd, Instr.port]; decide, by simp only [Instr.cmd]; decide,
    if_pos (by decide : cmdEng 0x21 = 0x2), fun _ => rfl⟩

theorem sm4Dec (src : Addr) (len : Len) (dst : Addr) : Statement (.sm4Dec src len dst) :=
  ⟨by simp only [Instr.cmd]; decide, by simp only [Instr.cmd, Instr.port]; decide, by simp only [Instr.cmd]; decide,
    if_pos (by decide : cmdEng 0x22 = 0x2), fun _ => rfl⟩

end Sys2Proof.Laws.CmdWord
end

