-- ==== Sys2Proof/Tests/Slice0.lean ====
section
/-! SUPPORT. Tests. Every expected value is taken from spec/95_test_vectors.md or worked out by hand from the rule named. The
theorems test_witness_<Name> show, for the statement Obligations.<Name>, a state and operands that meet all its hypotheses. -/

namespace Sys2Proof.Tests

open Sys2Proof Sys2Proof.Machine

/-! ### Well-formedness: each check refuses an operand of 2^AW -/

theorem test_wf_accepts : Instr.wellFormed 32 (.sm4Enc 0xFFFFFFFF 16 0) = true := by decide
theorem test_wf_hash_src : Instr.wellFormed 32 (.sm3Hash 0x100000000 0 0) = false := by decide
theorem test_wf_hash_dst : Instr.wellFormed 32 (.sm3Hash 0 0 0x100000000) = false := by decide
theorem test_wf_key_src : Instr.wellFormed 32 (.sm4SetKey 0x100000000 16 0) = false := by decide
theorem test_wf_key_dst : Instr.wellFormed 32 (.sm4SetKey 0 16 0x100000000) = false := by decide
theorem test_wf_enc_src : Instr.wellFormed 32 (.sm4Enc 0x100000000 16 0) = false := by decide
theorem test_wf_enc_dst : Instr.wellFormed 32 (.sm4Enc 0 16 0x100000000) = false := by decide
theorem test_wf_dec_src : Instr.wellFormed 32 (.sm4Dec 0x100000000 16 0) = false := by decide
theorem test_wf_dec_dst : Instr.wellFormed 32 (.sm4Dec 0 16 0x100000000) = false := by decide
theorem test_wf_descriptor_src : Descriptor.wellFormed 1 ⟨0x10, 2, 0, 0⟩ = false := by decide
theorem test_wf_descriptor_dst : Descriptor.wellFormed 1 ⟨0x10, 0, 0, 2⟩ = false := by decide

/-! ### Decoding: words written out from R72 (ZERO 31:8, ENG 7:4, FN 3:0), then SRC 63:32, LEN 127:64, DST 159:128 -/

theorem test_decode_hash :
    decodeTableWord 160 (0x00000200000000000000000300000100 * 2 ^ 32 + 0b00000000000000000000000000010000) =
      some (.sm3Hash 0x100 3 0x200) := by decide
theorem test_decode_setkey :
    decodeTableWord 160 (0x00000000000000000000001000000300 * 2 ^ 32 + 0b00000000000000000000000000100000) =
      some (.sm4SetKey 0x300 16 0) := by decide
theorem test_decode_enc :
    decodeTableWord 160 (0x00000500000000000000001000000400 * 2 ^ 32 + 0b00000000000000000000000000100001) =
      some (.sm4Enc 0x400 16 0x500) := by decide
theorem test_decode_dec :
    decodeTableWord 160 (0xFFFFFFFFFFFFFFFFFFFFFFFFFFFFFFFF * 2 ^ 32 + 0b00000000000000000000000000100010) =
      some (.sm4Dec 0xFFFFFFFF 0xFFFFFFFFFFFFFFFF 0xFFFFFFFF) := by decide
theorem test_decode_zero : decodeTableWord 32 0x00000000 = none := by decide
theorem test_decode_no_function : decodeTableWord 32 0x00000023 = none := by decide
theorem test_decode_zero_field : decodeTableWord 32 0x80000021 = none := by decide
theorem test_decode_rejects_by_name :
    decode .he ⟨0x00000022, 0, 0, 0⟩ = .error .otherEngine ∧ decode .ce ⟨0x00000010, 0, 0, 0⟩ = .error .otherEngine ∧
    decode .he ⟨0x00000011, 0, 0, 0⟩ = .error .noSuchFunction ∧ decode .ce ⟨0x00000120, 0, 0, 0⟩ = .error .zeroFieldNotZero := by
  decide
theorem test_render : Instr.render (.sm4SetKey 0x300 16 0) = "SM4.SETKEY 768, 16" := by decide

/-! ### Leaf units (95_test_vectors.md section 2) -/

theorem test_rotl : rotl 0x12345678 36 = 0x23456781 ∧ rotl 0x80000001 1 = 0x00000003 := by decide
theorem test_add : add32 0x7380166F 0xDA8A0600 = 0x4E0A1C6F := by decide
theorem test_ff : ff 0x7380166F 0x4914B2B9 0x172442D7 15 = 0x2DB0E601 ∧ ff 0x7380166F 0x4914B2B9 0x172442D7 16 = 0x530412FF := by
  decide
theorem test_gg : gg 0x7380166F 0x4914B2B9 0x172442D7 15 = 0x2DB0E601 ∧ gg 0x7380166F 0x4914B2B9 0x172442D7 16 = 0x452452B9 := by
  decide
theorem test_p : p0 0xC067DEBB = 0xB2AD29F4 ∧ p1 0xC067DEBB = 0x72DA0D67 := by decide
theorem test_tj : tj 15 = 0x228CBCE6 ∧ tj 16 = 0x9D8A7A87 ∧ tj 33 = 0xF50F3B14 := by decide
theorem test_sbox : sbox 0x0F = 0x05 ∧ sbox 0x80 = 0xEA ∧ sbox 0xC3 = 0x92 ∧ sbox 0xFF = 0x48 := by decide
theorem test_tau : tau 0x12345678 = 0x9AC9DA4C := by decide
theorem test_linear : lin 0x12345678 = 0xAA4E9357 ∧ linKey 0x12345678 = 0xA4F24E15 := by decide
theorem test_t : roundT 0x12345678 = 0xF32F23E8 ∧ roundTKey 0x12345678 = 0x87CD2DF8 := by decide
theorem test_be64 : be64 440 = [0, 0, 0, 0, 0, 0, 0x01, 0xB8] := by decide
theorem test_padding : padZeros 55 = 0 ∧ blockCount 55 = 1 ∧ padZeros 56 = 63 ∧ blockCount 56 = 2 ∧
    blockCount 2305843009213693951 = 36028797018963969 := by decide

/-! ### States to start from -/

/-- The state with `bs` written to BUF from address `a` on. -/
def put (a : Nat) (bs : List Byte) (s : State) : State := { s with buf := memWrite s.buf a bs }

/-- The state a command leaves; the same state where it would stop. -/
def run (i : Instr) (s : State) : State :=
  match exec i s with
  | .next t => t
  | .fault _ => s
  | .refused _ => s

/-- The state a step leaves; the same state where it would stop. -/
def stepped (s : State) : State :=
  match step s with
  | .next t => t
  | .fault _ => s
  | .refused _ => s

/-- The key and the plaintext of the standard vector (section 1.3). -/
def block0 : List Byte :=
  [0x01, 0x23, 0x45, 0x67, 0x89, 0xAB, 0xCD, 0xEF, 0xFE, 0xDC, 0xBA, 0x98, 0x76, 0x54, 0x32, 0x10]

/-- Its ciphertext. -/
def cipher0 : List Byte :=
  [0x68, 0x1E, 0xDF, 0x34, 0xD2, 0x06, 0x96, 0x5E, 0x86, 0xB3, 0xE9, 0x4F, 0x53, 0x6E, 0x42, 0x46]

/-- "abc" at 0x100, the key at 0x300, the block at 0x400 and its ciphertext at 0x440, no key set. -/
def loaded : State := put 0x100 [0x61, 0x62, 0x63] (put 0x300 block0 (put 0x400 block0 (put 0x440 cipher0 State.reset)))

/-- The same with the key's schedule in place. -/
def keyed : State := { loaded with ce := { CipherEngine.reset with rk := keyExp block0, keyValid := true } }

/-- Both engines at work on disjoint ranges, at the phases given. -/
def working (hq : HSeq) (cq : CSeq) : State :=
  { keyed with
    he := { HashEngine.reset with hsrc := 0x100, hlen := 3, hdst := 0x200, seq := hq, status := ⟨true, false, none⟩ }
    ce := { keyed.ce with cop := opcEnc, csrc := 0x400, clen := 16, cdst := 0x500, seq := cq, status := ⟨true, false, none⟩ }
    heInFlight := true
    ceInFlight := true }

/-! ### The commands (sections 3 to 7) -/

theorem test_hash_abc :
    memRead (run (.sm3Hash 0x100 3 0x200) loaded).buf 0x200 32 =
      [0x66, 0xC7, 0xF0, 0xF4, 0x62, 0xEE, 0xED, 0xD9, 0xD1, 0xF2, 0xD4, 0x6B, 0xDC, 0x10, 0xE4, 0xE2,
       0x41, 0x67, 0xC4, 0x87, 0x5C, 0xF2, 0xF7, 0xA2, 0x29, 0x7D, 0xA0, 0x2B, 0x8F, 0x4B, 0xA8, 0xE0] := by
  decide +kernel

/-- A message of 64 bytes, two blocks after padding: "abcd" 16 times (source example E3). -/
theorem test_hash_two_blocks :
    (sm3 ((List.replicate 16 [0x61, 0x62, 0x63, 0x64]).flatten)).take 8 = [0xDE, 0xBE, 0x9F, 0xF9, 0x22, 0x75, 0xB8, 0xA1] := by
  decide +kernel

/-- Program P4: HE_STATUS after MessageTooLong. -/
theorem test_hash_too_long : (run (.sm3Hash 0x100 0x2000000000000000 0x200) loaded).lastStatus = 0x00000042 := by decide

/-- rk[0] and rk[31] of the standard key (section 5). -/
theorem test_setkey_schedule :
    (run (.sm4SetKey 0x300 16 0) loaded).ce.rk[0] = 0xF12186F9 ∧
    (run (.sm4SetKey 0x300 16 0) loaded).ce.rk[31] = 0x9124A012 ∧
    (run (.sm4SetKey 0x300 16 0) loaded).lastStatus = 0x00000006 := by
  decide +kernel

/-- Program P4: InvalidKeyLength with the old key still valid. -/
theorem test_setkey_length : (run (.sm4SetKey 0x300 15 0) keyed).lastStatus = 0x00000016 := by decide +kernel

theorem test_enc_vector : memRead (run (.sm4Enc 0x400 16 0x500) keyed).buf 0x500 16 = cipher0 := by decide +kernel

/-- Program P4: NoKey before InvalidInputLength, whatever LEN is. -/
theorem test_enc_no_key : (run (.sm4Enc 0x400 0 0x500) loaded).lastStatus = 0x00000032 := by decide

/-- In place (R62). -/
theorem test_dec_in_place : memRead (run (.sm4Dec 0x440 16 0x440) keyed).buf 0x440 16 = block0 := by decide +kernel

/-- BufferOverlap (R188): two blocks, DST one block further. -/
theorem test_dec_overlap : (run (.sm4Dec 0x400 32 0x410) keyed).lastStatus = 0x00000076 := by decide +kernel

/-- Program P4: SM3.HASH at the cipher port, then SM4.DEC at the hash port. -/
theorem test_other_port :
    (stepped { keyed with host := [.command .ce ⟨0x10, 0x400, 16, 0x500⟩] }).lastStatus = 0x00000056 ∧
    (stepped { keyed with host := [.command .he ⟨0x22, 0x400, 16, 0x500⟩] }).lastStatus = 0x00000052 := by decide +kernel

/-- A table word is run by the very next step: SM4.ENC after reset ends with NoKey (R184). -/
theorem test_fetch_word : (stepped (State.reset.withFetchWord 32 0x21)).lastStatus = 0x00000032 := by decide

/-- The engine's last step writes the digest that V holds, here the initial vector (R129 EMIT, R54). -/
theorem test_emit_step :
    memRead (hashStep { working (.emit 0) .kload with he := { (working (.emit 0) .kload).he with v := ivState } }).buf 0x200 8 =
      [0x73, 0x80, 0x16, 0x6F, 0x49, 0x14, 0xB2, 0xB9] := by decide +kernel

/-- A byte the host writes into the message of a running command marks it (R65). -/
theorem test_duty_broken : (hostWrite 0x102 0 (working (.load 0) (.bload 0))).heDisturbed = true ∧
    (hostWrite 0x103 0 (working (.load 0) (.bload 0))).heDisturbed = false := by decide +kernel

/-- A write of the value an unlisted byte reads as removes the entry. -/
theorem test_memory_canonical : ((Memory.write [] 5 7).write 5 0) = [] := by decide

/-! ### Legal states for the witnesses -/

theorem loaded_inv : loaded.Inv := by
  rw [inv_iff_parts]
  exact ⟨⟨by decide, by decide, by decide, by decide, by decide⟩,
    ⟨by decide, by decide, by decide, by decide, by decide, by decide, trivial⟩,
    ⟨by decide, by decide, by decide, by decide, by decide, by decide, trivial⟩⟩

theorem keyed_inv : keyed.Inv := by
  rw [inv_iff_parts]
  exact ⟨⟨by decide, by decide, by decide, by decide, by decide⟩,
    ⟨by decide, by decide, by decide, by decide, by decide, by decide, trivial⟩,
    ⟨by decide, by decide, by decide, by decide, by decide, by decide, trivial⟩⟩

theorem working_inv {hq : HSeq} {cq : CSeq} (h1 : hq ≠ .idle) (h2 : cq ≠ .idle) (h3 : hq.legal 1)
    (h4 : cq.legal opcEnc 1) : (working hq cq).Inv := by
  rw [inv_iff_parts]
  refine ⟨((inv_iff_parts keyed).1 keyed_inv).1,
    ⟨⟨rfl, rfl⟩, ⟨fun _ => h1, fun _ => rfl⟩, by simp [working, Status.legal], fun _ => rfl, fun _ => rfl,
      fun _ => (by decide : hashCheck 32 0x100 3 0x200 = none), ?_⟩,
    ⟨⟨rfl, rfl⟩, ⟨fun _ => h2, fun _ => rfl⟩, by simp [working, Status.legal], fun _ => rfl, fun _ => rfl,
      fun _ => .inr ⟨.inl rfl, (by decide : cryptCheck 32 true 0x400 16 0x500 = none)⟩, ?_⟩⟩
  rotate_left
  · have h6 : (16 : Len).toNat / Config.blockLen = 1 := by decide
    show cq.legal opcEnc ((16 : Len).toNat / Config.blockLen)
    rw [h6]
    exact h4
  have h5 : blockCount (3 : Len).toNat = 1 := by decide
  show hq.legal (blockCount (3 : Len).toNat)
  rw [h5]
  exact h3

theorem working_undisturbed (hq : HSeq) (cq : CSeq) (host : List HostAction) :
    ({ working hq cq with host := host } : State).Undisturbed :=
  ⟨rfl, rfl, (by decide : clash (some (hashInput 0x100 3, hashOutput 0x200))
    (some (cryptInput 0x400 16, cryptOutput 16 0x500)) = false)⟩

/-- `working` with actions to come. -/
def workingThen (hq : HSeq) (cq : CSeq) (host : List HostAction) : State := { working hq cq with host := host }

theorem workingThen_inv {hq : HSeq} {cq : CSeq} {host : List HostAction} (h1 : hq ≠ .idle) (h2 : cq ≠ .idle)
    (h3 : hq.legal 1) (h4 : cq.legal opcEnc 1) (h5 : ∀ x ∈ host, x.fits 32 = true) : (workingThen hq cq host).Inv :=
  withHost_inv (working_inv h1 h2 h3 h4) h5

/-- SM3.HASH has ended, and the host has not seen DONE for it. -/
def hashed : State :=
  { keyed with
    he := { HashEngine.reset with hsrc := 0x100, hlen := 3, hdst := 0x200, status := ⟨false, true, none⟩ }
    heInFlight := true }

theorem hashed_inv : hashed.Inv := by
  rw [inv_iff_parts]
  exact ⟨((inv_iff_parts keyed).1 keyed_inv).1,
    ⟨by decide, by decide, by decide, by decide, by decide, fun _ => (by decide : hashCheck 32 0x100 3 0x200 = none),
      trivial⟩, ((inv_iff_parts keyed).1 keyed_inv).2.2⟩

/-- The next SM3.HASH, refused or accepted, clears DONE of one the host has not seen: its digest is not valid (R217); it is once
the host has seen DONE of a later command that writes there. -/
theorem test_unseen_result :
    notValid 0x21F (issueAt .he ⟨0x11, 0, 0, 0⟩ hashed) = true ∧
    notValid 0x21F (hostReadStatus .he (issueAt .he ⟨0x11, 0, 0, 0⟩ hashed)) = true ∧
    notValid 0x21F (run (.sm3Hash 0x100 3 0x800) hashed) = true ∧
    notValid 0x220 (run (.sm3Hash 0x100 3 0x800) hashed) = false ∧
    notValid 0x210 (run (.sm3Hash 0x100 3 0x210) hashed) = false ∧
    notValid 0x20F (run (.sm3Hash 0x100 3 0x210) hashed) = true ∧
    notValid 0x200 (hostReadStatus .he hashed) = false := by decide +kernel

/-- A WAIT on an engine that was never issued a command does not hold up the other (R220). -/
theorem test_wait_blocks_nobody :
    (stepped { working .idle (.bload 0) with he := HashEngine.reset, heInFlight := false, host := [.wait .he] }).ce.seq =
      .round 0 0 := by decide +kernel

/-- The state a step answers exists where this holds. -/
def steps (s : State) : Bool :=
  match step s with
  | .next _ => true
  | .fault _ => false
  | .refused _ => false

theorem step_of_steps {s : State} (h : steps s = true) : ∃ t, step s = .next t := by
  unfold steps at h
  split at h
  · exact ⟨_, by assumption⟩
  · cases h
  · cases h

/-! ### Witnesses -/

theorem test_witness_DecodeAndEncodeAgree :
    ((1 ≤ 1 ∧ 1 ≤ 64 ∧ Instr.wellFormed 1 (.sm4Enc 1 0xFFFFFFFFFFFFFFFF 1) = true) ∧
     (1 ≤ 64 ∧ 64 ≤ 64 ∧ Instr.wellFormed 64 (.sm3Hash 0xFFFFFFFFFFFFFFFF 0 0xFFFFFFFFFFFFFFFF) = true)) ∧
    Port.ce ≠ (Instr.sm3Hash 0 0 0).port ∧ decode .ce ⟨0x22, 1, 2, 3⟩ = .ok (.sm4Dec 1 2 3) := by decide

/-- Each kind of action; a WAIT on an engine that is done, that is busy, and that is neither. -/
theorem test_witness_StepRunsDecodedCommand :
    ((keyed.withHost [.command .ce ⟨0x21, 0x400, 16, 0x500⟩]).host = .command .ce ⟨0x21, 0x400, 16, 0x500⟩ :: [] ∧
      decode .ce ⟨0x21, 0x400, 16, 0x500⟩ = .ok (.sm4Enc 0x400 16 0x500)) ∧
    ((keyed.withHost [.issue .he ⟨0x10, 0, 0, 0⟩]).host = .issue .he ⟨0x10, 0, 0, 0⟩ :: [] ∧
      busyOf .he (keyed.withHost [.issue .he ⟨0x10, 0, 0, 0⟩]) = false ∧ decode .he ⟨0x10, 0, 0, 0⟩ = .ok (.sm3Hash 0 0 0)) ∧
    (workingThen (.emit 0) (.bload 0) [.engine .he]).host = .engine .he :: [] ∧
    ((hashed.withHost [.wait .he]).host = .wait .he :: [] ∧ doneOf .he (hashed.withHost [.wait .he]) = true) ∧
    ((workingThen (.emit 0) (.bload 0) [.wait .ce]).host = .wait .ce :: [] ∧
      doneOf .ce (workingThen (.emit 0) (.bload 0) [.wait .ce]) = false ∧
      busyOf .ce (workingThen (.emit 0) (.bload 0) [.wait .ce]) = true) ∧
    ((keyed.withHost [.wait .he]).host = .wait .he :: [] ∧ doneOf .he (keyed.withHost [.wait .he]) = false ∧
      busyOf .he (keyed.withHost [.wait .he]) = false) ∧ keyed.host = [] := by
  exact ⟨⟨rfl, by decide⟩, ⟨rfl, rfl, by decide⟩, rfl, ⟨rfl, rfl⟩, ⟨rfl, rfl, rfl⟩, ⟨rfl, rfl, rfl⟩, rfl⟩

theorem test_witness_UnknownCommandIsIllegal :
    (busyOf .he keyed = false ∧ (Port.he = .he → (0x00000022 : BitVec 32) ≠ 0x00000010) ∧
      (keyed.withHost [.issue .he ⟨0x22, 0, 0, 0⟩]).host = .issue .he ⟨0x22, 0, 0, 0⟩ :: []) ∧
    busyOf .ce keyed = false ∧
    (Port.ce = .ce → (0x00000023 : BitVec 32) ≠ 0x00000020 ∧ (0x00000023 : BitVec 32) ≠ 0x00000021 ∧
      (0x00000023 : BitVec 32) ≠ 0x00000022) ∧
    (keyed.withHost [.command .ce ⟨0x23, 0, 0, 0⟩]).host = .command .ce ⟨0x23, 0, 0, 0⟩ :: [] :=
  ⟨⟨rfl, fun _ => by decide, rfl⟩, rfl, fun _ => by decide, rfl⟩

theorem test_witness_IssueWaitsWhileBusy :
    (workingThen (.load 0) (.bload 0) [.issue .he ⟨0x10, 0, 0, 0⟩]).host = .issue .he ⟨0x10, 0, 0, 0⟩ :: [] ∧
    busyOf .he (workingThen (.load 0) (.bload 0) [.issue .he ⟨0x10, 0, 0, 0⟩]) = true := ⟨rfl, rfl⟩

theorem test_witness_EveryStepKeepsLegality :
    (workingThen (.round 0 63) (.bstore 0) [.engine .he, .issue .ce ⟨0xFFFFFFFF, 0xFFFFFFFF, 0, 0xFFFFFFFF⟩]).Inv :=
  workingThen_inv (by simp) (by simp) (by decide : (0 : Nat) < 1) ⟨by decide, by decide⟩ (by decide)

theorem test_witness_EveryCommandKeepsLegality :
    (working (.emit 0) (.round 0 31)).Inv ∧ Instr.wellFormed (working (.emit 0) (.round 0 31)).aw
      (.sm4Dec 0x400 16 0xFFFFFFFF) = true :=
  ⟨working_inv (by simp) (by simp) rfl ⟨by decide, by decide⟩, by decide +kernel⟩

theorem test_witness_AddressWidthIsConstant : ∃ t, step (keyed.withHost [.readByte 0xFFFFFFFF]) = .next t :=
  step_of_steps (by decide +kernel)

theorem test_witness_IdleMachineKeepsItsState :
    keyed.Inv ∧ keyed.host = [] ∧ keyed.he.status.busy = false ∧ keyed.ce.status.busy = false :=
  ⟨keyed_inv, rfl, rfl, rfl⟩

theorem test_witness_ResetInputAnyTime :
    (workingThen (.emit 0) (.bload 0) [.reset]).host = .reset :: [] ∧
    (keyed.withHost [.reset]).host = .reset :: [] ∧ (keyed.withHost [.reset]).he.seq = .idle ∧
    (keyed.withHost [.reset]).ce.seq = .idle := ⟨rfl, rfl, rfl, rfl⟩

theorem test_witness_ResetWhileBusyLeavesOldOrNew :
    ∃ s t rest, s.Inv ∧ s.Undisturbed ∧ s.host = .reset :: rest ∧ step s = .next t ∧
      (¬(s.he.status.busy = true ∧ (hashOutput s.he.hdst).has 0x1FF = true) ∧
       ¬(s.ce.status.busy = true ∧ s.ce.cop ≠ opcSetKey ∧ (cryptOutput s.ce.clen s.ce.cdst).has 0x510 = true)) ∧
      (s.he.status.busy = true ∧ (hashOutput s.he.hdst).has 0x21F = true) ∧
      (s.ce.status.busy = true ∧ s.ce.cop ≠ opcSetKey ∧ (cryptOutput s.ce.clen s.ce.cdst).has 0x50F = true) := by
  refine ⟨workingThen (.emit 0) (.round 0 5) [.reset], _, [], workingThen_inv (by simp) (by simp) rfl
    ⟨by decide, by decide⟩ (by decide), working_undisturbed _ _ _, rfl, rfl, ?_⟩
  decide +kernel

theorem test_witness_ErrorEntry :
    keyed.he.status.busy = false ∧ keyed.ce.status.busy = false ∧ keyed.ce.keyValid = true ∧
    loaded.ce.status.busy = false ∧ loaded.ce.keyValid = false := ⟨rfl, rfl, rfl, rfl, rfl⟩

/-- The boundaries of the checks of SM3.HASH. -/
theorem test_checks_hash :
    hashCheck 64 0 (BitVec.ofNat 64 (2 ^ 61)) 0 = some .messageTooLong ∧
    hashCheck 64 0 (BitVec.ofNat 64 (2 ^ 61 - 1)) 0 = none ∧
    hashCheck 32 0xFFFFFFFF 1 0 = none ∧ hashCheck 32 0xFFFFFFFF 2 0 = some .addressRange ∧
    hashCheck 32 0xFFFFFFFF 0 0xFFFFFFE0 = none ∧ hashCheck 32 0 0 0xFFFFFFE1 = some .addressRange := by decide

/-- The boundaries of the checks of SM4.SETKEY. -/
theorem test_checks_key :
    keyCheck 32 0 15 = some .invalidKeyLength ∧ keyCheck 32 0 17 = some .invalidKeyLength ∧
    keyCheck 32 0xFFFFFFF0 16 = none ∧ keyCheck 32 0xFFFFFFF1 16 = some .addressRange := by decide

/-- The order and the boundaries of the checks of SM4.ENC and SM4.DEC. -/
theorem test_checks_crypt :
    cryptCheck 32 false 0 0 0 = some .noKey ∧ cryptCheck 32 true 0 0 0 = some .invalidInputLength ∧
    cryptCheck 32 true 0xFFFFFFFF 17 0 = some .invalidInputLength ∧
    cryptCheck 32 true 0xFFFFFFF8 16 0xFFFFFFF0 = some .addressRange ∧
    cryptCheck 32 true 0 32 31 = some .bufferOverlap ∧ cryptCheck 32 true 0 32 32 = none ∧
    cryptCheck 32 true 32 32 1 = some .bufferOverlap ∧ cryptCheck 32 true 32 32 0 = none ∧
    cryptCheck 32 true 0xFFFFFFF0 16 0xFFFFFFF0 = none := by decide

/-- Each of the six errors a check can give. -/
theorem test_witness_RefusedCommandChangesNothingElse :
    busyOf .he keyed = false ∧ busyOf .ce keyed = false ∧ busyOf .ce loaded = false ∧
    instrCheck keyed.aw keyed.ce.keyValid (.sm3Hash 0 0x2000000000000000 0) = some .messageTooLong ∧
    instrCheck keyed.aw keyed.ce.keyValid (.sm3Hash 0 0 0xFFFFFFFF) = some .addressRange ∧
    instrCheck keyed.aw keyed.ce.keyValid (.sm4SetKey 0 0 0) = some .invalidKeyLength ∧
    instrCheck loaded.aw loaded.ce.keyValid (.sm4Dec 0 0 0) = some .noKey ∧
    instrCheck keyed.aw keyed.ce.keyValid (.sm4Enc 0 1 0) = some .invalidInputLength ∧
    instrCheck keyed.aw keyed.ce.keyValid (.sm4Dec 0 16 1) = some .bufferOverlap := by decide +kernel

theorem test_witness_AcceptanceLatchesTheFields :
    (busyOf (Instr.sm3Hash 0x100 3 0x200).port keyed = false ∧
      instrCheck keyed.aw keyed.ce.keyValid (.sm3Hash 0x100 3 0x200) = none ∧ dutyKept (.sm3Hash 0x100 3 0x200) keyed) ∧
    (busyOf (Instr.sm4SetKey 0x300 16 7).port keyed = false ∧
      instrCheck keyed.aw keyed.ce.keyValid (.sm4SetKey 0x300 16 7) = none ∧ dutyKept (.sm4SetKey 0x300 16 7) keyed) ∧
    busyOf (Instr.sm4Dec 0x400 16 0x400).port keyed = false ∧
      instrCheck keyed.aw keyed.ce.keyValid (.sm4Dec 0x400 16 0x400) = none ∧
      dutyKept (.sm4Dec 0x400 16 0x400) keyed := by
  simp only [dutyKept]
  decide +kernel

/-- A host access while both engines work, and a call to the other engine. -/
theorem test_witness_LatchedFieldsStayWhileBusy :
    (∃ s t, step s = .next t ∧ s.host.head? ≠ some .reset ∧ (∀ p d rest, s.host ≠ .command p d :: rest) ∧
      s.he.status.busy = true ∧ s.ce.status.busy = true) ∧
    ∃ s t, step s = .next t ∧ s.host = .command .he ⟨0x10, 0, 0, 0x900⟩ :: [] ∧ s.host.head? ≠ some .reset ∧
      (∀ d rest, s.host ≠ .command .ce d :: rest) ∧ s.ce.status.busy = true :=
  ⟨⟨workingThen (.feed 0) (.bstore 0) [.writeByte 0x100 1], _, rfl, by decide, (fun _ _ _ h => by cases h), rfl, rfl⟩,
    workingThen (.feed 0) (.bstore 0) [.command .he ⟨0x10, 0, 0, 0x900⟩], _, rfl, rfl, by decide,
    (fun _ _ h => by cases h), rfl⟩

theorem test_witness_StatusReadHasNoSideEffect :
    (workingThen (.feed 0) (.bstore 0) [.readStatus .ce]).host = .readStatus .ce :: [] := rfl

/-- An ordinary message, the empty one at any SRC, and ranges that end at the end of BUF. -/
theorem test_witness_HashCommandResult :
    (loaded.buf.wf ∧ loaded.he.status.busy = false ∧ dutyKept (.sm3Hash 0x100 3 0x200) loaded ∧
      (3 : Len).toNat < 2 ^ 61 ∧ ((3 : Len).toNat = 0 ∨ (0x100 : Addr).toNat + (3 : Len).toNat ≤ 2 ^ loaded.aw) ∧
      (0x200 : Addr).toNat + 32 ≤ 2 ^ loaded.aw) ∧
    (dutyKept (.sm3Hash 0xFFFFFFFF 0 0xFFFFFFE0) loaded ∧ (0 : Len).toNat < 2 ^ 61 ∧
      ((0 : Len).toNat = 0 ∨ (0xFFFFFFFF : Addr).toNat + (0 : Len).toNat ≤ 2 ^ loaded.aw) ∧
      (0xFFFFFFE0 : Addr).toNat + 32 ≤ 2 ^ loaded.aw) ∧
    dutyKept (.sm3Hash 0xFFFFFFFF 1 0xFFFFFFE0) loaded ∧
      ((1 : Len).toNat = 0 ∨ (0xFFFFFFFF : Addr).toNat + (1 : Len).toNat ≤ 2 ^ loaded.aw) := by
  simp only [dutyKept]
  decide +kernel

/-- Accepted and refused. -/
theorem test_witness_HashCommandFrame :
    loaded.buf.wf ∧ loaded.he.status.busy = false ∧ dutyKept (.sm3Hash 0x100 3 0x200) loaded ∧
    (∃ t, exec (.sm3Hash 0x100 3 0x200) loaded = .next t) ∧
    dutyKept (.sm3Hash 0x100 3 0xFFFFFFFF) loaded ∧ hashCheck loaded.aw 0x100 3 0xFFFFFFFF ≠ none ∧
    ∃ t, exec (.sm3Hash 0x100 3 0xFFFFFFFF) loaded = .next t :=
  ⟨by decide +kernel, rfl, dutyKept_of_none rfl rfl, ⟨_, rfl⟩, dutyKept_of_none rfl rfl, by decide +kernel, ⟨_, rfl⟩⟩

theorem test_witness_DigestDependsOnMessageAlone :
    loaded.buf.wf ∧ (put 0x700 [0x61, 0x62, 0x63] keyed).buf.wf ∧ loaded.he.status.busy = false ∧
    (put 0x700 [0x61, 0x62, 0x63] keyed).he.status.busy = false ∧ dutyKept (.sm3Hash 0x100 3 0x200) loaded ∧
    dutyKept (.sm3Hash 0x700 3 0x900) (put 0x700 [0x61, 0x62, 0x63] keyed) ∧
    hashCheck loaded.aw 0x100 3 0x200 = none ∧ hashCheck keyed.aw 0x700 3 0x900 = none ∧
    memRead loaded.buf 0x100 3 = memRead (put 0x700 [0x61, 0x62, 0x63] keyed).buf 0x700 3 ∧
    (∃ t, exec (.sm3Hash 0x100 3 0x200) loaded = .next t) ∧
    ∃ t, exec (.sm3Hash 0x700 3 0x900) (put 0x700 [0x61, 0x62, 0x63] keyed) = .next t :=
  ⟨by decide +kernel, by decide +kernel, rfl, rfl, dutyKept_of_none rfl rfl, dutyKept_of_none rfl rfl, by decide +kernel,
    by decide +kernel, by decide +kernel,
    ⟨_, rfl⟩, ⟨_, rfl⟩⟩

theorem test_witness_UnusedFieldsAreIgnored :
    (loaded.he.status.busy = false ∧ dutyKept (.sm3Hash 1 0 0x200) loaded ∧
      (∃ t, exec (.sm3Hash 1 0 0x200) loaded = .next t) ∧ ∃ t, exec (.sm3Hash 0xFFFFFFFF 0 0x200) loaded = .next t) ∧
    loaded.ce.status.busy = false ∧ dutyKept (.sm4SetKey 0x300 16 0) loaded ∧
      (∃ t, exec (.sm4SetKey 0x300 16 0) loaded = .next t) ∧
      ∃ t, exec (.sm4SetKey 0x300 16 0xFFFFFFFF) loaded = .next t :=
  ⟨⟨rfl, dutyKept_of_none rfl rfl, ⟨_, rfl⟩, ⟨_, rfl⟩⟩, rfl, dutyKept_of_none rfl rfl, ⟨_, rfl⟩, ⟨_, rfl⟩⟩

theorem test_witness_HashInternalStepsMeetTheCommand : loaded.Inv ∧ loaded.he.status.busy = false := ⟨loaded_inv, rfl⟩

/-- The last message of one block and the first of two. -/
theorem test_witness_HashTakesItsStepCount :
    loaded.Inv ∧ loaded.he.status.busy = false ∧ hashCheck loaded.aw 0 55 0x200 = none ∧
    hashCheck loaded.aw 0 56 0x200 = none ∧ 67 < 67 * (((55 : Len).toNat + 72) / 64) + 1 ∧
    134 < 67 * (((56 : Len).toNat + 72) / 64) + 1 :=
  ⟨loaded_inv, rfl, by decide +kernel, by decide +kernel, by decide, by decide⟩

/-- The key at 0x300, and one that ends at the end of BUF. -/
theorem test_witness_SetKeyCommandResult :
    loaded.ce.status.busy = false ∧ dutyKept (.sm4SetKey 0x300 16 0) loaded ∧ (16 : Len).toNat = 16 ∧
    (0x300 : Addr).toNat + 16 ≤ 2 ^ loaded.aw ∧ dutyKept (.sm4SetKey 0xFFFFFFF0 16 0xFFFFFFFF) loaded ∧
    (0xFFFFFFF0 : Addr).toNat + 16 ≤ 2 ^ loaded.aw := by
  simp only [dutyKept]
  decide +kernel

theorem test_witness_SetKeyCommandFrame :
    keyed.ce.status.busy = false ∧ dutyKept (.sm4SetKey 0x300 16 0) keyed ∧
    (∃ t, exec (.sm4SetKey 0x300 16 0) keyed = .next t) ∧ dutyKept (.sm4SetKey 0x300 15 0) keyed ∧
    keyCheck keyed.aw 0x300 15 ≠ none ∧ ∃ t, exec (.sm4SetKey 0x300 15 0) keyed = .next t :=
  ⟨rfl, dutyKept_of_none rfl rfl, ⟨_, rfl⟩, dutyKept_of_none rfl rfl, by decide +kernel, ⟨_, rfl⟩⟩

/-- In place, after the input with no gap, and before it with no gap at the end of BUF. -/
theorem test_witness_EncryptCommandResult :
    keyed.buf.wf ∧ keyed.ce.status.busy = false ∧ dutyKept (.sm4Enc 0x400 16 0x400) keyed ∧
    dutyKept (.sm4Enc 0x400 16 0x410) keyed ∧ dutyKept (.sm4Enc 0xFFFFFFF0 16 0xFFFFFFE0) keyed ∧
    keyed.ce.keyValid = true ∧ (16 : Len).toNat ≠ 0 ∧ (16 : Len).toNat % 16 = 0 ∧
    (0xFFFFFFF0 : Addr).toNat + (16 : Len).toNat ≤ 2 ^ keyed.aw ∧
    (0x400 : Addr).toNat + (16 : Len).toNat ≤ (0x410 : Addr).toNat ∧
    (0xFFFFFFE0 : Addr).toNat + (16 : Len).toNat ≤ (0xFFFFFFF0 : Addr).toNat := by
  simp only [dutyKept]
  decide +kernel

theorem test_witness_DecryptCommandResult :
    keyed.buf.wf ∧ keyed.ce.status.busy = false ∧ dutyKept (.sm4Dec 0x440 16 0x440) keyed ∧
    dutyKept (.sm4Dec 0x440 32 0x460) keyed ∧ keyed.ce.keyValid = true ∧ (32 : Len).toNat ≠ 0 ∧
    (32 : Len).toNat % 16 = 0 ∧ (0x460 : Addr).toNat + (32 : Len).toNat ≤ 2 ^ keyed.aw ∧
    (0x440 : Addr).toNat + (32 : Len).toNat ≤ (0x460 : Addr).toNat := by
  simp only [dutyKept]
  decide +kernel

theorem test_witness_CryptCommandFrame :
    keyed.buf.wf ∧ keyed.ce.status.busy = false ∧ dutyKept (.sm4Enc 0x400 16 0x500) keyed ∧
    (∃ t, exec (.sm4Enc 0x400 16 0x500) keyed = .next t) ∧ dutyKept (.sm4Dec 0x400 15 0x500) keyed ∧
    cryptCheck keyed.aw keyed.ce.keyValid 0x400 15 0x500 ≠ none ∧ ∃ t, exec (.sm4Dec 0x400 15 0x500) keyed = .next t :=
  ⟨by decide +kernel, rfl, dutyKept_of_none rfl rfl, ⟨_, rfl⟩, dutyKept_of_none rfl rfl, by decide +kernel, ⟨_, rfl⟩⟩

theorem test_witness_DecryptUndoesEncrypt :
    ∃ t u, exec (.sm4Enc 0x400 16 0x500) keyed = .next t ∧ exec (.sm4Dec 0x500 16 0x600) t = .next u ∧
      keyed.buf.wf ∧ keyed.ce.status.busy = false ∧ dutyKept (.sm4Enc 0x400 16 0x500) keyed ∧
      dutyKept (.sm4Dec 0x500 16 0x600) t ∧ instrCheck keyed.aw keyed.ce.keyValid (.sm4Enc 0x400 16 0x500) = none ∧
      instrCheck t.aw t.ce.keyValid (.sm4Dec 0x500 16 0x600) = none := by
  refine ⟨run (.sm4Enc 0x400 16 0x500) keyed, _, rfl, rfl, ?_⟩
  simp only [dutyKept]
  decide +kernel

theorem test_witness_KeyInternalStepsMeetTheCommand : loaded.Inv ∧ loaded.ce.status.busy = false := ⟨loaded_inv, rfl⟩

theorem test_witness_CryptInternalStepsMeetTheCommand : keyed.Inv ∧ keyed.ce.status.busy = false := ⟨keyed_inv, rfl⟩

theorem test_witness_CipherTakesItsStepCount :
    keyed.Inv ∧ keyed.ce.status.busy = false ∧
    ((Instr.sm4SetKey 0x300 16 0).port = .ce ∧ instrCheck keyed.aw keyed.ce.keyValid (.sm4SetKey 0x300 16 0) = none ∧
      33 = (if (Instr.sm4SetKey 0x300 16 0).cmd = 0x00000020 then 33 else 34 * ((16 : Len).toNat / 16))) ∧
    (Instr.sm4Dec 0x400 32 0x500).port = .ce ∧ instrCheck keyed.aw keyed.ce.keyValid (.sm4Dec 0x400 32 0x500) = none ∧
      68 = (if (Instr.sm4Dec 0x400 32 0x500).cmd = 0x00000020 then 33 else 34 * ((32 : Len).toNat / 16)) :=
  ⟨keyed_inv, rfl, by decide +kernel⟩

/-- The Block Cipher Engine at work, the Hash Engine idle. -/
def cipherWorking : State :=
  { working (.load 0) (.bload 0) with he := HashEngine.reset, heInFlight := false }

theorem cipherWorking_inv : cipherWorking.Inv := by
  have h := (inv_iff_parts (working (.load 0) (.bload 0))).1
    (working_inv (by simp) (by simp) (by decide : (0 : Nat) < 1) ⟨by decide, by decide⟩)
  rw [inv_iff_parts]
  exact ⟨h.1, ((inv_iff_parts keyed).1 keyed_inv).2.1, h.2.2⟩

/-- The duty kept; broken, the digest's place being the running command's input; and broken, the message being an unseen digest. -/
theorem test_witness_AcceptedCommandAlwaysEnds :
    cipherWorking.Inv ∧ busyOf .he cipherWorking = false ∧
    (instrCheck cipherWorking.aw cipherWorking.ce.keyValid (.sm3Hash 0x100 3 0x200) = none ∧
      dutyKept (.sm3Hash 0x100 3 0x200) cipherWorking) ∧
    instrCheck cipherWorking.aw cipherWorking.ce.keyValid (.sm3Hash 0x100 3 0x400) = none ∧
    ¬dutyKept (.sm3Hash 0x100 3 0x400) cipherWorking ∧
    ((instrSpans (.sm3Hash 0x100 3 0x400)).2.has 0x420 = false ∧
      (∀ x ∈ otherSpans .he cipherWorking, x.2.has 0x420 = false) ∧
      ∀ u ∈ (supersede .he cipherWorking).unseen, u.has 0x420 = false) ∧
    hashed.Inv ∧ ¬dutyKept (.sm3Hash 0x200 3 0x800) hashed ∧
    instrCheck hashed.aw hashed.ce.keyValid (.sm3Hash 0x200 3 0x800) = none ∧
    ∀ u ∈ (supersede .he hashed).unseen, u.has 0x220 = false := by
  simp only [dutyKept]
  exact ⟨cipherWorking_inv, rfl, by decide +kernel, by decide +kernel, by decide +kernel, by decide +kernel, hashed_inv,
    by decide +kernel, by decide +kernel, by decide +kernel⟩

theorem test_witness_CommandWaitsForBusyEngine :
    (working (.round 0 7) (.bload 0)).Inv ∧ busyOf (Instr.sm3Hash 0 0 0).port (working (.round 0 7) (.bload 0)) = true ∧
    busyOf (Instr.sm4SetKey 0 0 0).port (working (.round 0 7) (.bload 0)) = true :=
  ⟨working_inv (by simp) (by simp) (by decide : (0 : Nat) < 1) ⟨by decide, by decide⟩, rfl, rfl⟩

theorem test_witness_OnlyResetClearsKeyValid :
    ∃ t, step (keyed.withHost [.command .ce ⟨0x20, 0x300, 15, 0⟩]) = .next t ∧ keyed.ce.keyValid = true ∧
      (keyed.withHost [.command .ce ⟨0x20, 0x300, 15, 0⟩]).host.head? ≠ some .reset :=
  ⟨_, rfl, rfl, by decide⟩

theorem test_witness_OnlySetKeyWritesTheSchedule :
    (∃ t, (workingThen (.emit 0) (.bstore 0) [.writeByte 0x700 1]).Undisturbed ∧
      nextKeepsDuty (workingThen (.emit 0) (.bstore 0) [.writeByte 0x700 1]) ∧
      (workingThen (.emit 0) (.bstore 0) [.writeByte 0x700 1]).host.head? ≠ some .reset ∧
      (workingThen (.emit 0) (.bstore 0) [.writeByte 0x700 1]).ce.seq ≠ .kload ∧
      (∀ r, (workingThen (.emit 0) (.bstore 0) [.writeByte 0x700 1]).ce.seq ≠ .kround r) ∧
      (∀ d rest, (workingThen (.emit 0) (.bstore 0) [.writeByte 0x700 1]).host = .command .ce d :: rest →
        d.cmd ≠ 0x00000020) ∧ step (workingThen (.emit 0) (.bstore 0) [.writeByte 0x700 1]) = .next t) ∧
    (nextKeepsDuty (keyed.withHost [.command .he ⟨0x10, 0x100, 3, 0x200⟩]) ∧
      (keyed.withHost [.command .he ⟨0x10, 0x100, 3, 0x200⟩]).Undisturbed) ∧
    ((∀ r, (working (.emit 0) (.bstore 0)).ce.seq ≠ .kround r) ∧ (working (.emit 0) (.bstore 0)).Undisturbed) ∧
    (∀ src len dst, Instr.sm3Hash 0x100 3 0x200 ≠ .sm4SetKey src len dst) ∧ keyed.ce.status.busy = false ∧
    keyed.he.status.busy = false ∧ dutyKept (.sm3Hash 0x100 3 0x200) keyed ∧
    ∃ t, exec (.sm3Hash 0x100 3 0x200) keyed = .next t := by
  refine ⟨⟨_, working_undisturbed _ _ _, ⟨?_, ?_, ?_, ?_⟩, by decide, (fun h => by cases h), (fun _ h => by cases h),
      (fun _ _ h => by cases h), rfl⟩,
    ⟨⟨?_, ?_, ?_, ?_⟩, rfl, rfl, rfl⟩,
    ⟨(fun _ h => by cases h), working_undisturbed _ _ _⟩, (fun _ _ _ h => by cases h), rfl, rfl,
    dutyKept_of_none rfl rfl, ⟨_, rfl⟩⟩
  · intro a v rest h
    cases h
    exact ⟨rfl, rfl, fun _ h => by cases h⟩
  · intro a rest h; cases h
  · intro p d rest i h; cases h
  · intro p d rest i h; cases h
  · intro a v rest h; cases h
  · intro a rest h; cases h
  · intro p d rest i h; cases h
  · intro p d rest i h hd
    cases h
    have hi : i = .sm3Hash 0x100 3 0x200 := by
      have := hd.symm.trans (by decide : decode .he ⟨0x10, 0x100, 3, 0x200⟩ = .ok (.sm3Hash 0x100 3 0x200))
      injection this
    subst hi
    exact dutyKept_of_none rfl rfl

theorem test_witness_EngineStepsCommute :
    ((working (.emit 0) (.bstore 0)).Inv ∧ (working (.emit 0) (.bstore 0)).Undisturbed) ∧
    (working (.load 0) (.bload 0)).Inv ∧ (working (.load 0) (.bload 0)).Undisturbed :=
  ⟨⟨working_inv (by simp) (by simp) rfl ⟨by decide, by decide⟩, working_undisturbed _ _ _⟩,
    working_inv (by simp) (by simp) (by decide : (0 : Nat) < 1) ⟨by decide, by decide⟩, working_undisturbed _ _ _⟩

/-- With V not zero the digest's first byte changes; with X not zero the output block's. -/
theorem test_witness_EngineStepsWriteTheirOutputOnly :
    (working (.emit 0) (.bstore 0)).buf.wf ∧ (working (.emit 0) (.bstore 0)).Undisturbed ∧
    (hashStep { working (.emit 0) (.bstore 0) with he := { (working (.emit 0) (.bstore 0)).he with v := ivState } }).buf.read 0x200 ≠
      (working (.emit 0) (.bstore 0)).buf.read 0x200 ∧
    (cipherStep { working (.emit 0) (.bstore 0) with
      ce := { (working (.emit 0) (.bstore 0)).ce with x := ⟨1, 1, 1, 1⟩ } }).buf.read 0x50F ≠
      (working (.emit 0) (.bstore 0)).buf.read 0x50F :=
  ⟨by decide +kernel, working_undisturbed _ _ _, by decide +kernel, by decide +kernel⟩

/-- The last byte of BUF with no command in flight, and a byte that a running command does not touch. -/
theorem test_witness_HostReadsWhatItWrote :
    ((keyed.withHost [.writeByte 0xFFFFFFFF 9, .readByte 0xFFFFFFFF]).buf.wf ∧ (0xFFFFFFFF : Addr).toNat < 2 ^ keyed.aw ∧
      accessKept (0xFFFFFFFF : Addr).toNat true (keyed.withHost [.writeByte 0xFFFFFFFF 9, .readByte 0xFFFFFFFF]) ∧
      (keyed.withHost [.writeByte 0xFFFFFFFF 9, .readByte 0xFFFFFFFF]).host =
        .writeByte 0xFFFFFFFF 9 :: .readByte 0xFFFFFFFF :: []) ∧
    accessKept (0x103 : Addr).toNat true (workingThen (.load 0) (.bload 0) [.writeByte 0x103 9, .readByte 0x103]) :=
  ⟨⟨by decide +kernel, by decide +kernel, ⟨rfl, rfl, fun _ h => by cases h⟩, rfl⟩, by decide +kernel, by decide +kernel,
    fun _ h => by cases h⟩

/-- A byte of the call's digest; a byte outside an unseen one; a byte of an unseen digest; and its issue forgotten. -/
theorem test_witness_DoneMakesTheResultVisible :
    (∃ t, exec (.sm3Hash 0x100 3 0x200) (keyed.withHost [.readByte 0x200]) = .next t ∧
      t.host = .readByte 0x200 :: [] ∧ (0x200 : Addr).toNat < 2 ^ t.aw ∧
      busyOf .he (keyed.withHost [.readByte 0x200]) = false ∧
      (∀ x ∈ otherSpans .he (keyed.withHost [.readByte 0x200]), x.2.has (0x200 : Addr).toNat = false) ∧
      (instrCheck keyed.aw keyed.ce.keyValid (.sm3Hash 0x100 3 0x200) = none ∧
        (instrSpans (.sm3Hash 0x100 3 0x200)).2.has (0x200 : Addr).toNat = true) ∧
      (keyed.withHost [.readByte 0x200]).Inv) ∧
    (∃ t, exec (.sm3Hash 0x100 3 0x200) (hashed.withHost [.readByte 0x300]) = .next t ∧
      (hashed.withHost [.readByte 0x300]).Inv ∧
      ∀ u ∈ (supersede .he (hashed.withHost [.readByte 0x300])).unseen, u.has (0x300 : Addr).toNat = false) ∧
    ((hashed.withHost [.readByte 0x21F]).host = .readByte 0x21F :: [] ∧ (0x21F : Addr).toNat < 2 ^ hashed.aw ∧
      notValid (0x21F : Addr).toNat (hashed.withHost [.readByte 0x21F]) = true) ∧
    ((hashed.withHost [.issue .he ⟨0x10, 0, 0, 0x800⟩]).host = .issue .he ⟨0x10, 0, 0, 0x800⟩ :: [] ∧
      busyOf .he (hashed.withHost [.issue .he ⟨0x10, 0, 0, 0x800⟩]) = false ∧
      ∃ x, spansOf .he (hashed.withHost [.issue .he ⟨0x10, 0, 0, 0x800⟩]) = some x ∧ x.2.has 0x21F = true) := by
  refine ⟨⟨run (.sm3Hash 0x100 3 0x200) (keyed.withHost [.readByte 0x200]), rfl, rfl, by decide +kernel, rfl,
      (fun _ h => by cases h), by decide +kernel, withHost_inv keyed_inv (by decide)⟩,
    ⟨_, rfl, withHost_inv hashed_inv (by decide), by decide +kernel⟩, ⟨rfl, by decide +kernel, by decide +kernel⟩,
    rfl, rfl, _, rfl, by decide +kernel⟩

/-- The first address BUF does not have, and the last one it has. -/
theorem test_witness_NoAddressBeyondTheBuffer :
    (keyed.withHost [.writeByte 0x100000000 1]).host = .writeByte 0x100000000 1 :: [] ∧
    2 ^ keyed.aw ≤ (0x100000000 : Addr).toNat ∧ (keyed.withHost [.readByte 0xFFFFFFFF]).host = .readByte 0xFFFFFFFF :: [] ∧
    (0xFFFFFFFF : Addr).toNat < 2 ^ keyed.aw :=
  ⟨rfl, by decide +kernel, rfl, by decide +kernel⟩

theorem test_witness_RotateMovesEveryBit : 31 < 32 ∧ 0 < 32 := by decide

theorem test_witness_BooleanFunctionsBitByBit : 15 < 16 ∧ 16 ≤ 16 ∧ 31 < 32 := by decide

theorem test_witness_MessageExpansionRecurrence :
    (∃ w, w = expand (blockWords [0x80])) ∧ 15 < 16 ∧ 16 < 68 ∧ 16 ≤ 16 ∧ 67 < 68 ∧ 63 < 64 := ⟨⟨_, rfl⟩, by decide⟩

/-- The windows of a key expansion, one after the other. -/
def windows (key : List Byte) : Nat → Words4
  | 0 => keyLoad key
  | n + 1 => (windows key n).shift (keyWord n (windows key n))

theorem test_witness_KeyScheduleRecurrence :
    ∃ x : Nat → Word, (∀ k, k < 4 → x k = wordOf block0 k ^^^ fk.getD k 0) ∧
      ∀ i, i < 32 → x (i + 4) = x i ^^^ roundTKey (x (i + 1) ^^^ x (i + 2) ^^^ x (i + 3) ^^^ ck i) := by
  refine ⟨fun i => (windows block0 i).w0, fun k hk => ?_, fun i _ => rfl⟩
  rcases k with _ | _ | _ | _ | k
  · rfl
  · rfl
  · rfl
  · rfl
  · omega

theorem test_witness_BlockInverse : block0.length = 16 ∧ (block0 ++ block0).length % 16 = 0 := ⟨rfl, rfl⟩

theorem test_witness_BlocksAreIndependent :
    (block0 ++ block0).length % 16 = 0 ∧ 0 < (block0 ++ block0).length / 16 ∧ 1 < (block0 ++ block0).length / 16 ∧
    cipherBlockAt (block0 ++ block0) 0 = cipherBlockAt (block0 ++ block0) 1 := by decide

theorem test_witness_PackingFormulas : 2 ^ 64 - 1 < 2 ^ 64 ∧ 0 < 8 ∧ 7 < 8 := by decide

theorem test_witness_EnginesAlwaysComeToRest :
    (workingThen (.emit 0) (.bload 0) [.issue .ce ⟨0x21, 0x400, 16, 0x500⟩, .wait .he, .reset, .wait .he]).Inv :=
  workingThen_inv (by simp) (by simp) rfl ⟨by decide, by decide⟩ (by decide)

theorem test_witness_CipherConstants : 31 < 32 ∧ 3 < 4 := by decide

end Sys2Proof.Tests
end

section
/-! SUPPORT. The frame of an internal step, and the address width under every operation of the machine; then the statements
of 00_scope.md. -/

namespace Sys2Proof.Machine

/-! ### The frame of an internal step -/

/-- An internal step of the Hash Engine keeps everything but its own registers, its mark, BUF and the free values' counter. -/
theorem hashStep_rest (s : State) :
    (hashStep s).aw = s.aw ∧ (hashStep s).ce = s.ce ∧ (hashStep s).host = s.host ∧ (hashStep s).lastByte = s.lastByte ∧
    (hashStep s).lastStatus = s.lastStatus ∧ (hashStep s).heInFlight = s.heInFlight ∧
    (hashStep s).ceInFlight = s.ceInFlight ∧ (hashStep s).ceDisturbed = s.ceDisturbed ∧
    (hashStep s).unseen = s.unseen := by
  cases hs : s.he.seq with
  | emit i => rw [hashStep_emit hs]; exact hashEmit_rest s
  | idle | load | expand | round | feed => simp [hashStep, hs]

/-- An internal step of the Block Cipher Engine keeps everything but its own registers, its mark, BUF and the free values'
counter. -/
theorem cipherStep_rest (s : State) :
    (cipherStep s).aw = s.aw ∧ (cipherStep s).he = s.he ∧ (cipherStep s).host = s.host ∧
    (cipherStep s).lastByte = s.lastByte ∧ (cipherStep s).lastStatus = s.lastStatus ∧
    (cipherStep s).heInFlight = s.heInFlight ∧ (cipherStep s).ceInFlight = s.ceInFlight ∧
    (cipherStep s).heDisturbed = s.heDisturbed ∧ (cipherStep s).unseen = s.unseen := by
  cases hs : s.ce.seq with
  | kround r =>
    by_cases hr : r.val + 1 < 32
    · simp [cipherStep, hs, hr]
    · simp [cipherStep, hs, hr, keyFinish_rest]
  | bstore b =>
    by_cases hb : b + 1 < cipherBlocks s
    · simp [cipherStep_store_more hs hb]
    · simp [cipherStep_store_last hs hb, cryptFinish_rest]
  | idle | kload | bload | round => simp [cipherStep, hs]

@[simp] theorem hashStep_aw (s : State) : (hashStep s).aw = s.aw := (hashStep_rest s).1

@[simp] theorem hashStep_ce (s : State) : (hashStep s).ce = s.ce := (hashStep_rest s).2.1

@[simp] theorem cipherStep_aw (s : State) : (cipherStep s).aw = s.aw := (cipherStep_rest s).1

@[simp] theorem cipherStep_he (s : State) : (cipherStep s).he = s.he := (cipherStep_rest s).2.1

/-! ### The address width (R20) -/

theorem SameControl.aw_eq {s t : State} (h : SameControl s t) : t.aw = s.aw := by
  obtain ⟨-, -, haw, -⟩ := h
  exact haw

@[simp] theorem hashSteps_aw (n : Nat) (s : State) : (hashSteps n s).aw = s.aw := by
  induction n generalizing s with
  | zero => rfl
  | succ n ih => rw [hashSteps, ih, hashStep_aw]

@[simp] theorem cipherSteps_aw (n : Nat) (s : State) : (cipherSteps n s).aw = s.aw := by
  induction n generalizing s with
  | zero => rfl
  | succ n ih => rw [cipherSteps, ih, cipherStep_aw]

@[simp] theorem awaitHash_aw (s : State) : (awaitHash s).aw = s.aw := by
  unfold awaitHash; split <;> simp

@[simp] theorem awaitCipher_aw (s : State) : (awaitCipher s).aw = s.aw := by
  unfold awaitCipher; split <;> simp

@[simp] theorem await_aw (p : Port) (s : State) : (await p s).aw = s.aw := by
  cases p <;> simp [await]

@[simp] theorem engineStep_aw (p : Port) (s : State) : (engineStep p s).aw = s.aw := by
  cases p <;> simp [engineStep]

@[simp] theorem hostReadStatus_aw (p : Port) (s : State) : (hostReadStatus p s).aw = s.aw := by
  cases p <;> simp

@[simp] theorem refuse_aw (p : Port) (e : CmdError) (s : State) : (refuse p e s).aw = s.aw := by
  cases p <;> simp [refuse]

@[simp] theorem acceptHash_aw (src : Addr) (len : Len) (dst : Addr) (s : State) :
    (acceptHash src len dst s).aw = s.aw :=
  (markClash_same .he _).aw_eq.trans (supersede_he_aw s)

@[simp] theorem acceptCipher_aw (cop : BitVec 8) (first : CSeq) (src : Addr) (len : Len) (dst : Addr) (s : State) :
    (acceptCipher cop first src len dst s).aw = s.aw :=
  (markClash_same .ce _).aw_eq.trans (supersede_ce_aw s)

@[simp] theorem runHash_aw (src : Addr) (len : Len) (dst : Addr) (s : State) : (runHash src len dst s).aw = s.aw := by
  unfold runHash; split <;> simp [hashEmit_rest]

@[simp] theorem runKey_aw (src : Addr) (len : Len) (dst : Addr) (s : State) : (runKey src len dst s).aw = s.aw := by
  unfold runKey; split <;> simp [keyFinish_rest]

@[simp] theorem runCrypt_aw (cop : BitVec 8) (dir : Direction) (src : Addr) (len : Len) (dst : Addr) (s : State) :
    (runCrypt cop dir src len dst s).aw = s.aw := by
  unfold runCrypt; split <;> simp [cryptFinish_rest]

/-- A command run as one call keeps AW, whether it is accepted or refused and whether its engine was busy. -/
theorem exec_aw {i : Instr} {s t : State} (h : exec i s = .next t) : t.aw = s.aw := by
  cases i with
  | sm3Hash src len dst => cases h; simp
  | sm4SetKey src len dst => cases h; simp
  | sm4Enc src len dst => cases h; simp
  | sm4Dec src len dst => cases h; simp

@[simp] theorem accept_aw (i : Instr) (s : State) : (accept i s).aw = s.aw := by
  cases i <;> simp [accept]

@[simp] theorem issueAt_aw (p : Port) (d : Descriptor) (s : State) : (issueAt p d s).aw = s.aw := by
  unfold issueAt issueInstr
  split
  · exact refuse_aw p _ s
  · split
    · exact refuse_aw _ _ s
    · exact accept_aw _ s

theorem runCommand_aw {p : Port} {d : Descriptor} {s t : State} (h : runCommand p d s = .next t) : t.aw = s.aw := by
  unfold runCommand at h
  split at h
  · exact exec_aw h
  · cases h; simp

@[simp] theorem hostWrite_aw (a : Nat) (v : Byte) (s : State) : (hostWrite a v s).aw = s.aw :=
  (markAccess_same a true _).aw_eq

@[simp] theorem hostRead_aw (a : Nat) (s : State) : (hostRead a s).aw = s.aw := by
  unfold hostRead
  split
  · exact (markAccess_same a false _).aw_eq
  · rfl

@[simp] theorem resetStep_aw (s : State) : (resetStep s).aw = s.aw := rfl

@[simp] theorem freeRun_aw (s : State) : (freeRun s).aw = s.aw := by
  unfold freeRun; split <;> simp

@[simp] theorem waitStep_aw (p : Port) (s : State) : (waitStep p s).aw = s.aw := by
  unfold waitStep; split <;> simp

/-- Every host action that does not stop the run keeps AW. -/
theorem hostStep_aw {act : HostAction} {rest : List HostAction} {s t : State} (h : hostStep act rest s = .next t) :
    t.aw = s.aw := by
  cases act with
  | writeByte a v =>
    simp only [hostStep] at h
    split at h
    · cases h; simp
    · cases h
  | readByte a =>
    simp only [hostStep] at h
    split at h
    · cases h; simp
    · cases h
  | command p d => exact (runCommand_aw h).trans (withHost_aw s rest)
  | issue p d =>
    cases h
    split <;> simp
  | wait p =>
    cases h
    split <;> simp
  | readStatus p => cases h; simp
  | engine p => cases h; simp
  | reset => cases h; simp

/-! ### The statements -/

/-- Settles O44: each half is part of the frame of that engine's internal step. -/
theorem enginesShareNoRegisters : Obligations.EnginesShareNoRegisters := by
  unfold Obligations.EnginesShareNoRegisters
  exact fun s => ⟨hashStep_ce s, cipherStep_he s⟩

/-- Settles O10: a step is a free run of the engines or the host's next action, and each keeps AW. -/
theorem addressWidthIsConstant : Obligations.AddressWidthIsConstant := by
  unfold Obligations.AddressWidthIsConstant
  intro s t h
  unfold step at h
  split at h
  · cases h; exact freeRun_aw s
  · exact hostStep_aw h

end Sys2Proof.Machine
end

section
/-! SUPPORT. What waiting keeps, the latched fields, the internal steps a command has left, and legality under whole commands,
the reset input and every host action; what one step can be, and what it keeps of KEYVALID and the schedule; then the statements
of 10_state.md. -/

namespace Sys2Proof.Machine

/-! ### Waiting -/

theorem hashSteps_keeps {P : State → Prop} (hstep : ∀ s, P s → P (hashStep s)) (n : Nat) {s : State} (h : P s) :
    P (hashSteps n s) := by
  induction n generalizing s with
  | zero => exact h
  | succ n ih => exact ih (hstep s h)

theorem cipherSteps_keeps {P : State → Prop} (hstep : ∀ s, P s → P (cipherStep s)) (n : Nat) {s : State} (h : P s) :
    P (cipherSteps n s) := by
  induction n generalizing s with
  | zero => exact h
  | succ n ih => exact ih (hstep s h)

/-- What every internal step of an engine keeps, waiting for that engine keeps. -/
theorem await_keeps {P : State → Prop} {p : Port} (hstep : ∀ s, P s → P (engineStep p s)) {s : State} (h : P s) :
    P (await p s) := by
  cases p with
  | he =>
    simp only [await, awaitHash]
    split
    · exact hashSteps_keeps hstep _ h
    · exact h
  | ce =>
    simp only [await, awaitCipher]
    split
    · exact cipherSteps_keeps hstep _ h
    · exact h

/-! ### The latched fields (R26, R34) -/

/-- The fields latched for the command of engine `p` are the same in both states. -/
def SameLatch (p : Port) (s t : State) : Prop :=
  match p with
  | .he => t.he.hsrc = s.he.hsrc ∧ t.he.hlen = s.he.hlen ∧ t.he.hdst = s.he.hdst
  | .ce => t.ce.cop = s.ce.cop ∧ t.ce.csrc = s.ce.csrc ∧ t.ce.clen = s.ce.clen ∧ t.ce.cdst = s.ce.cdst

theorem SameLatch.refl (p : Port) (s : State) : SameLatch p s s := by
  cases p <;> simp [SameLatch]

theorem SameLatch.trans {p : Port} {s t u : State} (h : SameLatch p s t) (g : SameLatch p t u) : SameLatch p s u := by
  cases p <;> simp_all [SameLatch]

/-- Registers that are kept whole are latched as before. -/
theorem SameLatch.of_eq {s t : State} (hhe : t.he = s.he) (hce : t.ce = s.ce) (p : Port) : SameLatch p s t := by
  cases p <;> simp [SameLatch, hhe, hce]

theorem SameControl.latch {s t : State} (h : SameControl s t) (p : Port) : SameLatch p s t := by
  obtain ⟨⟨-, -, hsrc, hlen, hdst⟩, ⟨-, -, cop, csrc, clen, cdst, -⟩, -⟩ := h
  cases p
  · exact ⟨hsrc, hlen, hdst⟩
  · exact ⟨cop, csrc, clen, cdst⟩

theorem hashEmit_latch (q : Port) (s : State) : SameLatch q s (hashEmit s) := by
  cases q <;> simp [SameLatch, hashEmit_control, hashEmit_rest]

theorem keyFinish_latch (q : Port) (s : State) : SameLatch q s (keyFinish s) := by
  cases q <;> simp [SameLatch, keyFinish_control, keyFinish_rest]

theorem cryptFinish_latch (q : Port) (s : State) : SameLatch q s (cryptFinish s) := by
  cases q <;> simp [SameLatch, cryptFinish_control, cryptFinish_rest]

theorem hashStep_latch (q : Port) (s : State) : SameLatch q s (hashStep s) := by
  cases hs : s.he.seq with
  | emit i => rw [hashStep_emit hs]; exact hashEmit_latch q s
  | idle | load | expand | round | feed => cases q <;> simp [SameLatch, hashStep, hs]

theorem cipherStep_latch (q : Port) (s : State) : SameLatch q s (cipherStep s) := by
  cases hs : s.ce.seq with
  | kround r =>
    by_cases hr : r.val + 1 < 32
    · cases q <;> simp [SameLatch, cipherStep, hs, hr]
    · simp only [cipherStep, hs, dif_neg hr]
      exact .trans (by cases q <;> simp [SameLatch]) (keyFinish_latch q (keyRoundStep r s))
  | bstore b =>
    by_cases hb : b + 1 < cipherBlocks s
    · rw [cipherStep_store_more hs hb]; cases q <;> simp [SameLatch]
    · rw [cipherStep_store_last hs hb]
      exact .trans (by cases q <;> simp [SameLatch]) (cryptFinish_latch q (blockStoreStep b s))
  | idle | kload | bload | round => cases q <;> simp [SameLatch, cipherStep, hs]

theorem engineStep_latch (p q : Port) (s : State) : SameLatch q s (engineStep p s) := by
  cases p
  · exact hashStep_latch q s
  · exact cipherStep_latch q s

theorem await_latch (p q : Port) (s : State) : SameLatch q s (await p s) :=
  await_keeps (P := SameLatch q s) (fun t h => h.trans (engineStep_latch p q t)) (.refl q s)

@[simp] theorem hostReadStatus_he (p : Port) (s : State) : (hostReadStatus p s).he = s.he := by
  cases p <;> simp

@[simp] theorem hostReadStatus_ce (p : Port) (s : State) : (hostReadStatus p s).ce = s.ce := by
  cases p <;> simp

theorem hostReadStatus_latch (p q : Port) (s : State) : SameLatch q s (hostReadStatus p s) :=
  .of_eq (hostReadStatus_he p s) (hostReadStatus_ce p s) q

theorem refuse_latch (p q : Port) (e : CmdError) (s : State) : SameLatch q s (refuse p e s) := by
  cases p <;> cases q <;> simp [SameLatch, refuse]

/-- Acceptance at one port keeps what the other engine has latched. -/
theorem acceptHash_latch (src : Addr) (len : Len) (dst : Addr) (s : State) :
    SameLatch .ce s (acceptHash src len dst s) :=
  .trans (by simp [SameLatch]) ((markClash_same .he _).latch .ce)

theorem acceptCipher_latch (cop : BitVec 8) (first : CSeq) (src : Addr) (len : Len) (dst : Addr) (s : State) :
    SameLatch .he s (acceptCipher cop first src len dst s) :=
  .trans (by simp [SameLatch]) ((markClash_same .ce _).latch .he)

theorem accept_latch {i : Instr} {q : Port} (hq : i.port ≠ q) (s : State) : SameLatch q s (accept i s) := by
  cases i <;> cases q <;> simp only [Instr.port, ne_eq, not_true_eq_false] at hq
  · exact acceptHash_latch ..
  · exact acceptCipher_latch ..
  · exact acceptCipher_latch ..
  · exact acceptCipher_latch ..

/-! ### The internal steps still to take (R129, R163, R219) -/

/-- The internal steps SM3.HASH has left in a phase, for a message of n blocks. -/
def HSeq.left (n : Nat) : HSeq → Nat
  | .idle => 0
  | .load i => 67 * (n - i) + 1
  | .expand i => 67 * (n - i)
  | .round i j => 67 * (n - i) - (1 + j.val)
  | .feed i => 67 * (n - i) - 65
  | .emit _ => 1

/-- The internal steps a cipher command has left in a phase, for nb blocks. -/
def CSeq.left (nb : Nat) : CSeq → Nat
  | .idle => 0
  | .kload => 33
  | .kround r => 32 - r.val
  | .bload b => 34 * (nb - b)
  | .round b r => 34 * (nb - b) - (1 + r.val)
  | .bstore b => 34 * (nb - b) - 33

theorem HSeq.left_le {n : Nat} {q : HSeq} (h : q.legal n) : q.left n ≤ 67 * n + 1 := by
  cases q <;> simp only [HSeq.left, HSeq.legal] at * <;> omega

theorem CSeq.left_le {cop : BitVec 8} {len : Nat} {q : CSeq} (h : q.legal cop (len / Config.blockLen)) :
    q.left (len / Config.blockLen) ≤ cipherStepCount cop len := by
  cases q with
  | idle => exact Nat.zero_le _
  | kload => rw [cipherStepCount, if_pos (show cop = opcSetKey from h), CSeq.left]
  | kround r =>
    rw [cipherStepCount, if_pos (show cop = opcSetKey from h), CSeq.left]
    omega
  | bload | round | bstore => simp only [cipherStepCount, if_neg h.1, CSeq.left]; omega

theorem HSeq.left_eq_zero {n : Nat} {q : HSeq} (h : q.legal n) (hq : q.left n = 0) : q = .idle := by
  cases q <;> simp only [HSeq.left, HSeq.legal] at * <;> omega

theorem CSeq.left_eq_zero {cop : BitVec 8} {nb : Nat} {q : CSeq} (h : q.legal cop nb) (hq : q.left nb = 0) :
    q = .idle := by
  cases q <;> simp only [CSeq.left, CSeq.legal] at * <;> omega

/-- Each internal step of a legal state leaves one step fewer. -/
theorem hashStep_left {s : State} (h : s.he.seq.legal (blockCount s.he.hlen.toNat)) :
    (hashStep s).he.seq.left (blockCount s.he.hlen.toNat) = s.he.seq.left (blockCount s.he.hlen.toNat) - 1 := by
  cases hs : s.he.seq with
  | emit i => rw [hashStep_emit hs, (hashEmit_control s).1]; rfl
  | idle => simp [hashStep, hs, HSeq.left]
  | load i => simp [hashStep, hs, HSeq.left]
  | expand i => simp [hashStep, hs, HSeq.left]
  | round i j =>
    rw [hs] at h
    simp only [HSeq.legal] at h
    simp only [hashStep, hs]
    split <;> simp only [HSeq.left] <;> omega
  | feed i =>
    rw [hs] at h
    simp only [HSeq.legal] at h
    simp only [hashStep, hs]
    split <;> simp only [HSeq.left] <;> omega

theorem cipherStep_left {s : State} (h : s.ce.seq.legal s.ce.cop (cipherBlocks s)) :
    (cipherStep s).ce.seq.left (cipherBlocks s) = s.ce.seq.left (cipherBlocks s) - 1 := by
  cases hs : s.ce.seq with
  | idle => simp [cipherStep, hs, CSeq.left]
  | kload => simp [cipherStep, hs, CSeq.left]
  | kround r =>
    by_cases hr : r.val + 1 < 32
    · simp only [cipherStep, hs, dif_pos hr, setCSeq_ce, CSeq.left]; omega
    · simp only [cipherStep, hs, dif_neg hr, keyFinish_control, CSeq.left]; omega
  | bload b => simp [cipherStep, hs, CSeq.left]
  | round b r =>
    rw [hs] at h
    simp only [CSeq.legal] at h
    simp only [cipherStep, hs]
    split <;> simp only [CSeq.left] <;> omega
  | bstore b =>
    rw [hs] at h
    simp only [CSeq.legal] at h
    by_cases hb : b + 1 < cipherBlocks s
    · simp only [cipherStep_store_more hs hb, setCSeq_ce, CSeq.left]; omega
    · simp only [cipherStep_store_last hs hb, cryptFinish_control, CSeq.left]; omega

/-- As many internal steps as are left bring a legal engine to rest. -/
theorem hashSteps_rest_of_left {n : Nat} {s : State} (h : s.Inv)
    (hn : s.he.seq.left (blockCount s.he.hlen.toNat) ≤ n) : (hashSteps n s).he.seq = .idle := by
  induction n generalizing s with
  | zero => exact HSeq.left_eq_zero h.hashSeq (Nat.le_zero.1 hn)
  | succ n ih =>
    refine ih (hashStep_inv h) ?_
    obtain ⟨-, hlen, -⟩ := hashStep_latch .he s
    rw [hlen, hashStep_left h.hashSeq]
    omega

theorem cipherSteps_rest_of_left {n : Nat} {s : State} (h : s.Inv) (hn : s.ce.seq.left (cipherBlocks s) ≤ n) :
    (cipherSteps n s).ce.seq = .idle := by
  induction n generalizing s with
  | zero => exact CSeq.left_eq_zero h.cipherSeq (Nat.le_zero.1 hn)
  | succ n ih =>
    refine ih (cipherStep_inv h) ?_
    obtain ⟨-, -, hlen, -⟩ := cipherStep_latch .ce s
    rw [show cipherBlocks (cipherStep s) = cipherBlocks s by rw [cipherBlocks, hlen, cipherBlocks],
      cipherStep_left h.cipherSeq]
    omega

/-! ### Legality under waiting and issue -/

theorem engineStep_inv {p : Port} {s : State} (h : s.Inv) : (engineStep p s).Inv := by
  cases p
  · exact hashStep_inv h
  · exact cipherStep_inv h

theorem await_inv {p : Port} {s : State} (h : s.Inv) : (await p s).Inv :=
  await_keeps (P := State.Inv) (fun _ => engineStep_inv) h

/-- In a legal state waiting ends: the engine waited for is not busy afterwards (R220). -/
theorem await_not_busy {p : Port} {s : State} (h : s.Inv) : busyOf p (await p s) = false := by
  have ht : (await p s).Inv := await_inv h
  cases p with
  | he =>
    by_cases hb : s.he.status.busy = true
    · have hq : (await .he s).he.seq = .idle := by
        simp only [await, awaitHash, if_pos hb]
        exact hashSteps_rest_of_left h (HSeq.left_le h.hashSeq)
      simpa [hq, busyOf] using ht.hashIdle
    · rw [await_idle] <;> simpa [busyOf] using hb
  | ce =>
    by_cases hb : s.ce.status.busy = true
    · have hq : (await .ce s).ce.seq = .idle := by
        simp only [await, awaitCipher, if_pos hb]
        exact cipherSteps_rest_of_left h (CSeq.left_le h.cipherSeq)
      simpa [hq, busyOf] using ht.cipherIdle
    · rw [await_idle] <;> simpa [busyOf] using hb

theorem Instr.wellFormed_eq (i : Instr) (aw : Nat) :
    i.wellFormed aw = (Addr.fits aw i.src && Addr.fits aw i.dst) := by
  cases i <;> rfl

theorem accept_inv {i : Instr} {s : State} (h : s.Inv) (hb : busyOf i.port s = false)
    (hw : i.wellFormed s.aw = true) (hc : instrCheck s.aw s.ce.keyValid i = none) : (accept i s).Inv := by
  rw [Instr.wellFormed_eq, Bool.and_eq_true] at hw
  obtain ⟨hsrc, hdst⟩ := hw
  cases i with
  | sm3Hash src len dst => exact acceptHash_inv h hb hsrc hdst hc
  | sm4SetKey src len dst => exact acceptCipher_inv h hb hsrc hdst (.inl ⟨rfl, hc, rfl⟩)
  | sm4Enc src len dst => exact acceptCipher_inv h hb hsrc hdst (.inr ⟨.inl rfl, hc, rfl⟩)
  | sm4Dec src len dst => exact acceptCipher_inv h hb hsrc hdst (.inr ⟨.inr rfl, hc, rfl⟩)

theorem issueInstr_inv {i : Instr} {s : State} (h : s.Inv) (hb : busyOf i.port s = false)
    (hw : i.wellFormed s.aw = true) : (issueInstr i s).Inv := by
  unfold issueInstr
  split
  · exact refuse_inv hb h
  · next hc => exact accept_inv h hb hw hc

/-- A command read from a descriptor that fits the port's wires fits them too. -/
theorem decode_wellFormed {p : Port} {d : Descriptor} {i : Instr} {aw : Nat} (h : decode p d = .ok i)
    (hd : d.wellFormed aw = true) : i.wellFormed aw = true := by
  obtain ⟨-, hsrc, -, hdst⟩ := decode_inv h
  rw [Instr.wellFormed_eq, hsrc, hdst]
  exact hd

theorem issueAt_inv {p : Port} {d : Descriptor} {s : State} (h : s.Inv) (hb : busyOf p s = false)
    (hd : d.wellFormed s.aw = true) : (issueAt p d s).Inv := by
  unfold issueAt
  split
  · exact refuse_inv hb h
  · next i hi =>
    exact issueInstr_inv h ((decode_inv hi).1 ▸ hb) (decode_wellFormed hi hd)

/-! ### Legality under whole commands -/

theorem cryptBlock_length (dir : Direction) (rk : Vector Word 32) (block : List Byte) :
    (cryptBlock dir rk block).length = 16 := by
  cases dir <;> exact blockStore_length _

/-- ECB answers a block for every whole block. -/
theorem ecb_length (dir : Direction) (rk : Vector Word 32) (p : List Byte) :
    (ecb dir rk p).length = 16 * (p.length / 16) := by
  simp [ecb, List.length_flatMap, cryptBlock_length, Nat.mul_comm]

theorem hashWork_inv {s : State} (h : s.Inv) : (hashWork s).Inv := by
  rw [inv_iff_parts] at *
  exact h

theorem keyWork_inv {s : State} (h : s.Inv) : (keyWork s).Inv := by
  rw [inv_iff_parts] at *
  exact h

theorem cryptWork_inv {dir : Direction} {s : State} (h : s.Inv) (hf : s.ceInFlight = true) (hk : s.ce.cop ≠ opcSetKey) :
    (cryptWork dir s).Inv := by
  rw [inv_iff_parts] at *
  obtain ⟨m, e, c⟩ := h
  obtain ⟨-, -, -, -, hroom, -⟩ := cryptCheck_none (State.CeOk.crypt c hf hk).2
  refine ⟨m.write (.inr ?_), e, c⟩
  rw [ecb_length, memRead_length]
  omega

/-- An accepted command's engine is busy. -/
theorem acceptHash_busy (src : Addr) (len : Len) (dst : Addr) (s : State) :
    (acceptHash src len dst s).he.status.busy = true := by
  obtain ⟨⟨-, hst, -⟩, -⟩ := markClash_same .he _
  rw [acceptHash, hst]; rfl

theorem acceptCipher_busy (cop : BitVec 8) (first : CSeq) (src : Addr) (len : Len) (dst : Addr) (s : State) :
    (acceptCipher cop first src len dst s).ce.status.busy = true := by
  obtain ⟨-, ⟨-, hst, -⟩, -⟩ := markClash_same .ce _
  rw [acceptCipher, hst]; rfl

theorem acceptCipher_cop (cop : BitVec 8) (first : CSeq) (src : Addr) (len : Len) (dst : Addr) (s : State) :
    (acceptCipher cop first src len dst s).ce.cop = cop := by
  obtain ⟨-, ⟨-, -, hcop, -⟩, -⟩ := markClash_same .ce _
  rw [acceptCipher, hcop]

theorem runHash_inv {src : Addr} {len : Len} {dst : Addr} {s : State} (h : s.Inv) (hb : s.he.status.busy = false)
    (hw : (Instr.sm3Hash src len dst).wellFormed s.aw = true) : (runHash src len dst s).Inv := by
  unfold runHash
  split
  · exact refuse_inv hb h
  · next hc =>
    exact hashEmit_inv (hashWork_inv (accept_inv (i := .sm3Hash src len dst) h hb hw hc)) (acceptHash_busy src len dst s)

theorem runKey_inv {src : Addr} {len : Len} {dst : Addr} {s : State} (h : s.Inv) (hb : s.ce.status.busy = false)
    (hw : (Instr.sm4SetKey src len dst).wellFormed s.aw = true) : (runKey src len dst s).Inv := by
  unfold runKey
  split
  · exact refuse_inv hb h
  · next hc =>
    exact keyFinish_inv (keyWork_inv (accept_inv (i := .sm4SetKey src len dst) h hb hw hc)) (acceptCipher_busy ..)
      (acceptCipher_cop ..)

/-- SM4.ENC and SM4.DEC, `hi` being the legality of the state that their acceptance leaves. -/
theorem runCrypt_inv {cop : BitVec 8} {dir : Direction} {src : Addr} {len : Len} {dst : Addr} {s : State} (h : s.Inv)
    (hb : s.ce.status.busy = false) (hk : cop ≠ opcSetKey)
    (hi : cryptCheck s.aw s.ce.keyValid src len dst = none → (acceptCipher cop (.bload 0) src len dst s).Inv) :
    (runCrypt cop dir src len dst s).Inv := by
  unfold runCrypt
  split
  · exact refuse_inv hb h
  · next hc =>
    have hbusy := acceptCipher_busy cop (.bload 0) src len dst s
    refine cryptFinish_inv (cryptWork_inv (hi hc) ((hi hc).cipherInFlight hbusy) ?_) hbusy
    rwa [acceptCipher_cop]

theorem exec_inv {i : Instr} {s : State} (h : s.Inv) (hw : i.wellFormed s.aw = true) :
    ∃ t, exec i s = .next t ∧ t.Inv := by
  have hi : (await i.port s).Inv := await_inv h
  have hb : busyOf i.port (await i.port s) = false := await_not_busy h
  have hw' : i.wellFormed (await i.port s).aw = true := by rwa [await_aw]
  cases i with
  | sm3Hash src len dst => exact ⟨_, rfl, hostReadStatus_inv (runHash_inv hi hb hw')⟩
  | sm4SetKey src len dst => exact ⟨_, rfl, hostReadStatus_inv (runKey_inv hi hb hw')⟩
  | sm4Enc src len dst =>
    exact ⟨_, rfl, hostReadStatus_inv (runCrypt_inv hi hb (by decide) (accept_inv (i := .sm4Enc src len dst) hi hb hw'))⟩
  | sm4Dec src len dst =>
    exact ⟨_, rfl, hostReadStatus_inv (runCrypt_inv hi hb (by decide) (accept_inv (i := .sm4Dec src len dst) hi hb hw'))⟩

theorem runCommand_inv {p : Port} {d : Descriptor} {s : State} (h : s.Inv) (hd : d.wellFormed s.aw = true) :
    ∃ t, runCommand p d s = .next t ∧ t.Inv := by
  unfold runCommand
  split
  · next i hi => exact exec_inv h (decode_wellFormed hi hd)
  · exact ⟨_, rfl, hostReadStatus_inv (refuse_inv (await_not_busy h) (await_inv h))⟩

/-! ### Legality under the reset input -/

theorem freeAddr_fits {aw : Nat} (haw : aw ≤ 64) (n : Nat) : Addr.fits aw (freeAddr aw n) = true := by
  have hlt : (Config.freeField n).toNat % 2 ^ aw < 2 ^ aw := Nat.mod_lt _ (Nat.two_pow_pos aw)
  have hle : 2 ^ aw ≤ 2 ^ 64 := Nat.pow_le_pow_right (by decide) haw
  simp only [Addr.fits, freeAddr, BitVec.toNat_ofNat, decide_eq_true_eq]
  omega

/-- What reset leaves where the Hash Engine's command was abandoned is a write inside BUF. -/
theorem hashAbortBuf_ok {s : State} (h : s.Inv) : MemoryOk s.aw (hashAbortBuf s) s.host s.unseen := by
  obtain ⟨m, e, -⟩ := (inv_iff_parts s).1 h
  have room : s.he.seq ≠ .idle → s.he.hdst.toNat + 32 ≤ 2 ^ s.aw := fun hq =>
    State.HeOk.room e (e.inFlight (e.idle.2 hq))
  have spoiled : s.he.seq ≠ .idle →
      MemoryOk s.aw (memWrite s.buf s.he.hdst.toNat (freeBytes s.draws Config.digestLen)) s.host s.unseen := fun hq =>
    m.write (.inr (by simpa using room hq))
  unfold hashAbortBuf
  cases hs : s.he.seq with
  | idle => exact m
  | emit i =>
    simp only
    split
    · exact spoiled (by simp [hs])
    · have := room (by simp [hs])
      exact m.write (.inr (by rw [List.length_take, digestOf_length]; omega))
  | load | expand | round | feed =>
    simp only
    split
    · exact spoiled (by simp [hs])
    · exact m

/-- What reset leaves where SM4.ENC or SM4.DEC was abandoned at block b is a write inside BUF. -/
theorem cryptAbortBuf_ok {s : State} {m : Memory} {b : Nat} (hroom : s.ce.cdst.toNat + s.ce.clen.toNat ≤ 2 ^ s.aw)
    (hm : MemoryOk s.aw m s.host s.unseen) : MemoryOk s.aw (cryptAbortBuf b m s) s.host s.unseen := by
  unfold cryptAbortBuf
  split
  · exact hm.write (.inr (by simpa using hroom))
  · exact hm.write (by simp only [mixBytes_length, memRead_length]; omega)

theorem cipherAbortBuf_ok {s : State} {m : Memory} (h : s.Inv) (hm : MemoryOk s.aw m s.host s.unseen) :
    MemoryOk s.aw (cipherAbortBuf m s) s.host s.unseen := by
  obtain ⟨-, -, c⟩ := (inv_iff_parts s).1 h
  have room : s.ce.seq ≠ .idle → s.ce.cop ≠ opcSetKey → s.ce.cdst.toNat + s.ce.clen.toNat ≤ 2 ^ s.aw := by
    intro hq hk
    obtain ⟨-, -, -, -, hroom, -⟩ := cryptCheck_none (State.CeOk.crypt c (c.inFlight (c.idle.2 hq)) hk).2
    exact hroom
  have hl := h.cipherSeq
  unfold cipherAbortBuf
  cases hs : s.ce.seq with
  | idle | kload | kround => exact hm
  | bload b | round b r | bstore b =>
    rw [hs] at hl
    exact cryptAbortBuf_ok (room (by simp [hs]) hl.1) hm

/-- The records after a reset are earlier ones, or those of a command that had ended: they lie in BUF. -/
theorem unseenAfterReset_inside {s : State} (h : s.Inv) :
    ∀ u ∈ unseenAfterReset s, ∀ o ∈ u.outputs, o.a + o.n ≤ 2 ^ s.aw := by
  have key : ∀ (p : Port) (t : State), busyOf p s = busyOf p t → t.Inv ∧ t.aw = s.aw →
      (if busyOf p s then t else supersede p t).Inv ∧ (if busyOf p s then t else supersede p t).aw = s.aw := by
    rintro p t hp ⟨ht, haw⟩
    split
    · exact ⟨ht, haw⟩
    · next hb => exact ⟨supersede_inv (by rw [← hp]; simpa using hb) ht, by cases p <;> simpa using haw⟩
  have h1 := key .he s rfl ⟨h, rfl⟩
  have h2 := key .ce _ (by split <;> simp [busyOf]) h1
  intro u hu o ho
  rw [← h2.2]
  exact h2.1.unseenInside u (List.mem_filter.1 hu).1 o ho

theorem resetStep_inv {s : State} (h : s.Inv) : (resetStep s).Inv := by
  have hm := cipherAbortBuf_ok h (hashAbortBuf_ok h)
  have hf := freeAddr_fits h.awRange.2
  rw [inv_iff_parts]
  refine ⟨⟨hm.awRange, hm.wf, hm.inside, unseenAfterReset_inside h, hm.fits⟩,
    ⟨⟨hf _, hf _⟩, ?_, ?_, ?_, ?_, ?_, trivial⟩, ⟨⟨hf _, hf _⟩, ?_, ?_, ?_, ?_, ?_, trivial⟩⟩ <;>
    simp [resetStep, hashAfterReset, cipherAfterReset, Status.reset, Status.legal]

/-! ### Legality under a step -/

theorem freeRun_inv {s : State} (h : s.Inv) : (freeRun s).Inv := by
  unfold freeRun
  split
  · exact hashStep_inv h
  · exact cipherStep_inv h

theorem waitStep_inv {p : Port} {s : State} (h : s.Inv) : (waitStep p s).Inv := by
  unfold waitStep
  split
  · exact engineStep_inv h
  · exact freeRun_inv h

@[simp] theorem busyOf_withHost (p : Port) (s : State) (rest : List HostAction) :
    busyOf p (s.withHost rest) = busyOf p s := by
  cases p <;> rfl

theorem hostStep_inv {act : HostAction} {rest : List HostAction} {s : State} (h : s.Inv)
    (hact : act.fits s.aw = true) (hrest : ∀ x ∈ rest, x.fits s.aw = true) :
    ∃ t, hostStep act rest s = .next t ∧ t.Inv := by
  have hr : (s.withHost rest).Inv := withHost_inv h hrest
  cases act with
  | writeByte a v =>
    have ha : a.toNat < 2 ^ s.aw := by simpa [HostAction.fits, Addr.fits] using hact
    exact ⟨_, if_pos ha, hostWrite_inv hr ha⟩
  | readByte a =>
    have ha : a.toNat < 2 ^ s.aw := by simpa [HostAction.fits, Addr.fits] using hact
    exact ⟨_, if_pos ha, hostRead_inv hr⟩
  | readStatus p => exact ⟨_, rfl, hostReadStatus_inv hr⟩
  | command p d => exact runCommand_inv hr hact
  | issue p d =>
    refine ⟨_, rfl, ?_⟩
    split
    · exact engineStep_inv h
    · next hb => exact issueAt_inv hr (by rwa [busyOf_withHost, ← Bool.not_eq_true]) hact
  | wait p =>
    refine ⟨_, rfl, ?_⟩
    split
    · exact hostReadStatus_inv hr
    · exact waitStep_inv (hostReadStatus_inv h)
  | engine p => exact ⟨_, rfl, engineStep_inv hr⟩
  | reset => exact ⟨_, rfl, resetStep_inv hr⟩

theorem step_inv {s : State} (h : s.Inv) : ∃ t, step s = .next t ∧ t.Inv := by
  have hf := h.hostFits
  unfold step
  split
  · exact ⟨_, rfl, freeRun_inv h⟩
  · next act rest hs =>
    rw [hs] at hf
    exact hostStep_inv h (hf act List.mem_cons_self) fun x hx => hf x (List.mem_cons_of_mem _ hx)

/-! ### What a step can be -/

/-- The results of one step from `s`: an internal step of an engine, taken from a state with `s`'s engines and marks (`s` itself,
with its action removed, or with the status just read by a waiting host), or what the host's next action makes. -/
inductive StepResult (s : State) : State → Prop where
  | engine (p : Port) (u : State) (hhe : u.he = s.he) (hce : u.ce = s.ce) (hmark : u.ceDisturbed = s.ceDisturbed) :
    StepResult s (engineStep p u)
  | status (p : Port) (rest : List HostAction) : StepResult s (hostReadStatus p (s.withHost rest))
  | write (a : Addr) (v : Byte) (rest : List HostAction) (hs : s.host = .writeByte a v :: rest) :
    StepResult s (hostWrite a.toNat v (s.withHost rest))
  | read (a : Addr) (rest : List HostAction) (hs : s.host = .readByte a :: rest) :
    StepResult s (hostRead a.toNat (s.withHost rest))
  | issue (p : Port) (d : Descriptor) (rest : List HostAction) (hs : s.host = .issue p d :: rest)
    (hb : busyOf p s = false) : StepResult s (issueAt p d (s.withHost rest))
  | command (p : Port) (d : Descriptor) (rest : List HostAction) (t : State) (hs : s.host = .command p d :: rest)
    (ht : runCommand p d (s.withHost rest) = .next t) : StepResult s t
  | reset (rest : List HostAction) (hs : s.host = .reset :: rest) : StepResult s (resetStep (s.withHost rest))

theorem freeRun_eq_engineStep (s : State) : ∃ p, freeRun s = engineStep p s := by
  unfold freeRun
  split
  · exact ⟨.he, rfl⟩
  · exact ⟨.ce, rfl⟩

theorem waitStep_eq_engineStep (p : Port) (s : State) : ∃ q, waitStep p s = engineStep q s := by
  unfold waitStep
  split
  · exact ⟨p, rfl⟩
  · exact freeRun_eq_engineStep s

theorem hostReadStatus_ceDisturbed (p : Port) (s : State) : (hostReadStatus p s).ceDisturbed = s.ceDisturbed := by
  cases p <;> simp

/-- Every step that does not stop the run has one of these results. -/
theorem step_result {s t : State} (h : step s = .next t) : StepResult s t := by
  unfold step at h
  split at h
  · obtain ⟨p, hp⟩ := freeRun_eq_engineStep s
    cases h
    rw [hp]
    exact .engine p s rfl rfl rfl
  · next act rest hs =>
    cases act with
    | writeByte a v =>
      simp only [hostStep] at h
      split at h <;> cases h
      exact .write a v rest hs
    | readByte a =>
      simp only [hostStep] at h
      split at h <;> cases h
      exact .read a rest hs
    | readStatus p => cases h; exact .status p rest
    | command p d => exact .command p d rest t hs h
    | issue p d =>
      cases h
      split
      · exact .engine p s rfl rfl rfl
      · next hb => exact .issue p d rest hs (by simpa using hb)
    | wait p =>
      cases h
      split
      · exact .status p rest
      · obtain ⟨q, hq⟩ := waitStep_eq_engineStep p (hostReadStatus p s)
        rw [hq]
        exact .engine q _ (hostReadStatus_he p s) (hostReadStatus_ce p s) (hostReadStatus_ceDisturbed p s)
    | engine p => cases h; exact .engine p _ rfl rfl rfl
    | reset => cases h; exact .reset rest hs

/-! ### What a step keeps of the latched fields -/

theorem hostWrite_same (a : Nat) (v : Byte) (s : State) : SameControl s (hostWrite a v s) :=
  markAccess_same a true { s with buf := s.buf.write a v }

/-- A host read keeps what a breach keeps, but for the byte read. -/
theorem hostRead_same (a : Nat) (s : State) : ∃ b, SameControl { s with lastByte := b } (hostRead a s) := by
  unfold hostRead
  split
  · exact ⟨_, markAccess_same a false { s with lastByte := Config.freeByte s.draws, draws := s.draws + 1 }⟩
  · exact ⟨_, .refl _⟩

theorem issueAt_latch {p q : Port} (hq : p ≠ q) (d : Descriptor) (s : State) : SameLatch q s (issueAt p d s) := by
  unfold issueAt
  split
  · exact refuse_latch p q _ s
  · next i hi =>
    unfold issueInstr
    split
    · exact refuse_latch _ q _ s
    · exact accept_latch ((decode_inv hi).1 ▸ hq) s

theorem runHash_latch (src : Addr) (len : Len) (dst : Addr) (s : State) : SameLatch .ce s (runHash src len dst s) := by
  unfold runHash
  split
  · exact refuse_latch .he .ce _ s
  · refine (acceptHash_latch src len dst s).trans (.trans ?_ (hashEmit_latch .ce _))
    simp [SameLatch]

theorem runKey_latch (src : Addr) (len : Len) (dst : Addr) (s : State) : SameLatch .he s (runKey src len dst s) := by
  unfold runKey
  split
  · exact refuse_latch .ce .he _ s
  · refine (acceptCipher_latch opcSetKey .kload src len dst s).trans (.trans ?_ (keyFinish_latch .he _))
    simp [SameLatch]

theorem runCrypt_latch (cop : BitVec 8) (dir : Direction) (src : Addr) (len : Len) (dst : Addr) (s : State) :
    SameLatch .he s (runCrypt cop dir src len dst s) := by
  unfold runCrypt
  split
  · exact refuse_latch .ce .he _ s
  · refine (acceptCipher_latch cop (.bload 0) src len dst s).trans (.trans ?_ (cryptFinish_latch .he _))
    simp [SameLatch]

/-- A call to one engine keeps what the other has latched. -/
theorem exec_latch {i : Instr} {q : Port} {s t : State} (hq : i.port ≠ q) (h : exec i s = .next t) :
    SameLatch q s t := by
  have read : ∀ p u, SameLatch q (await i.port s) u → SameLatch q s (hostReadStatus p u) := fun p u hu =>
    ((await_latch i.port q s).trans hu).trans (hostReadStatus_latch p q u)
  cases i <;> cases q <;> simp only [Instr.port, ne_eq, not_true_eq_false] at hq <;> cases h <;> apply read
  · exact runHash_latch ..
  · exact runKey_latch ..
  · exact runCrypt_latch ..
  · exact runCrypt_latch ..

theorem runCommand_latch {p q : Port} {d : Descriptor} {s t : State} (hq : p ≠ q)
    (h : runCommand p d s = .next t) : SameLatch q s t := by
  unfold runCommand at h
  split at h
  · next i hi => exact exec_latch ((decode_inv hi).1 ▸ hq) h
  · cases h
    exact ((await_latch p q s).trans (refuse_latch p q _ _)).trans (hostReadStatus_latch p q _)

/-- No step but reset, or a call to that engine, changes the latched fields of a busy engine. -/
theorem step_latch {q : Port} {s t : State} (h : step s = .next t) (hreset : s.host.head? ≠ some .reset)
    (hb : busyOf q s = true) (hcall : ∀ d rest, s.host ≠ .command q d :: rest) : SameLatch q s t := by
  have taken := fun rest => SameLatch.of_eq (withHost_he s rest) (withHost_ce s rest) q
  cases step_result h with
  | engine p u hhe hce => exact (SameLatch.of_eq hhe hce q).trans (engineStep_latch p q u)
  | status p rest => exact (taken rest).trans (hostReadStatus_latch p q _)
  | write a v rest => exact (taken rest).trans ((hostWrite_same _ v _).latch q)
  | read a rest =>
    obtain ⟨b, hb⟩ := hostRead_same a.toNat (s.withHost rest)
    exact (taken rest).trans (.trans (.of_eq rfl rfl q) (hb.latch q))
  | issue p d rest _ hp =>
    have hq : p ≠ q := by rintro rfl; simp [hp] at hb
    exact (taken rest).trans (issueAt_latch hq d _)
  | command p d rest _ hs ht =>
    have hq : p ≠ q := by rintro rfl; exact hcall d rest hs
    exact (taken rest).trans (runCommand_latch hq ht)
  | reset rest hs => simp [hs] at hreset

/-! ### KEYVALID (R31) -/

theorem cipherStep_keyValid {s : State} (h : s.ce.keyValid = true) : (cipherStep s).ce.keyValid = true := by
  cases hs : s.ce.seq with
  | kround r =>
    by_cases hr : r.val + 1 < 32
    · simpa [cipherStep, hs, hr] using h
    · simp [cipherStep, hs, hr, keyFinish_control]
  | bstore b =>
    by_cases hb : b + 1 < cipherBlocks s
    · simpa [cipherStep_store_more hs hb] using h
    · simpa [cipherStep_store_last hs hb, cryptFinish_control] using h
  | idle | kload | bload | round => simpa [cipherStep, hs] using h

theorem engineStep_keyValid {p : Port} {s : State} (h : s.ce.keyValid = true) :
    (engineStep p s).ce.keyValid = true := by
  cases p
  · rwa [engineStep, hashStep_ce]
  · exact cipherStep_keyValid h

@[simp] theorem refuse_keyValid (p : Port) (e : CmdError) (s : State) : (refuse p e s).ce.keyValid = s.ce.keyValid := by
  cases p <;> simp [refuse]

theorem SameControl.keyValid_eq {s t : State} (h : SameControl s t) : t.ce.keyValid = s.ce.keyValid := by
  obtain ⟨-, ⟨-, -, -, -, -, -, hkv⟩, -⟩ := h
  exact hkv

@[simp] theorem acceptHash_keyValid (src : Addr) (len : Len) (dst : Addr) (s : State) :
    (acceptHash src len dst s).ce.keyValid = s.ce.keyValid :=
  (markClash_same .he _).keyValid_eq.trans (by simp)

@[simp] theorem acceptCipher_keyValid (cop : BitVec 8) (first : CSeq) (src : Addr) (len : Len) (dst : Addr) (s : State) :
    (acceptCipher cop first src len dst s).ce.keyValid = s.ce.keyValid :=
  (markClash_same .ce _).keyValid_eq

@[simp] theorem issueAt_keyValid (p : Port) (d : Descriptor) (s : State) :
    (issueAt p d s).ce.keyValid = s.ce.keyValid := by
  unfold issueAt
  split
  · exact refuse_keyValid p _ s
  · next i _ =>
    unfold issueInstr
    split
    · exact refuse_keyValid _ _ s
    · cases i <;> simp [accept]

@[simp] theorem runHash_keyValid (src : Addr) (len : Len) (dst : Addr) (s : State) :
    (runHash src len dst s).ce.keyValid = s.ce.keyValid := by
  unfold runHash; split <;> simp [hashEmit_rest]

theorem runKey_keyValid {src : Addr} {len : Len} {dst : Addr} {s : State} (h : s.ce.keyValid = true) :
    (runKey src len dst s).ce.keyValid = true := by
  unfold runKey; split <;> simp [keyFinish_control, h]

@[simp] theorem runCrypt_keyValid (cop : BitVec 8) (dir : Direction) (src : Addr) (len : Len) (dst : Addr) (s : State) :
    (runCrypt cop dir src len dst s).ce.keyValid = s.ce.keyValid := by
  unfold runCrypt; split <;> simp [cryptFinish_control]

theorem runCommand_keyValid {p : Port} {d : Descriptor} {s t : State} (h : runCommand p d s = .next t)
    (hk : s.ce.keyValid = true) : t.ce.keyValid = true := by
  have hw : ∀ q, (await q s).ce.keyValid = true := fun q =>
    await_keeps (P := fun u => u.ce.keyValid = true) (fun _ => engineStep_keyValid) hk
  unfold runCommand at h
  split at h
  · next i _ =>
    cases i <;> cases h <;> rw [hostReadStatus_ce]
    · rw [runHash_keyValid]; exact hw .he
    · exact runKey_keyValid (hw .ce)
    · rw [runCrypt_keyValid]; exact hw .ce
    · rw [runCrypt_keyValid]; exact hw .ce
  · cases h
    simpa using hw p

theorem step_keyValid {s t : State} (h : step s = .next t) (hk : s.ce.keyValid = true)
    (hreset : s.host.head? ≠ some .reset) : t.ce.keyValid = true := by
  cases step_result h with
  | engine p u _ hce => exact engineStep_keyValid (hce ▸ hk)
  | status p rest => simpa using hk
  | write a v rest => exact (hostWrite_same a.toNat v (s.withHost rest)).keyValid_eq.trans hk
  | read a rest =>
    obtain ⟨b, hb⟩ := hostRead_same a.toNat (s.withHost rest)
    exact hb.keyValid_eq.trans hk
  | issue p d rest => simpa using hk
  | command p d rest _ _ ht => exact runCommand_keyValid ht hk
  | reset rest hs => simp [hs] at hreset

/-! ### Issues that keep the duty of R66 -/

/-- An acceptance that keeps the duty marks nothing: `t` is the state it leaves, with the new command in flight. -/
theorem markClash_of_dutyKept {i : Instr} {s t : State} (h : dutyKept i s)
    (hown : spansOf i.port t = some (instrSpans i)) (hother : otherSpans i.port t = otherSpans i.port s)
    (hunseen : ∀ u ∈ t.unseen, u ∈ (supersede i.port s).unseen) : markClash i.port t = t := by
  obtain ⟨hclash, hrecords⟩ := h
  rw [← hother, ← hown] at hclash
  refine markClash_of_apart ?_ fun u hu => ?_
  · cases hp : i.port <;> rw [hp] at hclash
    · exact hclash
    · rw [clash_comm]; exact hclash
  · rw [hown]; exact hrecords u (hunseen u hu)

theorem acceptHash_of_dutyKept {src : Addr} {len : Len} {dst : Addr} {s : State}
    (h : dutyKept (.sm3Hash src len dst) s) :
    acceptHash src len dst s =
      { supersede .he s with
        he := { s.he with
          hsrc := src, hlen := len, hdst := dst, seq := .load 0, status := s.he.status.clearForIssue.accept }
        heInFlight := true
        heDisturbed := false } := by
  refine markClash_of_dutyKept h ?_ ?_ fun u hu => hu
  · rfl
  · simp [Instr.port, otherSpans, ceSpans, cipherInput, cipherOutput]

/-- `i` is the command accepted, with the ranges that the engine's latched fields give. -/
theorem acceptCipher_of_dutyKept {i : Instr} {cop : BitVec 8} (first : CSeq) {src : Addr} {len : Len} {dst : Addr}
    {s : State} (hp : i.port = .ce)
    (hspans : instrSpans i =
      (if cop = opcSetKey then keyInput src else cryptInput src len,
       if cop = opcSetKey then ⟨0, 0⟩ else cryptOutput len dst))
    (h : dutyKept i s) :
    acceptCipher cop first src len dst s =
      { supersede .ce s with
        ce := { s.ce with
          cop := cop, csrc := src, clen := len, cdst := dst, seq := first,
          status := s.ce.status.clearForIssue.accept }
        ceInFlight := true
        ceDisturbed := false
        unseen := keepUnseen cop (supersede .ce s).unseen } := by
  rw [acceptCipher, ← hp]
  refine markClash_of_dutyKept h ?_ ?_ fun u hu => ?_
  · rw [hp, hspans]; rfl
  · simp [hp, otherSpans, heSpans]
  · simp only [keepUnseen] at hu
    split at hu
    · exact (List.mem_filter.1 hu).1
    · exact hu

/-- Two states in which the host's duties are the same: the same commands in flight, and the same records. -/
structure SameDuty (s t : State) : Prop where
  latch : ∀ q, SameLatch q s t
  hash : t.heInFlight = s.heInFlight
  cipher : t.ceInFlight = s.ceInFlight
  unseen : t.unseen = s.unseen

theorem SameDuty.refl (s : State) : SameDuty s s := ⟨fun q => .refl q s, rfl, rfl, rfl⟩

theorem SameDuty.trans {s t u : State} (h : SameDuty s t) (g : SameDuty t u) : SameDuty s u :=
  ⟨fun q => (h.latch q).trans (g.latch q), g.hash.trans h.hash, g.cipher.trans h.cipher, g.unseen.trans h.unseen⟩

theorem engineStep_duty (p : Port) (s : State) : SameDuty s (engineStep p s) := by
  refine ⟨fun q => engineStep_latch p q s, ?_, ?_, ?_⟩ <;> cases p <;>
    simp [engineStep, hashStep_rest, cipherStep_rest]

theorem await_duty (p : Port) (s : State) : SameDuty s (await p s) :=
  await_keeps (P := SameDuty s) (fun u h => h.trans (engineStep_duty p u)) (.refl s)

theorem withHost_duty (s : State) (rest : List HostAction) : SameDuty s (s.withHost rest) :=
  ⟨.of_eq (withHost_he s rest) (withHost_ce s rest), rfl, rfl, rfl⟩

theorem dutyKept_iff {s t : State} (h : SameDuty s t) (i : Instr) : dutyKept i t ↔ dutyKept i s := by
  obtain ⟨hsrc, hlen, hdst⟩ := h.latch .he
  obtain ⟨cop, csrc, clen, cdst⟩ := h.latch .ce
  have he : heSpans t = heSpans s := by simp only [heSpans, h.hash, hsrc, hlen, hdst]
  have ce : ceSpans t = ceSpans s := by
    simp only [ceSpans, cipherInput, cipherOutput, h.cipher, cop, csrc, clen, cdst]
  have hr : hashRecord t = hashRecord s := by simp only [hashRecord, hsrc, hlen, hdst]
  have cr : cipherRecord t = cipherRecord s := by
    simp only [cipherRecord, cipherInput, cipherOutput, cop, csrc, clen, cdst]
  cases hp : i.port <;>
    simp only [dutyKept, hp, otherSpans, he, ce, supersede_he_unseen, supersede_ce_unseen, hr, cr, h.hash, h.cipher,
      h.unseen]

/-! ### The step, by its next action -/

/-- A host write within the duties writes its byte and does nothing else. -/
theorem hostWrite_of_kept {a : Nat} {s : State} (v : Byte) (h : accessKept a true s) :
    hostWrite a v s = { s with buf := s.buf.write a v } :=
  markAccess_of_kept (s := { s with buf := s.buf.write a v }) h

theorem hostRead_of_valid {a : Nat} {s : State} (h : notValid a s = false) :
    hostRead a s = { s with lastByte := s.buf.read a } := by
  simp [hostRead, h]

theorem step_cons {s : State} {act : HostAction} {rest : List HostAction} (h : s.host = act :: rest) :
    step s = hostStep act rest s := by
  unfold step; rw [h]

theorem step_nil {s : State} (h : s.host = []) : step s = .next (freeRun s) := by
  unfold step; rw [h]

theorem step_writeByte_of_kept {s : State} {a : Addr} {v : Byte} {rest : List HostAction}
    (hs : s.host = .writeByte a v :: rest) (ha : a.toNat < 2 ^ s.aw) (hkept : accessKept a.toNat true s) :
    step s = .next { s with buf := s.buf.write a.toNat v, host := rest } := by
  rw [step_cons hs, hostStep, if_pos ha, hostWrite_of_kept (s := s.withHost rest) v hkept]
  rfl

theorem step_readByte_of_valid {s : State} {a : Addr} {rest : List HostAction} (hs : s.host = .readByte a :: rest)
    (ha : a.toNat < 2 ^ s.aw) (hvalid : notValid a.toNat s = false) :
    step s = .next { s with lastByte := s.buf.read a.toNat, host := rest } := by
  rw [step_cons hs, hostStep, if_pos ha, hostRead_of_valid (s := s.withHost rest) hvalid]
  rfl

/-! ### The round key schedule (R30) -/

/-- The Block Cipher Engine is not at work on a key, and its running command is not marked. -/
structure AwayFromKey (s : State) : Prop where
  mark : s.ceDisturbed = false
  load : s.ce.seq ≠ .kload
  round : ∀ r, s.ce.seq ≠ .kround r

theorem cryptFinish_rk {s : State} (h : s.ceDisturbed = false) : (cryptFinish s).ce.rk = s.ce.rk := by
  simp [cryptFinish, h]

/-- Of the phases KROUND alone writes rk. -/
theorem cipherStep_rk {s : State} (hq : ∀ r, s.ce.seq ≠ .kround r) (hm : s.ceDisturbed = false) :
    (cipherStep s).ce.rk = s.ce.rk := by
  cases hs : s.ce.seq with
  | kround r => exact absurd hs (hq r)
  | bstore b =>
    by_cases hb : b + 1 < cipherBlocks s
    · simp [cipherStep_store_more hs hb]
    · rw [cipherStep_store_last hs hb, cryptFinish_rk] <;> simp [hm]
  | idle | kload | bload | round => simp [cipherStep, hs]

theorem engineStep_rk (p : Port) {s : State} (hq : ∀ r, s.ce.seq ≠ .kround r) (hm : s.ceDisturbed = false) :
    (engineStep p s).ce.rk = s.ce.rk := by
  cases p
  · rw [engineStep, hashStep_ce]
  · exact cipherStep_rk hq hm

theorem cipherStep_away {s : State} (h : AwayFromKey s) : AwayFromKey (cipherStep s) := by
  obtain ⟨hm, hl, hr⟩ := h
  cases hs : s.ce.seq with
  | kload => exact absurd hs hl
  | kround r => exact absurd hs (hr r)
  | idle => rw [cipherStep_idle hs]; exact ⟨hm, hl, hr⟩
  | bload b => constructor <;> simp [cipherStep, hs, hm]
  | round b r => constructor <;> simp only [cipherStep, hs, hm] <;> split <;> simp
  | bstore b =>
    by_cases hb : b + 1 < cipherBlocks s
    · rw [cipherStep_store_more hs hb]; constructor <;> simp [hm]
    · rw [cipherStep_store_last hs hb]; constructor <;> simp [cryptFinish_control]

theorem engineStep_away {p : Port} {s : State} (h : AwayFromKey s) : AwayFromKey (engineStep p s) := by
  cases p
  · obtain ⟨-, hce, -, -, -, -, -, hm, -⟩ := hashStep_rest s
    exact ⟨hm.trans h.mark, hce ▸ h.load, hce ▸ h.round⟩
  · exact cipherStep_away h

theorem await_rk (p : Port) {s : State} (h : AwayFromKey s) : (await p s).ce.rk = s.ce.rk :=
  (await_keeps (P := fun u => AwayFromKey u ∧ u.ce.rk = s.ce.rk)
    (fun _ hu => ⟨engineStep_away hu.1, (engineStep_rk p hu.1.round hu.1.mark).trans hu.2⟩) ⟨h, rfl⟩).2

@[simp] theorem refuse_rk (p : Port) (e : CmdError) (s : State) : (refuse p e s).ce.rk = s.ce.rk := by
  cases p <;> simp [refuse]

/-- The acceptance of any command keeps the schedule, that of SM4.SETKEY too. -/
theorem accept_rk {i : Instr} {s : State} (h : dutyKept i s) : (accept i s).ce.rk = s.ce.rk := by
  cases i with
  | sm3Hash src len dst => rw [accept, acceptHash_of_dutyKept h]; simp
  | sm4SetKey src len dst => rw [accept, acceptCipher_of_dutyKept .kload rfl rfl h]
  | sm4Enc src len dst => rw [accept, acceptCipher_of_dutyKept (.bload 0) rfl rfl h]
  | sm4Dec src len dst => rw [accept, acceptCipher_of_dutyKept (.bload 0) rfl rfl h]

theorem issueAt_rk {p : Port} {d : Descriptor} {s : State} (h : ∀ i, decode p d = .ok i → dutyKept i s) :
    (issueAt p d s).ce.rk = s.ce.rk := by
  unfold issueAt
  split
  · exact refuse_rk p _ s
  · next i hi =>
    unfold issueInstr
    split
    · exact refuse_rk _ _ s
    · exact accept_rk (h i hi)

theorem runHash_rk {src : Addr} {len : Len} {dst : Addr} {s : State} (h : dutyKept (.sm3Hash src len dst) s) :
    (runHash src len dst s).ce.rk = s.ce.rk := by
  unfold runHash
  split
  · exact refuse_rk .he _ s
  · simp [hashEmit_rest, acceptHash_of_dutyKept h]

/-- `i` is the command run, SM4.ENC or SM4.DEC. -/
theorem runCrypt_rk {i : Instr} {cop : BitVec 8} {dir : Direction} {src : Addr} {len : Len} {dst : Addr} {s : State}
    (hk : cop ≠ opcSetKey) (hp : i.port = .ce) (hspans : instrSpans i = (cryptInput src len, cryptOutput len dst))
    (h : dutyKept i s) : (runCrypt cop dir src len dst s).ce.rk = s.ce.rk := by
  have ha := acceptCipher_of_dutyKept (cop := cop) (.bload 0) hp (by simpa [hk] using hspans) h
  unfold runCrypt
  split
  · exact refuse_rk .ce _ s
  · rw [cryptFinish_rk] <;> simp [ha]

/-- A call to any command but SM4.SETKEY that keeps the duty changes the schedule only in the wait for its engine. -/
theorem exec_rk {i : Instr} {s t : State} (hi : ∀ src len dst, i ≠ .sm4SetKey src len dst)
    (hd : dutyKept i (await i.port s)) (h : exec i s = .next t) : t.ce.rk = (await i.port s).ce.rk := by
  cases i with
  | sm3Hash src len dst => cases h; rw [hostReadStatus_ce]; exact runHash_rk hd
  | sm4SetKey src len dst => exact absurd rfl (hi src len dst)
  | sm4Enc src len dst => cases h; rw [hostReadStatus_ce]; exact runCrypt_rk (by decide) rfl rfl hd
  | sm4Dec src len dst => cases h; rw [hostReadStatus_ce]; exact runCrypt_rk (by decide) rfl rfl hd

theorem exec_keyValid {i : Instr} {s t : State} (hi : ∀ src len dst, i ≠ .sm4SetKey src len dst)
    (h : exec i s = .next t) : t.ce.keyValid = (await i.port s).ce.keyValid := by
  cases i with
  | sm3Hash src len dst => cases h; rw [hostReadStatus_ce, runHash_keyValid]; rfl
  | sm4SetKey src len dst => exact absurd rfl (hi src len dst)
  | sm4Enc src len dst => cases h; rw [hostReadStatus_ce, runCrypt_keyValid]; rfl
  | sm4Dec src len dst => cases h; rw [hostReadStatus_ce, runCrypt_keyValid]; rfl

/-- CMD is its three fields (R72). -/
theorem cmd_fields (c : BitVec 32) : cmdZero c ++ cmdEng c ++ cmdFn c = c := by
  rw [cmdZero, cmdEng, cmdFn, BitVec.extractLsb'_append_extractLsb'_eq_extractLsb' (by decide),
    BitVec.extractLsb'_append_extractLsb'_eq_extractLsb' (by decide), BitVec.extractLsb'_eq_self]

/-- A port reads a command from that command's own CMD alone. -/
theorem decode_cmd {p : Port} {d : Descriptor} {i : Instr} (h : decode p d = .ok i) : i.cmd = d.cmd := by
  rw [← cmd_fields d.cmd]
  unfold decode at h
  split at h
  · cases h
  · next hz =>
    split at h
    · cases h
    · next he =>
      rw [not_not.1 hz, not_not.1 he]
      cases p <;> simp only at h <;> (repeat' split at h) <;> cases h <;> simp only [*] <;> rfl

theorem runCommand_rk {p : Port} {d : Descriptor} {s t : State} (hs : AwayFromKey s)
    (hcmd : p = .ce → d.cmd ≠ 0x00000020) (hd : ∀ i, decode p d = .ok i → dutyKept i (await p s))
    (h : runCommand p d s = .next t) : t.ce.rk = s.ce.rk := by
  unfold runCommand at h
  split at h
  · next i hi =>
    obtain ⟨hp, -⟩ := decode_inv hi
    have hkey : ∀ src len dst, i ≠ .sm4SetKey src len dst := by
      rintro src len dst rfl
      exact hcmd hp.symm (decode_cmd hi).symm
    rw [exec_rk hkey (hp ▸ hd i hi) h, await_rk _ hs]
  · cases h
    rw [hostReadStatus_ce, refuse_rk, await_rk p hs]

theorem step_rk {s t : State} (hs : AwayFromKey s) (hd : nextKeepsDuty s) (hreset : s.host.head? ≠ some .reset)
    (hcmd : ∀ d rest, s.host = .command .ce d :: rest → d.cmd ≠ 0x00000020) (h : step s = .next t) :
    t.ce.rk = s.ce.rk := by
  obtain ⟨hwrite, hread, hissue, hcommand⟩ := hd
  cases step_result h with
  | engine p u _ hce hm =>
    rw [engineStep_rk p (hce ▸ hs.round) (hm.trans hs.mark), hce]
  | status p rest => simp
  | write a v rest hh => rw [hostWrite_of_kept (s := s.withHost rest) v (hwrite a v rest hh)]; simp
  | read a rest hh =>
    rw [hostRead_of_valid (s := s.withHost rest) (notValid_of_kept (hread a rest hh))]; simp
  | issue p d rest hh hb =>
    refine issueAt_rk (s := s.withHost rest) fun i hi => ?_
    rw [dutyKept_iff (withHost_duty s rest)]
    exact hissue p d rest i hh hi hb
  | command p d rest _ hh ht =>
    refine runCommand_rk (s := s.withHost rest) ⟨hs.mark, hs.load, hs.round⟩ ?_ (fun i hi => ?_) ht
    · rintro rfl
      exact hcmd d rest hh
    · rw [dutyKept_iff ((withHost_duty s rest).trans (await_duty p _)), ← dutyKept_iff (await_duty p s)]
      exact hcommand p d rest i hh hi
  | reset rest hh => simp [hh] at hreset

/-! ### The status registers and the tables -/

/-- Every field of a status register (R36): the register is made of 4 bits of ERR and three single bits, 128 values. -/
theorem Status.word_fields (st : Status) (kv : Bool) :
    (st.word kv).getLsbD 0 = st.busy ∧ (st.word kv).getLsbD 1 = st.done ∧ (st.word kv).getLsbD 2 = kv ∧
    (st.word kv).getLsbD 3 = false ∧ (st.word kv).extractLsb' 4 4 = st.errCode ∧
    (st.word kv).extractLsb' 8 24 = 0 := by
  unfold Status.word
  generalize st.errCode = e, st.done = d, st.busy = b
  revert e kv d b
  decide

/-- Where a byte stands in the table of the substitution box (R42). -/
def sboxIndex (b : Byte) : Byte :=
  BitVec.ofNat 8 (sboxRows.flatten.findIdx fun x => Nat.beq x.toNat b.toNat)

theorem sboxIndex_sbox : ∀ a : Byte, sboxIndex (sbox a) = a := by decide +kernel

theorem byteOf_ck : ∀ i < 32, ∀ t < 4, (byteOf (ck i) t).toNat = ((4 * i + t) * 7) % 256 := by decide

/-! ### The statements -/

/-- Settles O7: legality is kept by every host action and by the free run of the engines, waiting included. -/
theorem everyStepKeepsLegality : Obligations.EveryStepKeepsLegality := by
  unfold Obligations.EveryStepKeepsLegality
  exact fun _ h => step_inv h

/-- Settles O8: waiting comes to an end in a legal state (`await_not_busy`), and from there each command keeps legality. -/
theorem everyCommandKeepsLegality : Obligations.EveryCommandKeepsLegality := by
  unfold Obligations.EveryCommandKeepsLegality
  exact fun _ _ h hw => exec_inv h hw

/-- Settles O23: an engine's latched fields change with its own acceptance alone, and no issue is accepted while it is busy. -/
theorem latchedFieldsStayWhileBusy : Obligations.LatchedFieldsStayWhileBusy := by
  unfold Obligations.LatchedFieldsStayWhileBusy
  exact fun s t h hreset => ⟨step_latch (q := .he) h hreset, step_latch (q := .ce) h hreset⟩

/-- Settles O42: of all operations but reset only the end of SM4.SETKEY changes KEYVALID, and it sets it. -/
theorem onlyResetClearsKeyValid : Obligations.OnlyResetClearsKeyValid := by
  unfold Obligations.OnlyResetClearsKeyValid
  exact fun s t h hk hreset => step_keyValid h hk hreset

/-- Settles O43: rk is written in the phase KROUND and by a broken duty; with the duties kept, a step that runs no key command
does neither. -/
theorem onlySetKeyWritesTheSchedule : Obligations.OnlySetKeyWritesTheSchedule := by
  unfold Obligations.OnlySetKeyWritesTheSchedule
  refine ⟨?_, ?_, ?_⟩
  · intro s t hu hd hreset hl hr hcmd h
    exact step_rk ⟨hu.cipher, hl, hr⟩ hd hreset hcmd h
  · exact fun p s hr hu => engineStep_rk p hr hu.cipher
  · intro i s t hi hce hhe hd h
    have hidle : await i.port s = s := await_idle (by cases i.port <;> simpa [busyOf])
    rw [exec_rk hi (hidle.symm ▸ hd) h, exec_keyValid hi h, hidle]
    exact ⟨rfl, rfl⟩

/-- Settles O47: within the duty the write marks and spoils nothing, and the byte written belongs to no unseen result. -/
theorem hostReadsWhatItWrote : Obligations.HostReadsWhatItWrote := by
  unfold Obligations.HostReadsWhatItWrote
  intro s a v rest hwf ha hkept hs
  have hvalid : notValid a.toNat s = false := notValid_of_kept hkept
  refine ⟨_, _, step_writeByte_of_kept hs ha hkept, step_readByte_of_valid rfl ha hvalid, ?_, rfl, rfl, rfl, ?_⟩
  · exact (Memory.read_write hwf a.toNat v a.toNat).trans (if_pos rfl)
  · exact fun x hx => (Memory.read_write hwf a.toNat v x).trans (if_neg hx.symm)

/-- Settles O4: one clause per kind of action presented. -/
theorem stepRunsDecodedCommand : Obligations.StepRunsDecodedCommand := by
  unfold Obligations.StepRunsDecodedCommand
  intro s p d rest
  have hbusy : busyOf p (hostReadStatus p s) = busyOf p s := by cases p <;> simp [busyOf]
  refine ⟨fun i hs hd => ?_, fun i hs hb hd => ?_, fun hs => ?_, fun hs => ⟨fun hdone => ?_, fun hdone hb => ?_,
    fun hdone hb => ?_⟩, step_nil⟩
  · simp [step_cons hs, hostStep, runCommand, hd]
  · simp [step_cons hs, hostStep, hb, issueAt, hd]
  · rw [step_cons hs, hostStep]
  · simp [step_cons hs, hostStep, hdone]
  · simp [step_cons hs, hostStep, hdone, waitStep, hbusy, hb]
  · simp [step_cons hs, hostStep, hdone, waitStep, hbusy, hb]

/-- Settles O9: nothing is listed, in flight or marked, both engines are idle, and every address is 0. -/
theorem resetStateIsLegal : Obligations.ResetStateIsLegal := by
  unfold Obligations.ResetStateIsLegal
  rw [inv_iff_parts]
  refine ⟨⟨by decide, by decide, ?_, ?_, ?_⟩, ⟨by decide, by decide, by decide, ?_, ?_, ?_, trivial⟩,
    ⟨by decide, by decide, by decide, ?_, ?_, ?_, trivial⟩⟩ <;>
    simp [State.reset, HashEngine.reset, CipherEngine.reset, Status.reset]

/-- Settles O12: the registers of the two reset engines, as the host reads them. -/
theorem resetValues : Obligations.ResetValues := by
  unfold Obligations.ResetValues
  exact ⟨Status.word_reset false, Status.word_reset false, rfl, rfl, rfl, rfl, rfl⟩

/-- Settles O15: both registers are `Status.word`, with KEYVALID hardwired to 0 in the Hash Engine's. -/
theorem statusRegisterLayout : Obligations.StatusRegisterLayout := by
  unfold Obligations.StatusRegisterLayout
  intro s
  obtain ⟨h0, h1, h2, h3, herr, hzero⟩ := s.he.status.word_fields false
  obtain ⟨c0, c1, c2, c3, cerr, czero⟩ := s.ce.status.word_fields s.ce.keyValid
  exact ⟨h0, h1, h2, h3, herr, hzero, c0, c1, c2, c3, cerr, czero⟩

/-- Settles O24: a status read changes what the host has read, and the model's record of what it has seen. -/
theorem statusReadHasNoSideEffect : Obligations.StatusReadHasNoSideEffect := by
  unfold Obligations.StatusReadHasNoSideEffect
  intro s p rest hs
  refine ⟨hostReadStatus p (s.withHost rest), step_cons hs, ?_⟩
  cases p <;> simp [statusOf, heStatus, ceStatus]

/-- Settles O58: a byte's place in the table undoes the box, which is so injective, and on a finite set onto. -/
theorem substitutionBoxIsAPermutation : Obligations.SubstitutionBoxIsAPermutation := by
  unfold Obligations.SubstitutionBoxIsAPermutation
  have hinj : Function.Injective sbox := Function.LeftInverse.injective sboxIndex_sbox
  exact ⟨fun _ _ h => hinj h, Finite.surjective_of_injective hinj⟩

/-- Settles O59: the table of CK, byte by byte. -/
theorem cipherConstants : Obligations.CipherConstants := by
  unfold Obligations.CipherConstants
  exact ⟨rfl, fun i t hi ht => byteOf_ck i hi t ht⟩

end Sys2Proof.Machine
end

section
/-! SUPPORT. What an internal step writes into BUF and what it depends on; what a call and an issue leave in flight and unseen;
then the statements of 20_memory.md. -/

namespace Sys2Proof.Machine

/-! ### What an internal step writes (R129, R163) -/

/-- The bytes that the Hash Engine's next internal step writes at HDST: the digest in the phase EMIT, else none. -/
def HashEngine.written (e : HashEngine) : List Byte :=
  match e.seq with
  | .emit _ => digestOf e.v
  | _ => []

/-- The block index b of CSEQ in the phases that have one. -/
def CSeq.block : CSeq → Nat
  | .bload b => b
  | .round b _ => b
  | .bstore b => b
  | _ => 0

/-- Where output block b of the Block Cipher Engine goes. -/
def CipherEngine.place (e : CipherEngine) : Nat := e.cdst.toNat + Config.blockLen * e.seq.block

/-- The bytes that the Block Cipher Engine's next internal step writes there: the data window in the phase BSTORE, else none. -/
def CipherEngine.written (e : CipherEngine) : List Byte :=
  match e.seq with
  | .bstore _ => blockStore e.x
  | _ => []

theorem HashEngine.written_length (e : HashEngine) :
    e.written.length = 0 ∨ (∃ i, e.seq = .emit i) ∧ e.written.length = 32 := by
  cases hq : e.seq <;> simp [HashEngine.written, hq]

theorem CipherEngine.written_length (e : CipherEngine) :
    e.written.length = 0 ∨
      ∃ b, e.seq = .bstore b ∧ e.place = e.cdst.toNat + 16 * b ∧ e.written.length = 16 := by
  cases hq : e.seq <;> simp [CipherEngine.written, CipherEngine.place, CSeq.block, hq]

theorem hashStep_buf {s : State} (hm : s.heDisturbed = false) :
    (hashStep s).buf = memWrite s.buf s.he.hdst.toNat s.he.written := by
  cases hq : s.he.seq <;> simp [hashStep, hashEmit, HashEngine.written, hq, hm]

theorem cipherStep_buf {s : State} (hm : s.ceDisturbed = false) :
    (cipherStep s).buf = memWrite s.buf s.ce.place s.ce.written := by
  cases hq : s.ce.seq with
  | kround r => by_cases hr : r.val + 1 < 32 <;> simp [cipherStep, keyFinish, CipherEngine.written, hq, hr, hm]
  | bstore b =>
    by_cases hb : b + 1 < cipherBlocks s
    · simp [cipherStep_store_more hq hb, CipherEngine.written, CipherEngine.place, CSeq.block, hq]
    · simp [cipherStep_store_last hq hb, cryptFinish, CipherEngine.written, CipherEngine.place, CSeq.block, hq, hm]
  | idle | kload | bload | round => simp [cipherStep, CipherEngine.written, hq]

/-- A byte that an internal step of the Hash Engine changes is one of the digest's. -/
theorem hashStep_changes {s : State} {a : Nat} (hwf : s.buf.wf) (hm : s.heDisturbed = false)
    (h : (hashStep s).buf.read a ≠ s.buf.read a) :
    (∃ i, s.he.seq = .emit i) ∧ s.he.hdst.toNat ≤ a ∧ a < s.he.hdst.toNat + 32 := by
  rw [hashStep_buf hm] at h
  have hin : s.he.hdst.toNat ≤ a ∧ a < s.he.hdst.toNat + s.he.written.length := by
    by_contra hout
    exact h (read_memWrite_outside hwf (by omega))
  rcases s.he.written_length with hlen | ⟨hq, hlen⟩
  · omega
  · exact ⟨hq, by omega⟩

/-- A byte that an internal step of the Block Cipher Engine changes is one of the output block's. -/
theorem cipherStep_changes {s : State} {a : Nat} (hwf : s.buf.wf) (hm : s.ceDisturbed = false)
    (h : (cipherStep s).buf.read a ≠ s.buf.read a) :
    ∃ b, s.ce.seq = .bstore b ∧ s.ce.cdst.toNat + 16 * b ≤ a ∧ a < s.ce.cdst.toNat + 16 * b + 16 := by
  rw [cipherStep_buf hm] at h
  have hin : s.ce.place ≤ a ∧ a < s.ce.place + s.ce.written.length := by
    by_contra hout
    exact h (read_memWrite_outside hwf (by omega))
  rcases s.ce.written_length with hlen | ⟨b, hq, hplace, hlen⟩
  · omega
  · exact ⟨b, hq, by omega⟩

/-! ### What an internal step depends on -/

theorem hashStep_mark {s : State} (hm : s.heDisturbed = false) : (hashStep s).heDisturbed = false := by
  cases hq : s.he.seq with
  | emit i => rw [hashStep_emit hq]; simp [hashEmit_control]
  | idle | load | expand | round | feed => simp [hashStep, hq, hm]

theorem cipherStep_mark {s : State} (hm : s.ceDisturbed = false) : (cipherStep s).ceDisturbed = false := by
  cases hq : s.ce.seq with
  | kround r => by_cases hr : r.val + 1 < 32 <;> simp [cipherStep, hq, hr, hm, keyFinish_control]
  | bstore b =>
    by_cases hb : b + 1 < cipherBlocks s
    · simp [cipherStep_store_more hq hb, hm]
    · simp [cipherStep_store_last hq hb, cryptFinish_control]
  | idle | kload | bload | round => simp [cipherStep, hq, hm]

/-- A padded block depends on the latched fields and the message. -/
theorem hashLoadBlock_congr {s t : State} (he : t.he = s.he)
    (hread : ∀ x, (hashInput s.he.hsrc s.he.hlen).has x = true → t.buf.read x = s.buf.read x) (i : Nat) :
    hashLoadBlock t i = hashLoadBlock s i := by
  refine List.map_congr_left fun k _ => ?_
  simp only [paddedByte, he]
  split
  · exact hread _ (by simp only [Span.has_iff, hashInput_a, hashInput_n]; omega)
  · rfl

/-- The Hash Engine's step from two states that agree in its registers and in its message: it ends in the same registers, but for
A to H where the command has ended, and draws as many free values. -/
theorem hashStep_congr {s t : State} (he : t.he = s.he) (hs : s.heDisturbed = false) (ht : t.heDisturbed = false)
    (hread : s.he.seq ≠ .idle →
      ∀ x, (hashInput s.he.hsrc s.he.hlen).has x = true → t.buf.read x = s.buf.read x) :
    (hashStep t).he = { (hashStep s).he with regs := (hashStep t).he.regs } ∧
    ((hashStep t).he.seq ≠ .idle → (hashStep t).he.regs = (hashStep s).he.regs) ∧
    (hashStep t).draws + s.draws = (hashStep s).draws + t.draws := by
  cases hq : s.he.seq with
  | load i =>
    have hblock := hashLoadBlock_congr he (hread (by simp [hq])) i
    simp [hashStep, he, hq, hblock, Nat.add_comm t.draws]
  | emit i =>
    refine ⟨?_, ?_, ?_⟩
    · simp [hashStep, hashEmit, he, hq, hs, ht]
    · simp [hashStep, hashEmit, he, hq, ht]
    · simp only [hashStep, hashEmit, he, hq, hs, ht, Bool.false_eq_true, if_false]; omega
  | idle => simp [hashStep_idle hq, hashStep_idle (he ▸ hq : t.he.seq = .idle), he, Nat.add_comm t.draws]
  | expand | round | feed => simp [hashStep, he, hq, Nat.add_comm t.draws]

/-- The Block Cipher Engine's step from two states that agree in its registers and in its input: it ends in the same registers, but
for K and X where the command has ended, and draws as many free values. -/
theorem cipherStep_congr {s t : State} (hce : t.ce = s.ce) (hs : s.ceDisturbed = false) (ht : t.ceDisturbed = false)
    (hlegal : s.ce.seq.legal s.ce.cop (cipherBlocks s))
    (hread : s.ce.seq ≠ .idle → ∀ x, (cipherInput s).has x = true → t.buf.read x = s.buf.read x) :
    (cipherStep s).ce = { (cipherStep t).ce with k := (cipherStep s).ce.k, x := (cipherStep s).ce.x } ∧
    ((cipherStep s).ce.seq ≠ .idle →
      (cipherStep s).ce.k = (cipherStep t).ce.k ∧ (cipherStep s).ce.x = (cipherStep t).ce.x) ∧
    (cipherStep t).draws + s.draws = (cipherStep s).draws + t.draws := by
  have hblocks : cipherBlocks t = cipherBlocks s := by rw [cipherBlocks, hce, cipherBlocks]
  cases hq : s.ce.seq with
  | kload =>
    have hkey : s.ce.cop = opcSetKey := by rwa [hq] at hlegal
    have hin : memRead t.buf s.ce.csrc.toNat 16 = memRead s.buf s.ce.csrc.toNat 16 :=
      memRead_congr fun x hlo hhi => hread (by simp [hq]) x (by
        simp only [cipherInput, if_pos hkey, Span.has_iff, keyInput_a, keyInput_n]; omega)
    simp [cipherStep, hce, hq, hin, Nat.add_comm t.draws]
  | bload b =>
    obtain ⟨hkey, hb⟩ : s.ce.cop ≠ opcSetKey ∧ b < cipherBlocks s := by rwa [hq] at hlegal
    have hin : memRead t.buf (s.ce.csrc.toNat + 16 * b) 16 = memRead s.buf (s.ce.csrc.toNat + 16 * b) 16 :=
      memRead_congr fun x hlo hhi => hread (by simp [hq]) x (by
        simp only [cipherBlocks, blockLen_eq] at hb
        simp only [cipherInput, if_neg hkey, Span.has_iff, cryptInput_a, cryptInput_n]; omega)
    simp [cipherStep, hce, hq, hin, Nat.add_comm t.draws]
  | kround r =>
    by_cases hr : r.val + 1 < 32
    · simp [cipherStep, hce, hq, hr, Nat.add_comm t.draws]
    · refine ⟨?_, ?_, ?_⟩
      · simp [cipherStep, keyFinish, hce, hq, hr, hs, ht]
      · simp [cipherStep, keyFinish, hq, hr, hs]
      · simp [cipherStep, keyFinish, hce, hq, hr, hs, ht]; omega
  | bstore b =>
    by_cases hb : b + 1 < cipherBlocks s
    · simp [cipherStep, hce, hq, hb, hblocks, Nat.add_comm t.draws]
    · refine ⟨?_, ?_, ?_⟩
      · simp [cipherStep, cryptFinish, hce, hq, hb, hblocks, hs, ht]
      · simp [cipherStep, cryptFinish, hq, hb, hs]
      · simp [cipherStep, cryptFinish, hce, hq, hb, hblocks, hs, ht]; omega
  | idle => simp [cipherStep_idle hq, cipherStep_idle (hce ▸ hq : t.ce.seq = .idle), hce, Nat.add_comm t.draws]
  | round => simp [cipherStep, hce, hq, Nat.add_comm t.draws]

/-! ### Two running commands that keep apart (R66) -/

/-- Within the duties the ranges of two running commands keep apart: neither writes where the other reads or writes. -/
theorem running_apart {s : State} (h : s.Inv) (hu : s.Undisturbed) (hhe : s.he.seq ≠ .idle) (hce : s.ce.seq ≠ .idle) :
    (hashOutput s.he.hdst).meets (cipherInput s) = false ∧
    (cipherOutput s).meets (hashInput s.he.hsrc s.he.hlen) = false ∧
    (hashOutput s.he.hdst).meets (cipherOutput s) = false := by
  have hapart := hu.apart
  rw [heSpans, if_pos (h.hashInFlight (h.hashIdle.2 hhe)), ceSpans, if_pos (h.cipherInFlight (h.cipherIdle.2 hce)),
    clash_some] at hapart
  exact hapart

/-- Output block b lies in the output range of the running command. -/
theorem bstore_inside {s : State} {b : Nat} (h : s.Inv) (hq : s.ce.seq = .bstore b) :
    cipherOutput s = cryptOutput s.ce.clen s.ce.cdst ∧ 16 * b + 16 ≤ s.ce.clen.toNat := by
  obtain ⟨hkey, hb⟩ : s.ce.cop ≠ opcSetKey ∧ b < cipherBlocks s := by simpa [hq, CSeq.legal] using h.cipherSeq
  simp only [cipherBlocks, blockLen_eq] at hb
  exact ⟨if_neg hkey, by omega⟩

/-- The Block Cipher Engine's step keeps the message of a running SM3.HASH. -/
theorem cipherStep_keeps_message {s : State} (h : s.Inv) (hu : s.Undisturbed) (hhe : s.he.seq ≠ .idle) {x : Nat}
    (hx : (hashInput s.he.hsrc s.he.hlen).has x = true) : (cipherStep s).buf.read x = s.buf.read x := by
  by_contra hne
  obtain ⟨b, hq, hlo, hhi⟩ := cipherStep_changes h.bufWf hu.cipher hne
  obtain ⟨-, hio, -⟩ := running_apart h hu hhe (by simp [hq])
  obtain ⟨hout, hb⟩ := bstore_inside h hq
  rw [hout, Span.not_meets_iff] at hio
  rw [Span.has_iff] at hx
  simp only [hashInput_a, hashInput_n, cryptOutput_a, cryptOutput_n] at hio hx
  omega

/-- The Hash Engine's step keeps the input of a running cipher command. -/
theorem hashStep_keeps_cipherInput {s : State} (h : s.Inv) (hu : s.Undisturbed) (hce : s.ce.seq ≠ .idle) {x : Nat}
    (hx : (cipherInput s).has x = true) : (hashStep s).buf.read x = s.buf.read x := by
  by_contra hne
  obtain ⟨⟨i, hq⟩, hlo, hhi⟩ := hashStep_changes h.bufWf hu.hash hne
  obtain ⟨hoi, -, -⟩ := running_apart h hu (by simp [hq]) hce
  rw [Span.not_meets_iff] at hoi
  rw [Span.has_iff] at hx
  simp only [hashOutput_a, hashOutput_n] at hoi
  omega

/-- The writes of the two engines' next steps do not meet. -/
theorem written_apart {s : State} (h : s.Inv) (hu : s.Undisturbed) :
    s.ce.written.length = 0 ∨ s.he.written.length = 0 ∨ s.he.hdst.toNat + s.he.written.length ≤ s.ce.place ∨
      s.ce.place + s.ce.written.length ≤ s.he.hdst.toNat := by
  rcases s.ce.written_length with hlen | ⟨b, hcq, hplace, hclen⟩
  · exact .inl hlen
  rcases s.he.written_length with hlen | ⟨⟨i, hhq⟩, hhlen⟩
  · exact .inr (.inl hlen)
  obtain ⟨-, -, hoo⟩ := running_apart h hu (by simp [hhq]) (by simp [hcq])
  obtain ⟨hout, hb⟩ := bstore_inside h hcq
  rw [hout, Span.not_meets_iff] at hoo
  simp only [hashOutput_a, hashOutput_n, cryptOutput_a, cryptOutput_n] at hoo
  omega

/-! ### What stands in flight and unseen after an issue and after a call -/

theorem SameControl.duty {s t : State} (h : SameControl s t) : SameDuty s t := by
  have hlatch := h.latch
  obtain ⟨-, -, -, -, -, -, hhe, hce, hunseen⟩ := h
  exact ⟨hlatch, hhe, hce, hunseen⟩

theorem spansOf_duty {s t : State} (h : SameDuty s t) (q : Port) : spansOf q t = spansOf q s := by
  obtain ⟨hsrc, hlen, hdst⟩ := h.latch .he
  obtain ⟨cop, csrc, clen, cdst⟩ := h.latch .ce
  cases q
  · simp only [spansOf, heSpans, h.hash, hsrc, hlen, hdst]
  · simp only [spansOf, ceSpans, cipherInput, cipherOutput, h.cipher, cop, csrc, clen, cdst]

/-- A result is not valid exactly where a command in flight writes it, or one that ended unseen wrote it. -/
theorem notValid_eq_false_iff (a : Nat) (s : State) :
    notValid a s = false ↔
      (∀ q, ∀ x ∈ spansOf q s, x.2.has a = false) ∧ s.unseen.any (Unseen.has a) = false := by
  have hduty : ∀ x : Option (Span × Span), breaksDuty x a false = false ↔ ∀ y ∈ x, y.2.has a = false := by
    intro x; cases x <;> simp [breaksDuty]
  have hport : (∀ q, ∀ x ∈ spansOf q s, x.2.has a = false) ↔
      (∀ x ∈ heSpans s, x.2.has a = false) ∧ ∀ x ∈ ceSpans s, x.2.has a = false :=
    ⟨fun h => ⟨h .he, h .ce⟩, fun h q => by cases q; exacts [h.1, h.2]⟩
  rw [notValid, Bool.or_eq_false_iff, Bool.or_eq_false_iff, hduty, hduty, hport]

theorem spansOf_acceptHash (src : Addr) (len : Len) (dst : Addr) (s : State) (q : Port) :
    spansOf q (acceptHash src len dst s) =
      if q = .he then some (hashInput src len, hashOutput dst) else spansOf q s := by
  rw [acceptHash, spansOf_duty (markClash_same .he _).duty]
  cases q
  · rfl
  · simp [spansOf, ceSpans, cipherInput, cipherOutput]

theorem spansOf_acceptCipher (cop : BitVec 8) (first : CSeq) (src : Addr) (len : Len) (dst : Addr) (s : State)
    (q : Port) :
    spansOf q (acceptCipher cop first src len dst s) =
      if q = .ce then
        some (if cop = opcSetKey then keyInput src else cryptInput src len,
          if cop = opcSetKey then ⟨0, 0⟩ else cryptOutput len dst)
      else spansOf q s := by
  rw [acceptCipher, spansOf_duty (markClash_same .ce _).duty]
  cases q
  · simp [spansOf, heSpans]
  · rfl

/-- An accepted command is in flight with its own ranges; the other engine's stays as it was. -/
theorem spansOf_accept (i : Instr) (s : State) (q : Port) :
    spansOf q (accept i s) = if q = i.port then some (instrSpans i) else spansOf q s := by
  cases i with
  | sm3Hash src len dst => exact spansOf_acceptHash src len dst s q
  | sm4SetKey src len dst => exact spansOf_acceptCipher opcSetKey .kload src len dst s q
  | sm4Enc src len dst => exact spansOf_acceptCipher opcEnc (.bload 0) src len dst s q
  | sm4Dec src len dst => exact spansOf_acceptCipher opcDec (.bload 0) src len dst s q

/-- The records after an acceptance are those of the issue's start, without the schedules that SM4.SETKEY replaces. -/
theorem accept_unseen (i : Instr) (s : State) :
    (accept i s).unseen = keepUnseen (cmdOpc i.cmd) (supersede i.port s).unseen := by
  cases i <;> exact (markClash_same _ _).duty.unseen

theorem mem_keepUnseen {cop : BitVec 8} {us : List Unseen} {u : Unseen} (h : u ∈ keepUnseen cop us) : u ∈ us := by
  unfold keepUnseen at h
  split at h
  · exact (List.mem_filter.1 h).1
  · exact h

/-- Every record of a command with an output range outlasts the acceptance of SM4.SETKEY. -/
theorem mem_keepUnseen_of_not_key {cop : BitVec 8} {us : List Unseen} {u : Unseen} (h : u ∈ us) (hk : u.key = false) :
    u ∈ keepUnseen cop us := by
  unfold keepUnseen
  split
  · exact List.mem_filter.2 ⟨h, by simp [hk]⟩
  · exact h

@[simp] theorem refuse_unseen (p : Port) (e : CmdError) (s : State) :
    (refuse p e s).unseen = (supersede p s).unseen := by
  rw [refuse_eq]

theorem spansOf_refuse (p q : Port) (e : CmdError) (s : State) :
    spansOf q (refuse p e s) = if q = p then none else spansOf q s := by
  rw [← spansOf_supersede]
  cases p <;> cases q <;> simp [refuse, spansOf, heSpans, ceSpans, cipherInput, cipherOutput]

/-- Where the host sees DONE = 1, its duty for that engine's command ends; the other engine's stays in flight. -/
theorem spansOf_hostReadStatus {p : Port} {s : State} (hdone : doneOf p s = true) (q : Port) :
    spansOf q (hostReadStatus p s) = if q = p then none else spansOf q s := by
  cases p <;> simp only [doneOf] at hdone <;> cases q <;>
    simp [spansOf, heSpans, ceSpans, cipherInput, cipherOutput, hdone]

/-- Where the host sees DONE = 1 for a command in flight, the bytes that it wrote leave every record. -/
theorem hostReadStatus_settles {p : Port} {s : State} {x : Span × Span} (hdone : doneOf p s = true)
    (hx : spansOf p s = some x) : (hostReadStatus p s).unseen = settle x.2 s.unseen := by
  cases p <;> simp only [doneOf] at hdone <;> simp only [spansOf, heSpans, ceSpans] at hx <;> split at hx <;> cases hx
  · next hf => simp [hf, hdone]
  · next hf => simp [hf, hdone]

theorem hostReadStatus_unseen_of_none {p : Port} {s : State} (hx : spansOf p s = none) :
    (hostReadStatus p s).unseen = s.unseen := by
  cases p <;> simp only [spansOf, heSpans, ceSpans] at hx <;> split at hx <;> simp_all

theorem doneOf_refuse (p : Port) (e : CmdError) (s : State) : doneOf p (refuse p e s) = true := by
  cases p <;> simp [refuse, doneOf]

/-- What an accepted command of the call does up to its end. -/
def finish (i : Instr) (s : State) : State :=
  match i with
  | .sm3Hash _ _ _ => hashEmit (hashWork s)
  | .sm4SetKey _ _ _ => keyFinish (keyWork s)
  | .sm4Enc _ _ _ => cryptFinish (cryptWork .encrypt s)
  | .sm4Dec _ _ _ => cryptFinish (cryptWork .decrypt s)

theorem hashEmit_duty (s : State) : SameDuty s (hashEmit s) :=
  ⟨fun q => hashEmit_latch q s, by simp [hashEmit_rest], by simp [hashEmit_rest], by simp [hashEmit_rest]⟩

theorem keyFinish_duty (s : State) : SameDuty s (keyFinish s) :=
  ⟨fun q => keyFinish_latch q s, by simp [keyFinish_rest], by simp [keyFinish_rest], by simp [keyFinish_rest]⟩

theorem cryptFinish_duty (s : State) : SameDuty s (cryptFinish s) :=
  ⟨fun q => cryptFinish_latch q s, by simp [cryptFinish_rest], by simp [cryptFinish_rest], by simp [cryptFinish_rest]⟩

theorem hashWork_duty (s : State) : SameDuty s (hashWork s) :=
  ⟨fun q => by cases q <;> simp [SameLatch, hashWork], rfl, rfl, rfl⟩

theorem keyWork_duty (s : State) : SameDuty s (keyWork s) :=
  ⟨fun q => by cases q <;> simp [SameLatch], rfl, rfl, rfl⟩

theorem cryptWork_duty (dir : Direction) (s : State) : SameDuty s (cryptWork dir s) :=
  ⟨fun q => by cases q <;> simp [SameLatch], rfl, rfl, rfl⟩

theorem finish_duty (i : Instr) (s : State) : SameDuty s (finish i s) := by
  cases i with
  | sm3Hash => exact (hashWork_duty s).trans (hashEmit_duty _)
  | sm4SetKey => exact (keyWork_duty s).trans (keyFinish_duty _)
  | sm4Enc => exact (cryptWork_duty .encrypt s).trans (cryptFinish_duty _)
  | sm4Dec => exact (cryptWork_duty .decrypt s).trans (cryptFinish_duty _)

theorem finish_done (i : Instr) (s : State) : doneOf i.port (finish i s) = true := by
  cases i <;>
    simp [finish, Instr.port, doneOf, hashEmit_control, keyFinish_control, cryptFinish_control, Status.complete]

/-- A call to an engine that is not busy, of a command that passes its checks. -/
theorem exec_accepted {i : Instr} {s : State} (hb : busyOf i.port s = false)
    (hc : instrCheck s.aw s.ce.keyValid i = none) :
    exec i s = .next (hostReadStatus i.port (finish i (accept i s))) := by
  have hwait : await i.port s = s := await_idle hb
  cases i <;> simp only [instrCheck] at hc <;> simp only [Instr.port, await] at hwait <;>
    simp only [exec, execSm3Hash, execSm4SetKey, execSm4Enc, execSm4Dec, runHash, runKey, runCrypt, hwait, hc, Instr.port,
      accept, finish]

/-- A call to an engine that is not busy, of a command that a check refuses. -/
theorem exec_refused {i : Instr} {s : State} {e : CmdError} (hb : busyOf i.port s = false)
    (hc : instrCheck s.aw s.ce.keyValid i = some e) :
    exec i s = .next (hostReadStatus i.port (refuse i.port e s)) := by
  have hwait : await i.port s = s := await_idle hb
  cases i <;> simp only [instrCheck] at hc <;> simp only [Instr.port, await] at hwait <;>
    simp only [exec, execSm3Hash, execSm4SetKey, execSm4Enc, execSm4Dec, runHash, runKey, runCrypt, hwait, hc, Instr.port]

theorem otherSpans_of_ne {p q : Port} (h : q ≠ p) (s : State) : otherSpans p s = spansOf q s := by
  cases p <;> cases q <;> simp_all [otherSpans, spansOf]

/-- The host has just seen DONE = 1 of engine `p`: a byte is valid that no command of the other engine is to write, and that either
engine `p`'s command wrote or no record holds. -/
theorem valid_of_done_seen {p : Port} {s : State} {a : Nat} (hdone : doneOf p s = true)
    (hother : ∀ q, q ≠ p → ∀ x ∈ spansOf q s, x.2.has a = false)
    (hown : (∃ x, spansOf p s = some x ∧ x.2.has a = true) ∨ s.unseen.any (Unseen.has a) = false) :
    notValid a (hostReadStatus p s) = false := by
  rw [notValid_eq_false_iff]
  refine ⟨fun q x hx => ?_, ?_⟩
  · rw [spansOf_hostReadStatus hdone] at hx
    split at hx
    · simp at hx
    · next hq => exact hother q hq x hx
  · cases hp : spansOf p s with
    | none =>
      rw [hostReadStatus_unseen_of_none hp]
      simpa [hp] using hown
    | some x =>
      rw [hostReadStatus_settles hdone hp, settle_has]
      rcases hown with ⟨y, hy, ha⟩ | hold
      · cases hp.symm.trans hy
        rw [ha, Bool.not_true, Bool.and_false]
      · rw [hold, Bool.false_and]

/-- After a call a byte is valid that the call wrote, and one that belongs to no result unseen before it. -/
theorem valid_of_exec {i : Instr} {s t : State} {a : Nat} (hb : busyOf i.port s = false) (h : exec i s = .next t)
    (hother : ∀ x ∈ otherSpans i.port s, x.2.has a = false)
    (hown : (instrCheck s.aw s.ce.keyValid i = none ∧ (instrSpans i).2.has a = true) ∨
      ∀ u ∈ (supersede i.port s).unseen, u.has a = false) : notValid a t = false := by
  cases hc : instrCheck s.aw s.ce.keyValid i with
  | none =>
    cases h.symm.trans (exec_accepted hb hc)
    have hduty : SameDuty (accept i s) (finish i (accept i s)) := finish_duty i _
    have hspans : ∀ q, spansOf q (finish i (accept i s)) = if q = i.port then some (instrSpans i) else spansOf q s :=
      fun q => (spansOf_duty hduty q).trans (spansOf_accept i s q)
    refine valid_of_done_seen (finish_done i _) (fun q hq x hx => ?_) ?_
    · rw [hspans, if_neg hq, ← otherSpans_of_ne hq] at hx
      exact hother x hx
    · refine hown.imp (fun hwrote => ⟨_, (hspans _).trans (if_pos rfl), hwrote.2⟩) fun hold => ?_
      rw [hduty.unseen, accept_unseen, List.any_eq_false]
      exact fun v hv => Bool.not_eq_true _ ▸ hold v (mem_keepUnseen hv)
  | some e =>
    cases h.symm.trans (exec_refused hb hc)
    refine valid_of_done_seen (doneOf_refuse _ _ _) (fun q hq x hx => ?_) (.inr ?_)
    · rw [spansOf_refuse, if_neg hq, ← otherSpans_of_ne hq] at hx
      exact hother x hx
    · have hold := hown.resolve_left (by simp [hc])
      rw [refuse_unseen, List.any_eq_false]
      exact fun v hv => Bool.not_eq_true _ ▸ hold v hv

/-- The result of a command in flight becomes a record when the next issue to its engine begins. -/
theorem supersede_records {p : Port} {s : State} {x : Span × Span} {a : Nat} (hx : spansOf p s = some x)
    (ha : x.2.has a = true) : ∃ u ∈ (supersede p s).unseen, u.key = false ∧ u.has a = true := by
  cases p with
  | he =>
    simp only [spansOf, heSpans] at hx
    split at hx <;> cases hx
    next hf => exact ⟨hashRecord s, by simp [hf], rfl, by simpa [hashRecord, Unseen.has] using ha⟩
  | ce =>
    simp only [spansOf, ceSpans] at hx
    split at hx <;> cases hx
    next hf =>
    have hkey : s.ce.cop ≠ opcSetKey := by
      intro hk
      simp only [cipherOutput, if_pos hk, Span.has_iff] at ha
      omega
    exact ⟨cipherRecord s, by simp [hf], by simp [cipherRecord, hkey], by simpa [cipherRecord, Unseen.has, hkey] using ha⟩

/-- An issue, accepted or refused, keeps every record that its start leaves, but for the schedules. -/
theorem mem_issueAt_unseen {p : Port} {d : Descriptor} {s : State} {u : Unseen} (hu : u ∈ (supersede p s).unseen)
    (hk : u.key = false) : u ∈ (issueAt p d s).unseen := by
  unfold issueAt
  split
  · rwa [refuse_unseen]
  · next i hi =>
    rw [← (decode_inv hi).1] at hu
    unfold issueInstr
    split
    · rwa [refuse_unseen]
    · rw [accept_unseen]
      exact mem_keepUnseen_of_not_key hu hk

theorem notValid_of_record {a : Nat} {s : State} {u : Unseen} (hu : u ∈ s.unseen) (ha : u.has a = true) :
    notValid a s = true := by
  rw [notValid, Bool.or_eq_true]
  exact .inr (List.any_eq_true.2 ⟨u, hu, ha⟩)

/-- A byte of a result that is not valid reads as a free byte, whatever the breach makes of the result itself. -/
theorem hostRead_lastByte_of_notValid {a : Nat} {s : State} (h : notValid a s = true) :
    (hostRead a s).lastByte = Config.freeByte s.draws := by
  rw [hostRead, if_pos h]
  obtain ⟨-, -, -, -, hbyte, -⟩ :=
    markAccess_same a false { s with lastByte := Config.freeByte s.draws, draws := s.draws + 1 }
  exact hbyte

/-! ### The statements -/

/-- Settles O49: the host's two accesses to BUF fault exactly where the address has more than AW bits. -/
theorem noAddressBeyondTheBuffer : Obligations.NoAddressBeyondTheBuffer := by
  unfold Obligations.NoAddressBeyondTheBuffer
  intro s a v rest hs
  rcases hs with hs | hs
  · rw [step_cons hs, hostStep]
    exact ⟨fun ha => if_neg (Nat.not_lt.2 ha), fun ha => ⟨_, if_pos ha⟩⟩
  · rw [step_cons hs, hostStep]
    exact ⟨fun ha => if_neg (Nat.not_lt.2 ha), fun ha => ⟨_, if_pos ha⟩⟩

/-- Settles O46: with no mark an internal step's one write is the digest or an output block, and a byte outside it is kept. -/
theorem engineStepsWriteTheirOutputOnly : Obligations.EngineStepsWriteTheirOutputOnly := by
  unfold Obligations.EngineStepsWriteTheirOutputOnly
  exact fun s a hwf hu => ⟨hashStep_changes hwf hu.hash, cipherStep_changes hwf hu.cipher⟩

/-- Settles O45: each engine's step depends on its own registers and input, which the other's step keeps, and the two writes do not
meet. -/
theorem engineStepsCommute : Obligations.EngineStepsCommute := by
  unfold Obligations.EngineStepsCommute
  rintro s t u h hu rfl rfl
  have hmark : (cipherStep s).heDisturbed = false := by simp [cipherStep_rest, hu.hash]
  have cmark : (hashStep s).ceDisturbed = false := by simp [hashStep_rest, hu.cipher]
  obtain ⟨hregs, hsame, hdraws⟩ := hashStep_congr (cipherStep_he s) hu.hash hmark fun hq _ =>
    cipherStep_keeps_message h hu hq
  obtain ⟨cregs, csame, cdraws⟩ := cipherStep_congr (hashStep_ce s) hu.cipher cmark h.cipherSeq fun hq _ =>
    hashStep_keeps_cipherInput h hu hq
  refine ⟨?_, ?_, ?_, ?_, ?_, ?_, ?_, ?_, ?_⟩
  · rw [hashStep_buf hmark, cipherStep_buf hu.cipher, cipherStep_he, cipherStep_buf cmark, hashStep_buf hu.hash,
      hashStep_ce]
    exact memWrite_comm h.bufWf (written_apart h hu)
  · rwa [cipherStep_he (hashStep s)]
  · rwa [hashStep_ce (cipherStep s)]
  · rwa [cipherStep_he (hashStep s)]
  · rwa [hashStep_ce (cipherStep s)]
  · omega
  · simp [hashStep_mark hmark, cipherStep_rest, hashStep_mark hu.hash]
  · simp [cipherStep_mark cmark, hashStep_rest, cipherStep_mark hu.cipher]
  · simp [hashStep_rest, cipherStep_rest]

/-- Settles O48: a call ends with the sight of its DONE, which settles its output; a read of a result that is not valid is free; and
an issue makes a record of the result it clears unseen. -/
theorem doneMakesTheResultVisible : Obligations.DoneMakesTheResultVisible := by
  unfold Obligations.DoneMakesTheResultVisible
  refine ⟨?_, ?_, ?_⟩
  · intro i s t a rest _ hb hexec hs ha hother hown
    exact ⟨_, step_readByte_of_valid hs ha (valid_of_exec hb hexec hother hown), rfl⟩
  · intro s a rest hs ha hn
    refine ⟨_, (step_cons hs).trans (if_pos ha), ?_⟩
    exact hostRead_lastByte_of_notValid (s := s.withHost rest) hn
  · intro s p d rest x a hs hb hx ha
    have hx' : spansOf p (s.withHost rest) = some x := (spansOf_duty (withHost_duty s rest) p).trans hx
    obtain ⟨u, hu, hk, hua⟩ := supersede_records hx' ha
    refine ⟨issueAt p d (s.withHost rest), ?_, notValid_of_record (mem_issueAt_unseen hu hk) hua⟩
    simp [step_cons hs, hostStep, hb]

end Sys2Proof.Machine
end

section
/-! SUPPORT. The encoder and the decoder as inverses, through the descriptor and its bits; what acceptance leaves within the duty of
R66; operands a command ignores; the end of a wait; then the statements of 30_encoding.md. -/

namespace Sys2Proof.Machine

/-! ### The encoder and the decoder (R72, R74, R76) -/

theorem cmdWord_statement (i : Instr) : Laws.CmdWord.Statement i := by
  cases i with
  | sm3Hash src len dst => exact Laws.CmdWord.sm3Hash src len dst
  | sm4SetKey src len dst => exact Laws.CmdWord.sm4SetKey src len dst
  | sm4Enc src len dst => exact Laws.CmdWord.sm4Enc src len dst
  | sm4Dec src len dst => exact Laws.CmdWord.sm4Dec src len dst

@[simp] theorem cmdZero_encode (i : Instr) : cmdZero (encode i).cmd = 0 := (cmdWord_statement i).1

@[simp] theorem cmdEng_encode (i : Instr) : cmdEng (encode i).cmd = i.port.eng := (cmdWord_statement i).2.1

@[simp] theorem decode_encode (i : Instr) : decode i.port (encode i) = .ok i := by
  unfold decode
  rw [if_neg (not_not.2 (cmdZero_encode i)), if_neg (not_not.2 (cmdEng_encode i))]
  cases i with
  | sm3Hash => exact if_pos (by decide : cmdFn 0x10 = 0x0)
  | sm4SetKey => exact if_pos (by decide : cmdFn 0x20 = 0x0)
  | sm4Enc => exact (if_neg (by decide : cmdFn 0x21 ≠ 0x0)).trans (if_pos (by decide : cmdFn 0x21 = 0x1))
  | sm4Dec =>
    exact (if_neg (by decide : cmdFn 0x22 ≠ 0x0)).trans
      ((if_neg (by decide : cmdFn 0x22 ≠ 0x1)).trans (if_pos (by decide : cmdFn 0x22 = 0x2)))

theorem encode_of_fields {i : Instr} {d : Descriptor} (hcmd : i.cmd = d.cmd) (hsrc : i.src = d.src) (hlen : i.len = d.len)
    (hdst : i.dst = d.dst) : encode i = d := by
  rw [encode, hcmd, hsrc, hlen, hdst]

/-- A port reads a command from its descriptor and from no other. -/
theorem decode_eq_ok_iff {p : Port} {d : Descriptor} {i : Instr} : decode p d = .ok i ↔ i.port = p ∧ encode i = d := by
  constructor
  · intro h
    obtain ⟨hp, hsrc, hlen, hdst⟩ := decode_inv h
    exact ⟨hp, encode_of_fields (decode_cmd h) hsrc hlen hdst⟩
  · rintro ⟨rfl, rfl⟩
    exact decode_encode i

theorem Port.eng_injective : Function.Injective Port.eng := by
  intro p q h
  cases p <;> cases q <;> simp [Port.eng] at h ⊢

/-- The port that is not a command's own rejects it by its ENG. -/
theorem decode_encode_of_ne {i : Instr} {q : Port} (hq : q ≠ i.port) :
    decode q (encode i) = .error .otherEngine := by
  have hne : cmdEng (encode i).cmd ≠ q.eng := by
    rw [cmdEng_encode]
    exact fun h => hq (Port.eng_injective h.symm)
  unfold decode
  rw [if_neg (not_not.2 (cmdZero_encode i)), if_pos hne]

/-! ### The descriptor as one number (log entry 12) -/

/-- The fields of a descriptor's number, nested: each stands above the one after it. -/
theorem Descriptor.toBits_eq (aw : Nat) (d : Descriptor) :
    d.toBits aw = 2 ^ 32 * (2 ^ aw * (2 ^ 64 * d.dst.toNat + d.len.toNat) + d.src.toNat) + d.cmd.toNat := by
  rw [Descriptor.toBits, pow_add, show 96 = 32 + 64 from rfl, pow_add, pow_add]
  ring

/-- Dividing by 2^n leaves what stands above a field of n bits. -/
theorem two_pow_mul_add_div {n a : Nat} (h : a < 2 ^ n) (b : Nat) : (2 ^ n * b + a) / 2 ^ n = b := by
  rw [Nat.mul_add_div (Nat.two_pow_pos n), Nat.div_eq_of_lt h, Nat.add_zero]

theorem ofNat_two_pow_mul_add {n : Nat} (x : BitVec n) (b : Nat) : BitVec.ofNat n (2 ^ n * b + x.toNat) = x :=
  BitVec.eq_of_toNat_eq (by rw [BitVec.toNat_ofNat, Nat.mul_add_mod, Nat.mod_eq_of_lt x.isLt])

/-- Where the addresses fit `aw` bits a descriptor comes back from its number. -/
theorem Descriptor.ofBits_toBits {aw : Nat} {d : Descriptor} (hd : d.wellFormed aw = true) :
    Descriptor.ofBits aw (d.toBits aw) = d := by
  obtain ⟨cmd, src, len, dst⟩ := d
  simp only [Descriptor.wellFormed, Addr.fits, Bool.and_eq_true, decide_eq_true_eq] at hd
  obtain ⟨hsrc, hdst⟩ := hd
  have hlen : 2 ^ (32 + aw) = 2 ^ 32 * 2 ^ aw := pow_add 2 32 aw
  have htop : 2 ^ (96 + aw) = 2 ^ 32 * 2 ^ aw * 2 ^ 64 := by
    rw [← hlen, ← pow_add]
    congr 1
    omega
  simp only [Descriptor.toBits_eq, Descriptor.ofBits, htop, hlen, ← Nat.div_div_eq_div_mul,
    two_pow_mul_add_div cmd.isLt, two_pow_mul_add_div hsrc, two_pow_mul_add_div len.isLt, Nat.mul_add_mod,
    Nat.mod_eq_of_lt hsrc, Nat.mod_eq_of_lt hdst, ofNat_two_pow_mul_add, BitVec.ofNat_toNat, BitVec.setWidth_eq]

theorem decodeTableWord_of_encode {nbits w : Nat} {i : Instr} (h : tableDescriptor nbits w = encode i) :
    decodeTableWord nbits w = some i := by
  obtain ⟨-, -, -, hroute, -⟩ := cmdWord_statement i
  rw [decodeTableWord, h, hroute, decode_encode]
  rfl

/-! ### Acceptance within the duty of R66 (R78) -/

theorem issueInstr_of_check {i : Instr} {s : State} (hc : instrCheck s.aw s.ce.keyValid i = none) :
    issueInstr i s = accept i s := by
  rw [issueInstr, hc]

theorem supersede_he_eq (s : State) :
    supersede .he s = { s with heInFlight := false, unseen := (supersede .he s).unseen } :=
  (supersede_eq .he s).trans (by simp)

theorem supersede_ce_eq (s : State) :
    supersede .ce s = { s with ceInFlight := false, unseen := (supersede .ce s).unseen } :=
  (supersede_eq .ce s).trans (by simp)

theorem accept_hash_of_dutyKept {i : Instr} {s : State} (hp : i.port = .he) (h : dutyKept i s) :
    accept i s = { s with
      he := { s.he with
        hsrc := i.src, hlen := i.len, hdst := i.dst, seq := .load 0, status := ⟨true, false, none⟩ }
      heInFlight := true, heDisturbed := false, unseen := (supersede .he s).unseen } := by
  cases i with
  | sm3Hash src len dst => rw [accept, acceptHash_of_dutyKept h, supersede_he_eq]; rfl
  | sm4SetKey | sm4Enc | sm4Dec => cases hp

theorem accept_cipher_of_dutyKept {i : Instr} {s : State} (hp : i.port = .ce) (h : dutyKept i s) :
    accept i s = { s with
      ce := { s.ce with
        cop := cmdOpc i.cmd, csrc := i.src, clen := i.len, cdst := i.dst,
        seq := (if i.cmd = 0x00000020 then .kload else .bload 0), status := ⟨true, false, none⟩ }
      ceInFlight := true, ceDisturbed := false
      unseen := keepUnseen (cmdOpc i.cmd) (supersede .ce s).unseen } := by
  cases i with
  | sm3Hash => cases hp
  | sm4SetKey src len dst => rw [accept, acceptCipher_of_dutyKept .kload hp rfl h, supersede_ce_eq]; rfl
  | sm4Enc src len dst => rw [accept, acceptCipher_of_dutyKept (.bload 0) hp rfl h, supersede_ce_eq]; rfl
  | sm4Dec src len dst => rw [accept, acceptCipher_of_dutyKept (.bload 0) hp rfl h, supersede_ce_eq]; rfl

/-! ### Operands a command ignores (R75, R58) -/

/-- The state with another latched HSRC. -/
def State.withHsrc (a : Addr) (s : State) : State := { s with he := { s.he with hsrc := a } }

/-- The state with another latched CDST. -/
def State.withCdst (a : Addr) (s : State) : State := { s with ce := { s.ce with cdst := a } }

theorem Span.meets_of_empty {t : Span} (h : t.n = 0) (r : Span) : r.meets t = false :=
  (Span.not_meets_iff r t).2 (.inr (.inl h))

/-- What an issue reads matters to the duty of R66 only where it reads something. -/
theorem dutyKept_of_empty_input {i j : Instr} {s : State} (hport : j.port = i.port)
    (hi : (instrSpans i).1.n = 0) (hj : (instrSpans j).1.n = 0) (hout : (instrSpans j).2 = (instrSpans i).2)
    (h : dutyKept i s) : dutyKept j s := by
  have hclash : ∀ x, clash (some (instrSpans j)) x = clash (some (instrSpans i)) x := by
    rintro (_ | ⟨i', o'⟩)
    · rfl
    · simp only [clash, hout, Span.meets_of_empty hi, Span.meets_of_empty hj]
  have hunseen : ∀ p u, clashUnseen p (some (instrSpans j)) u = clashUnseen p (some (instrSpans i)) u := by
    intro p u
    simp only [clashUnseen, hout, Span.meets_of_empty hi, Span.meets_of_empty hj]
  simpa only [dutyKept, hport, hclash, hunseen] using h

theorem hashCheck_empty (aw : Nat) (src src' dst : Addr) : hashCheck aw src' 0 dst = hashCheck aw src 0 dst := by
  simp [hashCheck, Span.inBuf]

theorem acceptHash_empty_src {src : Addr} (src' : Addr) {dst : Addr} {s : State}
    (h : dutyKept (.sm3Hash src 0 dst) s) :
    acceptHash src' 0 dst s = (acceptHash src 0 dst s).withHsrc src' := by
  have h' : dutyKept (.sm3Hash src' 0 dst) s := dutyKept_of_empty_input (i := .sm3Hash src 0 dst) rfl rfl rfl rfl h
  rw [acceptHash_of_dutyKept h, acceptHash_of_dutyKept h']
  rfl

theorem acceptHash_hlen (src : Addr) (len : Len) (dst : Addr) (s : State) : (acceptHash src len dst s).he.hlen = len := by
  obtain ⟨⟨-, -, -, hlen, -⟩, -⟩ := markClash_same .he _
  rw [acceptHash, hlen]

theorem hashWork_withHsrc {s : State} (h : s.he.hlen = 0) (a : Addr) :
    hashWork (s.withHsrc a) = (hashWork s).withHsrc a := by
  simp [hashWork, State.withHsrc, h, memRead]

theorem hashEmit_withHsrc (a : Addr) (s : State) : hashEmit (s.withHsrc a) = (hashEmit s).withHsrc a := by
  cases hm : s.heDisturbed <;> simp [hashEmit, State.withHsrc, hm, spoilHash]

theorem acceptKey_dst {src : Addr} {len : Len} {dst : Addr} (dst' : Addr) {s : State}
    (h : dutyKept (.sm4SetKey src len dst) s) :
    acceptCipher opcSetKey .kload src len dst' s = (acceptCipher opcSetKey .kload src len dst s).withCdst dst' := by
  have h' : dutyKept (.sm4SetKey src len dst') s := h
  rw [acceptCipher_of_dutyKept .kload rfl rfl h, acceptCipher_of_dutyKept .kload rfl rfl h']
  rfl

theorem keyFinish_withCdst {s : State} (h : s.ce.cop = opcSetKey) (a : Addr) :
    keyFinish (s.withCdst a) = (keyFinish s).withCdst a := by
  cases hm : s.ceDisturbed <;> simp [keyFinish, State.withCdst, hm, spoilCipher, spoilKey, h]

theorem hostReadStatus_withCdst {s : State} (h : s.ce.cop = opcSetKey) (a : Addr) :
    hostReadStatus .ce (s.withCdst a) = (hostReadStatus .ce s).withCdst a := by
  simp [hostReadStatus, State.withCdst, cipherOutput, ceStatus, h]

/-- SM3.HASH of the empty message with another SRC, refused or accepted, differs in HSRC at most. -/
theorem exec_sm3Hash_empty_src {src : Addr} (src' : Addr) {dst : Addr} {s t : State} (hb : s.he.status.busy = false)
    (hd : dutyKept (.sm3Hash src 0 dst) s) (h : exec (.sm3Hash src 0 dst) s = .next t) :
    ∃ a, exec (.sm3Hash src' 0 dst) s = .next (t.withHsrc a) := by
  have hcheck : instrCheck s.aw s.ce.keyValid (.sm3Hash src' 0 dst) =
      instrCheck s.aw s.ce.keyValid (.sm3Hash src 0 dst) := hashCheck_empty s.aw src src' dst
  cases hc : instrCheck s.aw s.ce.keyValid (.sm3Hash src 0 dst) with
  | none =>
    cases h.symm.trans (exec_accepted hb hc)
    refine ⟨src', (exec_accepted (i := .sm3Hash src' 0 dst) hb (hcheck.trans hc)).trans ?_⟩
    simp only [accept, finish, acceptHash_empty_src src' hd, hashWork_withHsrc (acceptHash_hlen src 0 dst s),
      hashEmit_withHsrc]
    rfl
  | some e =>
    cases h.symm.trans (exec_refused hb hc)
    exact ⟨(refuse .he e s).he.hsrc, exec_refused (i := .sm3Hash src' 0 dst) hb (hcheck.trans hc)⟩

/-- SM4.SETKEY with another DST, refused or accepted, differs in CDST at most. -/
theorem exec_sm4SetKey_dst {src : Addr} {len : Len} {dst : Addr} (dst' : Addr) {s t : State}
    (hb : s.ce.status.busy = false) (hd : dutyKept (.sm4SetKey src len dst) s)
    (h : exec (.sm4SetKey src len dst) s = .next t) : ∃ a, exec (.sm4SetKey src len dst') s = .next (t.withCdst a) := by
  cases hc : instrCheck s.aw s.ce.keyValid (.sm4SetKey src len dst) with
  | none =>
    cases h.symm.trans (exec_accepted hb hc)
    refine ⟨dst', (exec_accepted (i := .sm4SetKey src len dst') hb hc).trans ?_⟩
    have hcop := acceptCipher_cop opcSetKey .kload src len dst s
    have hwork : keyWork ((acceptCipher opcSetKey .kload src len dst s).withCdst dst') =
      (keyWork (acceptCipher opcSetKey .kload src len dst s)).withCdst dst' := rfl
    have hend : (keyFinish (keyWork (acceptCipher opcSetKey .kload src len dst s))).ce.cop = opcSetKey := by
      simpa [keyFinish_control] using hcop
    simp only [accept, finish, acceptKey_dst dst' hd, hwork, keyFinish_withCdst (s := keyWork _) hcop, Instr.port,
      hostReadStatus_withCdst hend]
  | some e =>
    cases h.symm.trans (exec_refused hb hc)
    exact ⟨(refuse .ce e s).ce.cdst, exec_refused (i := .sm4SetKey src len dst') hb hc⟩

/-! ### The end of a wait (R129, R163, R220) -/

/-- An internal step of an engine keeps its status, or completes the command. -/
theorem hashStep_status (s : State) :
    (hashStep s).he.status = s.he.status ∨ (hashStep s).he.status = s.he.status.complete := by
  cases hs : s.he.seq with
  | emit i => exact .inr (by rw [hashStep_emit hs]; simp [hashEmit_control])
  | idle | load | expand | round | feed => exact .inl (by simp [hashStep, hs])

theorem cipherStep_status (s : State) :
    (cipherStep s).ce.status = s.ce.status ∨ (cipherStep s).ce.status = s.ce.status.complete := by
  cases hs : s.ce.seq with
  | kround r =>
    by_cases hr : r.val + 1 < 32
    · exact .inl (by simp [cipherStep, hs, hr])
    · exact .inr (by simp [cipherStep, hs, hr, keyFinish_control])
  | bstore b =>
    by_cases hb : b + 1 < cipherBlocks s
    · exact .inl (by simp [cipherStep_store_more hs hb])
    · exact .inr (by simp [cipherStep_store_last hs hb, cryptFinish_control])
  | idle | kload | bload | round => exact .inl (by simp [cipherStep, hs])

/-- An engine that is at work, or has ended its command, is so after an internal step. -/
theorem engineStep_busy_or_done {p : Port} {s : State} (h : busyOf p s = true ∨ doneOf p s = true) :
    busyOf p (engineStep p s) = true ∨ doneOf p (engineStep p s) = true := by
  cases p with
  | he => rcases hashStep_status s with hst | hst <;> simp_all [busyOf, doneOf, engineStep, Status.complete]
  | ce => rcases cipherStep_status s with hst | hst <;> simp_all [busyOf, doneOf, engineStep, Status.complete]

/-- In a legal state waiting for a busy engine ends with DONE = 1. -/
theorem await_done {p : Port} {s : State} (h : s.Inv) (hb : busyOf p s = true) : doneOf p (await p s) = true := by
  have hor : busyOf p (await p s) = true ∨ doneOf p (await p s) = true :=
    await_keeps (P := fun u => busyOf p u = true ∨ doneOf p u = true) (fun _ => engineStep_busy_or_done) (.inl hb)
  exact hor.resolve_left (by rw [await_not_busy h]; decide)

/-- A call sees the state only after the wait for its engine. -/
theorem exec_congr_await {i : Instr} {s t : State} (h : await i.port t = await i.port s) : exec i t = exec i s := by
  cases i <;> simp only [Instr.port, await] at h <;>
    simp only [exec, execSm3Hash, execSm4SetKey, execSm4Enc, execSm4Dec, h]

@[simp] theorem engineStep_host (p : Port) (s : State) : (engineStep p s).host = s.host := by
  cases p <;> simp [engineStep, hashStep_rest, cipherStep_rest]

/-! ### The statements -/

/-- Settles O1: encoding and decoding are inverse, the number of a descriptor with AW-bit addresses is the descriptor, and the
engines' numbers differ. -/
theorem decodeAndEncodeAgree : Obligations.DecodeAndEncodeAgree := by
  unfold Obligations.DecodeAndEncodeAgree
  refine ⟨fun aw i _ _ hw => ⟨decode_encode i, ?_, fun q => decode_encode_of_ne⟩, fun p d i => decode_eq_ok_iff.1⟩
  have hd : (encode i).wellFormed aw = true := (Instr.wellFormed_eq i aw).symm.trans hw
  rw [Descriptor.ofBits_toBits hd, decode_encode]

/-- Settles O2: a port reads its own commands, each from its own descriptor. -/
theorem portsAcceptExactlyTheirCommands : Obligations.PortsAcceptExactlyTheirCommands := by
  unfold Obligations.PortsAcceptExactlyTheirCommands
  refine fun d => ⟨fun i => decode_eq_ok_iff.trans ⟨?_, ?_⟩, fun i => decode_eq_ok_iff.trans ⟨?_, ?_⟩⟩
  · rintro ⟨hp, rfl⟩
    cases i with
    | sm3Hash => exact ⟨rfl, rfl⟩
    | sm4SetKey | sm4Enc | sm4Dec => cases hp
  · rintro ⟨hcmd, rfl⟩
    exact ⟨rfl, encode_of_fields hcmd.symm rfl rfl rfl⟩
  · rintro ⟨hp, rfl⟩
    cases i with
    | sm3Hash => cases hp
    | sm4SetKey => exact .inl ⟨rfl, rfl⟩
    | sm4Enc => exact .inr (.inl ⟨rfl, rfl⟩)
    | sm4Dec => exact .inr (.inr ⟨rfl, rfl⟩)
  · rintro (⟨hcmd, rfl⟩ | ⟨hcmd, rfl⟩ | ⟨hcmd, rfl⟩) <;> exact ⟨rfl, encode_of_fields hcmd.symm rfl rfl rfl⟩

/-- Settles O22: within the duty of R66 acceptance marks nothing, so that the engine's latch, its status and its phase are all that
changes of the machine. -/
theorem acceptanceLatchesTheFields : Obligations.AcceptanceLatchesTheFields := by
  unfold Obligations.AcceptanceLatchesTheFields
  intro i s _ hc hd
  rw [issueInstr_of_check hc]
  exact ⟨fun hp => accept_hash_of_dutyKept hp hd, fun hp => accept_cipher_of_dutyKept hp hd⟩

/-- Settles O28: the second run is the first with the other operand latched, since no later part of the command reads it. -/
theorem unusedFieldsAreIgnored : Obligations.UnusedFieldsAreIgnored := by
  unfold Obligations.UnusedFieldsAreIgnored
  refine ⟨fun src src' dst s t t' hb hd ht ht' => ?_, fun src len dst dst' s t t' hb hd ht ht' => ?_⟩
  · obtain ⟨a, ha⟩ := exec_sm3Hash_empty_src src' hb hd ht
    cases ht'.symm.trans ha
    rfl
  · obtain ⟨a, ha⟩ := exec_sm4SetKey_dst dst' hb hd ht
    cases ht'.symm.trans ha
    rfl

/-- Settles O41: after the wait the engine is not busy, so that the call does not wait again. -/
theorem commandWaitsForBusyEngine : Obligations.CommandWaitsForBusyEngine := by
  unfold Obligations.CommandWaitsForBusyEngine
  intro i s h hb
  have hidle : busyOf i.port (await i.port s) = false := await_not_busy h
  exact ⟨(exec_congr_await (await_idle hidle)).symm, hidle, await_done h hb⟩

/-- Settles O3: each word is the CMD of its command, with every operand 0. -/
theorem tableWordsDecode : Obligations.TableWordsDecode := by
  unfold Obligations.TableWordsDecode
  exact ⟨decodeTableWord_of_encode rfl, decodeTableWord_of_encode rfl, decodeTableWord_of_encode rfl,
    decodeTableWord_of_encode rfl⟩

/-- Settles O6: the issue is not taken from the list, which no internal step touches. -/
theorem issueWaitsWhileBusy : Obligations.IssueWaitsWhileBusy := by
  unfold Obligations.IssueWaitsWhileBusy
  intro s p d rest hs hb
  exact ⟨engineStep p s, by simp [step_cons hs, hostStep, hb], rfl, (engineStep_host p s).trans hs⟩

end Sys2Proof.Machine
end

section
/-! SUPPORT. The leaf units bit by bit and byte by byte: where rotation takes a bit, the Boolean functions in both ranges of rounds,
the packings of bytes and words as inverses; then the statements of 40_primitives.md. -/

namespace Sys2Proof.Machine

/-! ### Rotation (R90) -/

/-- A bit that rotation does not carry past bit 31 moves up by the amount. -/
theorem getLsbD_rotl_of_lt (x : Word) {n i : Nat} (h : i + n % 32 < 32) :
    (rotl x n).getLsbD (i + n % 32) = x.getLsbD i := by
  have habove : ¬ i + n % 32 < n % 32 := by omega
  rw [rotl, BitVec.getLsbD_rotateLeft, decide_eq_false habove, cond_false, decide_eq_true h, Bool.true_and,
    Nat.add_sub_cancel]

/-- A bit carried past bit 31 comes in again from bit 0. -/
theorem getLsbD_rotl_of_le (x : Word) {n i : Nat} (hi : i < 32) (h : 32 ≤ i + n % 32) :
    (rotl x n).getLsbD (i + n % 32 - 32) = x.getLsbD i := by
  have hbelow : i + n % 32 - 32 < n % 32 := by omega
  have hback : 32 - n % 32 + (i + n % 32 - 32) = i := by omega
  simp [rotl, BitVec.getLsbD_rotateLeft, hbelow, hback]

/-! ### The Boolean functions (R94, R95) -/

theorem getLsbD_ff_of_lt (x y z : Word) {j : Nat} (hj : j < 16) (i : Nat) :
    (ff x y z j).getLsbD i = ((x.getLsbD i ^^ y.getLsbD i) ^^ z.getLsbD i) := by
  simp [ff, hj, xor32]

/-- In the rounds of parity the two functions are one (R95). -/
theorem gg_eq_ff_of_lt (x y z : Word) {j : Nat} (hj : j < 16) : gg x y z j = ff x y z j :=
  (if_pos hj).trans (if_pos hj).symm

theorem getLsbD_ff_of_le (x y z : Word) {j : Nat} (hj : 16 ≤ j) (i : Nat) :
    (ff x y z j).getLsbD i =
      ((x.getLsbD i && y.getLsbD i) || (x.getLsbD i && z.getLsbD i) || (y.getLsbD i && z.getLsbD i)) := by
  simp [ff, hj.not_gt, or32, and32]

/-- Bit i of x chooses between bit i of y and bit i of z. -/
theorem getLsbD_gg_of_le (x y z : Word) {j i : Nat} (hj : 16 ≤ j) (hi : i < 32) :
    (gg x y z j).getLsbD i = if x.getLsbD i then y.getLsbD i else z.getLsbD i := by
  have hor : (gg x y z j).getLsbD i = (x.getLsbD i && y.getLsbD i || !x.getLsbD i && z.getLsbD i) := by
    simp [gg, hj.not_gt, or32, and32, not32, hi]
  cases hx : x.getLsbD i <;> simp [hor, hx]

/-! ### Packing (R104) -/

/-- Appending bit vectors is positional notation: the left one stands above the right one. -/
theorem toNat_append_eq_mul_add {m n : Nat} (x : BitVec m) (y : BitVec n) :
    (x ++ y).toNat = x.toNat * 2 ^ n + y.toNat := by
  rw [BitVec.toNat_append, ← Nat.shiftLeft_add_eq_or_of_lt y.isLt, Nat.shiftLeft_eq]

theorem toNat_be32 (b0 b1 b2 b3 : Byte) :
    (be32 b0 b1 b2 b3).toNat = b0.toNat * 2 ^ 24 + b1.toNat * 2 ^ 16 + b2.toNat * 2 ^ 8 + b3.toNat := by
  simp only [be32, toNat_append_eq_mul_add]
  ring

/-- The bytes of a word, by the place of their lowest bit. -/
theorem bytes32_eq (w : Word) :
    bytes32 w = [w.extractLsb' 24 8, w.extractLsb' 16 8, w.extractLsb' 8 8, w.extractLsb' 0 8] := rfl

/-- Byte t of a word as a digit of its number to the base 256. -/
theorem toNat_byteOf (w : Word) (t : Nat) : (byteOf w t).toNat = w.toNat / 2 ^ (8 * (3 - t)) % 256 := by
  rw [byteOf, BitVec.extractLsb'_toNat, Nat.shiftRight_eq_div_pow]

/-- The four digits are read back from the number, each below 256. -/
@[simp] theorem bytes32_be32 (b0 b1 b2 b3 : Byte) : bytes32 (be32 b0 b1 b2 b3) = [b0, b1, b2, b3] := by
  have h0 : b0.toNat < 256 := b0.isLt
  have h1 : b1.toNat < 256 := b1.isLt
  have h2 : b2.toNat < 256 := b2.isLt
  have h3 : b3.toNat < 256 := b3.isLt
  simp only [bytes32, List.cons.injEq, and_true, ← BitVec.toNat_inj, toNat_byteOf, toNat_be32]
  omega

/-- Adjacent fields appended are one field: twice for the halves of the word, once more for the word. -/
@[simp] theorem be32_byteOf (w : Word) : be32 (byteOf w 0) (byteOf w 1) (byteOf w 2) (byteOf w 3) = w := by
  have hhigh : (byteOf w 0 ++ byteOf w 1 : BitVec 16) = w.extractLsb' 16 16 :=
    BitVec.extractLsb'_append_extractLsb'_eq_extractLsb' rfl
  have hlow : (byteOf w 2 ++ byteOf w 3 : BitVec 16) = w.extractLsb' 0 16 :=
    BitVec.extractLsb'_append_extractLsb'_eq_extractLsb' rfl
  rw [be32, hhigh, hlow]
  exact (BitVec.extractLsb'_append_extractLsb'_eq_extractLsb' rfl).trans BitVec.extractLsb'_eq_self

theorem toNat_be64_getD (n : Nat) {k : Nat} (hk : k < 8) :
    ((be64 n).getD k 0).toNat = n / 2 ^ (8 * (7 - k)) % 256 := by
  simp [be64, List.getD_eq_getElem?_getD, List.getElem?_range hk]

/-! ### The statements -/

/-- Settles O50: a bit either stays within the word or comes round, and each case has its own place modulo 32. -/
theorem rotateMovesEveryBit : Obligations.RotateMovesEveryBit := by
  unfold Obligations.RotateMovesEveryBit
  intro x n i hi
  rcases Nat.lt_or_ge (i + n % 32) 32 with h | h
  · rw [Nat.mod_eq_of_lt h, getLsbD_rotl_of_lt x h]
  · have hplace : (i + n % 32) % 32 = i + n % 32 - 32 := by omega
    rw [hplace, getLsbD_rotl_of_le x hi h]

/-- Settles O51: parity in the first 16 rounds, majority and choice from there on. -/
theorem booleanFunctionsBitByBit : Obligations.BooleanFunctionsBitByBit := by
  unfold Obligations.BooleanFunctionsBitByBit
  exact fun x y z _ i =>
    ⟨fun hj => ⟨getLsbD_ff_of_lt x y z hj i, gg_eq_ff_of_lt x y z hj⟩,
      fun hj => ⟨getLsbD_ff_of_le x y z hj i, getLsbD_gg_of_le x y z hj⟩⟩

/-- Settles O52: `bytes32_be32` and `be32_byteOf` are the two inverse laws; no bound on n is needed for the bytes of be64. -/
theorem packingFormulas : Obligations.PackingFormulas := by
  unfold Obligations.PackingFormulas
  exact ⟨fun b0 b1 b2 b3 => ⟨toNat_be32 b0 b1 b2 b3, bytes32_be32 b0 b1 b2 b3⟩,
    fun w => ⟨bytes32_eq w, be32_byteOf w⟩, fun n _ _ hk => ⟨be64_length n, toNat_be64_getD n hk⟩⟩

end Sys2Proof.Machine
end

section
/-! SUPPORT. The padded message byte by byte, and the expanded message word by word; SM3.HASH as one call within the duty of
R66; the internal steps of the Hash Engine, block by block, as the work of the command; then the statements of
41_sm3_hash.md. -/

namespace Sys2Proof.Machine

/-! ### The padded message (R120) -/

theorem paddedLen_eq_div (len : Nat) : paddedLen len = 64 * ((len + 72) / 64) := by
  unfold paddedLen padZeros; omega

theorem blockCount_eq_div (len : Nat) : blockCount len = (len + 72) / 64 := by
  rw [blockCount, paddedLen_eq_div, hashBlockLen_eq, Nat.mul_div_cancel_left _ (by decide)]

theorem paddedLen_eq_blocks (len : Nat) : paddedLen len = 64 * blockCount len := by
  rw [paddedLen_eq_div, blockCount_eq_div]

theorem blockCount_pos (len : Nat) : 1 ≤ blockCount len := by
  rw [blockCount_eq_div]; omega

theorem padZeros_le (len : Nat) : padZeros len ≤ 63 := by
  unfold padZeros; omega

/-- With the zero bytes the message ends eight bytes before the end of a block. -/
theorem padZeros_aligns (len : Nat) : (len + 1 + padZeros len) % 64 = 56 := by
  unfold padZeros; omega

/-- The length field takes the last eight bytes, and what stands before it the rest. -/
theorem padHead_length (m : List Byte) :
    (m ++ [0x80] ++ List.replicate (padZeros m.length) (0x00 : Byte)).length = paddedLen m.length - 8 := by
  simp only [paddedLen, List.length_append, List.length_singleton, List.length_replicate]
  omega

@[simp] theorem pad_length (m : List Byte) : (pad m).length = paddedLen m.length := by
  rw [pad, List.length_append, padHead_length, be64_length, paddedLen, Nat.add_sub_cancel]

/-- Byte p of the padded message, by the part it lies in. -/
theorem pad_getD (m : List Byte) (p : Nat) :
    (pad m).getD p 0 =
      if p < m.length then m.getD p 0
      else if p = m.length then 0x80
      else if paddedLen m.length - 8 ≤ p then (be64 (8 * m.length)).getD (p - (paddedLen m.length - 8)) 0
      else 0x00 := by
  have hhead := padHead_length m
  have hroom : m.length + 1 ≤ paddedLen m.length - 8 := by unfold paddedLen; omega
  rw [pad]
  split
  · next hmessage => rw [List.getD_append _ _ _ _ (by omega), List.append_assoc, List.getD_append _ _ _ _ hmessage]
  · split
    · next hmark =>
      rw [List.getD_append _ _ _ _ (by omega), List.getD_append _ _ _ _ (by simp [hmark]),
        List.getD_append_right _ _ _ _ (by omega), hmark, Nat.sub_self]
      rfl
    · split
      · rw [List.getD_append_right _ _ _ _ (by omega), hhead]
      · rw [List.getD_append _ _ _ _ (by omega), List.getD_append_right _ _ _ _ (by simp; omega)]
        simp

/-! ### The message expansion (R121, R122, R123) -/

@[simp] theorem blockWords_length (b : List Byte) : (blockWords b).length = 16 := by simp [blockWords]

theorem blockWords_getD (b : List Byte) {k : Nat} (hk : k < 16) : (blockWords b).getD k 0 = wordOf b k := by
  simp [blockWords, hk]

theorem length_expandBy (n : Nat) (w : List Word) : (expandBy n w).length = w.length + n := by
  induction n generalizing w with
  | zero => rfl
  | succ n ih => rw [expandBy, ih, List.length_append, List.length_singleton]; omega

/-- Expansion appends: the words it starts from stay in front. -/
theorem expandBy_eq_append (n : Nat) (w : List Word) : ∃ more, expandBy n w = w ++ more := by
  induction n generalizing w with
  | zero => exact ⟨[], (List.append_nil w).symm⟩
  | succ n ih =>
    obtain ⟨more, hmore⟩ := ih (w ++ [nextWord w])
    exact ⟨nextWord w :: more, by rw [expandBy, hmore, List.append_assoc, List.singleton_append]⟩

theorem getD_expandBy_of_lt {n j : Nat} {w : List Word} (hj : j < w.length) :
    (expandBy n w).getD j 0 = w.getD j 0 := by
  obtain ⟨more, hmore⟩ := expandBy_eq_append n w
  rw [hmore, List.getD_append _ _ _ _ hj]

theorem take_expandBy (n : Nat) (w : List Word) : (expandBy n w).take w.length = w := by
  obtain ⟨more, hmore⟩ := expandBy_eq_append n w
  rw [hmore, List.take_left]

/-- Every appended word is the next one after those in front of it. -/
theorem getD_expandBy_of_le {n j : Nat} {w : List Word} (hlo : w.length ≤ j) (hhi : j < w.length + n) :
    (expandBy n w).getD j 0 = nextWord ((expandBy n w).take j) := by
  induction n generalizing w with
  | zero => omega
  | succ n ih =>
    rcases Nat.eq_or_lt_of_le hlo with rfl | hlt
    · rw [take_expandBy, expandBy, getD_expandBy_of_lt (by simp), List.getD_append_right _ _ _ _ le_rfl, Nat.sub_self]
      rfl
    · exact ih (by simpa using hlt) (by simp; omega)

theorem expand_getElem (w16 : List Word) {j : Nat} (hj : j < 68) : (expand w16)[j] = (expandBy 52 w16).getD j 0 :=
  fileOf_getElem 68 _ j hj

theorem expand_getElem_of_lt (b : List Byte) {k : Nat} (hk : k < 16) :
    (expand (blockWords b))[k]'(by omega) = wordOf b k := by
  rw [expand_getElem, getD_expandBy_of_lt (by simpa), blockWords_getD b hk]

/-- The recurrence of the expanded words. -/
theorem expand_getElem_of_le {w16 : List Word} (h16 : w16.length = 16) {j : Nat} (hj : j < 68) (hlo : 16 ≤ j) :
    (expand w16)[j] =
      p1 ((expand w16)[j - 16] ^^^ (expand w16)[j - 9] ^^^ rotl (expand w16)[j - 3] 15) ^^^
        rotl (expand w16)[j - 13] 7 ^^^ (expand w16)[j - 6] := by
  have hlen : ((expandBy 52 w16).take j).length = j := by
    rw [List.length_take, length_expandBy]; omega
  have hback : ∀ k < j, ((expandBy 52 w16).take j).getD k 0 = (expandBy 52 w16).getD k 0 := by
    intro k hk; simp [hk]
  rw [expand_getElem, getD_expandBy_of_le (by omega) (by omega), nextWord, hlen, hback _ (by omega),
    hback _ (by omega), hback _ (by omega), hback _ (by omega), hback _ (by omega)]
  simp only [expand_getElem, xor32]

theorem auxWords_getElem (w : Vector Word 68) {j : Nat} (hj : j < 64) : (auxWords w)[j] = w[j] ^^^ w[j + 4] := by
  have hj68 : j < 68 := by omega
  have hj4 : j + 4 < 68 := by omega
  rw [auxWords, fileOf_getElem]
  simp [hj, hj68, hj4, xor32]

/-! ### SM3.HASH as one call, within the duty of R66 (R128) -/

@[simp] theorem sm3_length (m : List Byte) : (sm3 m).length = 32 := digestOf_length _

/-- What SM3.HASH on the message `m` leaves, given to an idle engine within the duty of R66: the digest at DST, the Hash Engine's
registers, and the command in flight until the host has seen DONE. -/
def hashed (src : Addr) (len : Len) (dst : Addr) (m : List Byte) (s : State) : State :=
  { supersede .he s with
    buf := memWrite s.buf dst.toNat (sm3 m)
    he :=
      { v := hashState m
        regs := freeWords8 s.draws
        w := expand (blockWords (blockAt (pad m) (blockCount m.length - 1)))
        w1 := auxWords (expand (blockWords (blockAt (pad m) (blockCount m.length - 1))))
        hsrc := src, hlen := len, hdst := dst, seq := .idle, status := ⟨false, true, none⟩ }
    heInFlight := true
    heDisturbed := false
    draws := s.draws + 8 }

theorem exec_sm3Hash_of_dutyKept {src : Addr} {len : Len} {dst : Addr} {s : State} (hb : s.he.status.busy = false)
    (hd : dutyKept (.sm3Hash src len dst) s) (hc : hashCheck s.aw src len dst = none) :
    exec (.sm3Hash src len dst) s =
      .next (hostReadStatus .he (hashed src len dst (memRead s.buf src.toNat len.toNat) s)) := by
  rw [exec_accepted (i := .sm3Hash src len dst) hb hc, finish, accept, acceptHash_of_dutyKept hd]
  simp [hashWork, hashEmit, hashed, sm3, Instr.port]

theorem hashed_buf (src : Addr) (len : Len) (dst : Addr) (m : List Byte) (s : State) :
    (hashed src len dst m s).buf = memWrite s.buf dst.toNat (sm3 m) := by
  simp only [hashed]

theorem memRead_hashed {src : Addr} {len : Len} {dst : Addr} {m : List Byte} {s : State} (hwf : s.buf.wf) :
    memRead (hashed src len dst m s).buf dst.toNat 32 = sm3 m := by
  have hread := memRead_memWrite hwf dst.toNat (sm3 m)
  rwa [sm3_length, ← hashed_buf src len] at hread

theorem heStatus_hashed (src : Addr) (len : Len) (dst : Addr) (m : List Byte) (s : State) :
    heStatus (hashed src len dst m s) = 0x00000002 := Status.word_done

/-! ### The bytes that LOAD makes (R129) -/

/-- The message of the running command. -/
def State.message (s : State) : List Byte := memRead s.buf s.he.hsrc.toNat s.he.hlen.toNat

@[simp] theorem message_length (s : State) : s.message.length = s.he.hlen.toNat := memRead_length ..

/-- The padded message made byte by byte on demand is PAD of the message. -/
theorem paddedByte_eq (s : State) (p : Nat) : paddedByte s p = (pad s.message).getD p 0 := by
  rw [pad_getD, message_length, paddedByte]
  split
  · next hp => rw [State.message, memRead_getD _ _ _ _ hp]
  · rfl

theorem hashLoadBlock_eq (s : State) {i : Nat} (hi : i < blockCount s.he.hlen.toNat) :
    hashLoadBlock s i = blockAt (pad s.message) i := by
  have hin : 64 * i + 64 ≤ (pad s.message).length := by
    rw [pad_length, message_length, paddedLen_eq_blocks]; omega
  have hload : (hashLoadBlock s i).length = 64 := by simp [hashLoadBlock]
  have hblock : (blockAt (pad s.message) i).length = 64 := by
    rw [blockAt, hashBlockLen_eq, List.length_take, List.length_drop]; omega
  refine List.ext_getElem (hload.trans hblock.symm) fun k hk _ => ?_
  have hbyte : 64 * i + k < (pad s.message).length := by omega
  simp [hashLoadBlock, blockAt, paddedByte_eq, List.getElem?_eq_getElem hbyte]

/-- The sixteen words that LOAD puts into W are those that EXPAND reads. -/
theorem take_loadWords {w16 : List Word} (h : w16.length = 16) (w : Vector Word 68) :
    (loadWords w16 w).toList.take 16 = w16 := by
  refine List.ext_getElem (by simp [h]) fun k _ hk => ?_
  simp [loadWords, fileOf, hk, List.getElem?_append]

/-! ### The internal steps of a block (R125, R129) -/

/-- The state with other registers of the Hash Engine. -/
def State.withHe (s : State) (e : HashEngine) : State := { s with he := e }

@[simp] theorem withHe_he (s : State) (e : HashEngine) : (s.withHe e).he = e := rfl

@[simp] theorem withHe_withHe (s : State) (e f : HashEngine) : (s.withHe e).withHe f = s.withHe f := rfl

theorem hashSteps_succ (n : Nat) (s : State) : hashSteps (n + 1) s = hashStep (hashSteps n s) := hashSteps_add n 1 s

/-- The first n rounds of a block with the words W and W'. -/
def hashRoundsTo (n : Nat) (w : Vector Word 68) (w1 : Vector Word 64) (r : Words8) : Words8 :=
  (List.range n).foldl (fun r j => hashRound j (w.toList.getD j 0) (w1.toList.getD j 0) r) r

theorem hashRounds_eq (w : Vector Word 68) (w1 : Vector Word 64) (r : Words8) :
    hashRounds w w1 r = hashRoundsTo 64 w w1 r := rfl

theorem hashRoundsTo_succ (n : Nat) (w : Vector Word 68) (w1 : Vector Word 64) (r : Words8) :
    hashRoundsTo (n + 1) w w1 r =
      hashRound n (w.toList.getD n 0) (w1.toList.getD n 0) (hashRoundsTo n w w1 r) := by
  simp [hashRoundsTo, List.range_succ]

/-- The phase after k rounds of block i. -/
def HSeq.afterRounds (i k : Nat) : HSeq := if h : k < 64 then .round i ⟨k, h⟩ else .feed i

/-- The Hash Engine after FEED of block i, whose bytes are `b`, from the hash state `v` before that block. -/
def HashEngine.afterBlock (e : HashEngine) (i : Nat) (b : List Byte) (v : Words8) : HashEngine :=
  { e with
    v := compress v b
    regs := hashRounds (expand (blockWords b)) (auxWords (expand (blockWords b))) v
    w := expand (blockWords b)
    w1 := auxWords (expand (blockWords b))
    seq := if i + 1 < blockCount e.hlen.toNat then .load (i + 1) else .emit i }

/-- LOAD and EXPAND. -/
theorem hashSteps_load {s : State} {i : Nat} (hq : s.he.seq = .load i) :
    hashSteps 2 s = s.withHe { s.he with
      v := if i = 0 then ivState else s.he.v
      regs := if i = 0 then ivState else s.he.v
      w := expand (blockWords (hashLoadBlock s i))
      w1 := auxWords (expand (blockWords (hashLoadBlock s i)))
      seq := .round i 0 } := by
  simp [hashSteps, hashStep, hq, take_loadWords (blockWords_length _), State.withHe]

theorem hashSteps_rounds {s : State} {i : Nat} (hq : s.he.seq = .round i 0) {k : Nat} (hk : k ≤ 64) :
    hashSteps k s =
      s.withHe { s.he with regs := hashRoundsTo k s.he.w s.he.w1 s.he.regs, seq := .afterRounds i k } := by
  induction k with
  | zero => simp [hashSteps, hashRoundsTo, HSeq.afterRounds, State.withHe, ← hq]
  | succ k ih =>
    have hround : k < 64 := hk
    rw [hashSteps_succ, ih (by omega)]
    simp [hashStep, HSeq.afterRounds, hround, hashRoundsTo_succ, State.withHe]

/-- LOAD, EXPAND, 64 rounds and FEED are the compression of the block. -/
theorem hashSteps_block {s : State} {i : Nat} (hq : s.he.seq = .load i) :
    hashSteps 67 s = s.withHe (s.he.afterBlock i (hashLoadBlock s i) (if i = 0 then ivState else s.he.v)) := by
  rw [show 67 = 2 + 64 + 1 from rfl, hashSteps_succ, hashSteps_add, hashSteps_load hq, hashSteps_rounds rfl le_rfl]
  simp [hashStep, HSeq.afterRounds, HashEngine.afterBlock, compress, hashRounds_eq, State.withHe]

/-! ### The internal steps of SM3.HASH (R126, R129) -/

theorem hashBlocks_succ (pm : List Byte) (n : Nat) :
    hashBlocks pm (n + 1) = compress (hashBlocks pm n) (blockAt pm n) := by
  simp [hashBlocks, List.range_succ]

/-- The Hash Engine after FEED of block i of the running command's message. -/
def State.heAfterBlock (s : State) (i : Nat) : HashEngine :=
  s.he.afterBlock i (blockAt (pad s.message) i) (hashBlocks (pad s.message) i)

/-- 67 internal steps for each block compress the blocks in ascending order. -/
theorem hashSteps_blocks {s : State} (hq : s.he.seq = .load 0) {k : Nat} (hk : k < blockCount s.he.hlen.toNat) :
    hashSteps (67 * (k + 1)) s = s.withHe (s.heAfterBlock k) := by
  induction k with
  | zero => rw [hashSteps_block hq, hashLoadBlock_eq s hk]; rfl
  | succ k ih =>
    have hload : (s.withHe (s.heAfterBlock k)).he.seq = .load (k + 1) := if_pos hk
    have hblock : hashLoadBlock (s.withHe (s.heAfterBlock k)) (k + 1) = blockAt (pad s.message) (k + 1) :=
      hashLoadBlock_eq (s.withHe (s.heAfterBlock k)) hk
    have hstate : (s.heAfterBlock k).v = hashBlocks (pad s.message) (k + 1) := (hashBlocks_succ _ k).symm
    rw [Nat.mul_succ, hashSteps_add, ih (by omega), hashSteps_block hload, hblock, if_neg (Nat.succ_ne_zero k),
      withHe_withHe, withHe_he, hstate]
    rfl

theorem hashWork_eq (s : State) :
    hashWork s = s.withHe { s.he with
      v := hashState s.message
      w := expand (blockWords (blockAt (pad s.message) (blockCount s.message.length - 1)))
      w1 := auxWords (expand (blockWords (blockAt (pad s.message) (blockCount s.message.length - 1)))) } := by
  simp only [hashWork, State.withHe, State.message]

/-- EMIT reads neither A to H nor HSEQ. -/
theorem hashEmit_congr (s : State) (r : Words8) (q : HSeq) :
    hashEmit (s.withHe { s.he with regs := r, seq := q }) = hashEmit s := by
  unfold hashEmit; rfl

/-- From LOAD of the first block on, 67 * n + 1 internal steps do the command's work and end it, whether its duty is kept or
broken. -/
theorem hashSteps_command {s : State} (hq : s.he.seq = .load 0) :
    hashSteps (67 * blockCount s.he.hlen.toNat + 1) s = hashEmit (hashWork s) := by
  obtain ⟨k, hk⟩ := Nat.exists_eq_add_of_le' (blockCount_pos s.he.hlen.toNat)
  have hlast : (s.withHe (s.heAfterBlock k)).he.seq = .emit k := if_neg (by omega)
  have hwork : s.withHe (s.heAfterBlock k) =
      (hashWork s).withHe { (hashWork s).he with regs := (s.heAfterBlock k).regs, seq := .emit k } := by
    have hstate : hashState s.message = compress (hashBlocks (pad s.message) k) (blockAt (pad s.message) k) := by
      rw [hashState, message_length, hk, hashBlocks_succ]
    rw [hashWork_eq, hstate, message_length, hk, Nat.add_sub_cancel, ← hlast]
    rfl
  rw [hashSteps_succ, hk, hashSteps_blocks hq (by omega), hashStep_emit hlast, hwork, hashEmit_congr]

theorem acceptHash_seq (src : Addr) (len : Len) (dst : Addr) (s : State) :
    (acceptHash src len dst s).he.seq = .load 0 := by
  obtain ⟨⟨hseq, -⟩, -⟩ := markClash_same .he _
  rw [acceptHash, hseq]

/-! ### The statements -/

/-- Settles O53: the lengths of the four parts of PAD, and each byte by the part it lies in. -/
theorem paddedMessageShape : Obligations.PaddedMessageShape := by
  unfold Obligations.PaddedMessageShape
  intro m
  refine ⟨?_, blockCount_eq_div _, blockCount_pos _, padZeros_aligns _, padZeros_le _, ?_, ?_, ?_, ?_⟩
  · rw [pad_length, paddedLen_eq_blocks]
  · simp [pad]
  · rw [pad_getD, if_neg (lt_irrefl _), if_pos rfl]
  · intro k hlo hhi
    rw [pad_length] at hhi
    rw [pad_getD, if_neg (by omega), if_neg (by omega), if_neg (by omega)]
  · rw [pad_length, pad, ← padHead_length, List.drop_left]

/-- Settles O54: expansion keeps the block's words in front, and each later word is the next one after those before it. -/
theorem messageExpansionRecurrence : Obligations.MessageExpansionRecurrence := by
  unfold Obligations.MessageExpansionRecurrence
  rintro b w rfl
  exact ⟨fun k hk => expand_getElem_of_lt b hk, fun j hj hlo => expand_getElem_of_le (blockWords_length b) hj hlo,
    fun j hj => auxWords_getElem _ hj⟩

/-- Settles O25: within the duty the call leaves `hashed` of the message, as the host sees it with DONE = 1. -/
theorem hashCommandResult : Obligations.HashCommandResult := by
  unfold Obligations.HashCommandResult
  intro src len dst s hwf hb hd hlen hsrc hdst
  have hc : hashCheck s.aw src len dst = none := hashCheck_of hlen hsrc hdst
  refine ⟨_, exec_sm3Hash_of_dutyKept hb hd hc, ?_, ?_⟩
  · rw [readStatus_he_buf, memRead_hashed hwf]
  · simp [hashed, heStatus]

/-- Settles O26: `hashed` writes the 32 bytes of the digest and the Hash Engine's registers; a refusal the status alone. -/
theorem hashCommandFrame : Obligations.HashCommandFrame := by
  unfold Obligations.HashCommandFrame
  intro src len dst s t hwf hb hd h
  cases hc : hashCheck s.aw src len dst with
  | none =>
    cases h.symm.trans (exec_sm3Hash_of_dutyKept hb hd hc)
    refine ⟨fun a ha => ?_, by simp, by simp [hashed]⟩
    rw [readStatus_he_buf, hashed_buf, read_memWrite_outside hwf (by rwa [sm3_length])]
  | some e =>
    cases h.symm.trans (exec_refused (i := .sm3Hash src len dst) hb hc)
    simp [refuse, Instr.port]

/-- Settles O27: both runs leave SM3 of the same message at their DST. -/
theorem digestDependsOnMessageAlone : Obligations.DigestDependsOnMessageAlone := by
  unfold Obligations.DigestDependsOnMessageAlone
  intro src src' len dst dst' s s' t t' hwf hwf' hb hb' hd hd' hc hc' hm h h'
  cases h.symm.trans (exec_sm3Hash_of_dutyKept hb hd hc)
  cases h'.symm.trans (exec_sm3Hash_of_dutyKept hb' hd' hc')
  constructor
  · rw [readStatus_he_buf, readStatus_he_buf, memRead_hashed hwf, memRead_hashed hwf', hm]
  · simp only [heStatus, readStatus_he_he]
    exact (heStatus_hashed ..).trans (heStatus_hashed ..).symm

/-- Settles O29: an accepted issue stands at LOAD of the first block, and the steps from there are the command's work; after a
refused one the engine is idle and takes none. -/
theorem hashInternalStepsMeetTheCommand : Obligations.HashInternalStepsMeetTheCommand := by
  unfold Obligations.HashInternalStepsMeetTheCommand
  intro src len dst s hinv hb
  cases hc : instrCheck s.aw s.ce.keyValid (.sm3Hash src len dst) with
  | none =>
    have hsteps := hashSteps_command (acceptHash_seq src len dst s)
    rw [acceptHash_hlen] at hsteps
    rw [exec_accepted (i := .sm3Hash src len dst) hb hc, issueInstr_of_check hc, accept, hsteps]
    rfl
  | some e =>
    have hidle : s.he.seq = .idle := by
      by_contra hq
      simp [hinv.hashIdle.2 hq] at hb
    have hrefused : (refuse .he e s).he.seq = .idle := by simpa [refuse] using hidle
    rw [exec_refused (i := .sm3Hash src len dst) hb hc, issueInstr, hc]
    simp only [Instr.port, hashSteps_idle _ hrefused]

end Sys2Proof.Machine
end

section
/-! SUPPORT. The cipher as functions: the key expansion window by window, the rounds and their inverse, and ECB block by block; then
the statements of 42_sm4_cipher.md on them. -/

namespace Sys2Proof.Machine

/-! ### The key expansion (R150, R151, R152) -/

/-- The window K before key round n of an expansion that starts with the window `k` (R151). -/
def keyWindow (k : Words4) : Nat → Words4
  | 0 => k
  | n + 1 => (keyWindow k n).shift (keyWord n (keyWindow k n))

theorem keyRounds_range' (k : Words4) (a n : Nat) :
    keyRounds (List.range' a n) (keyWindow k a) = (List.range' a n).map fun i => keyWord i (keyWindow k i) := by
  induction n generalizing a with
  | zero => rfl
  | succ n ih => rw [List.range'_succ, List.map_cons, keyRounds, ← ih (a + 1), keyWindow]

/-- Round key i is the word that enters the window in key round i. -/
theorem keyExp_getElem (key : List Byte) {i : Nat} (hi : i < 32) :
    (keyExp key)[i] = keyWord i (keyWindow (keyLoad key) i) := by
  have hrounds := keyRounds_range' (keyLoad key) 0 32
  rw [← List.range_eq_range', keyWindow] at hrounds
  rw [keyExp, fileOf_getElem, hrounds]
  simp [hi]

/-- A sequence that starts with the key words and follows the key recurrence fills the windows. -/
theorem keyWindow_of_recurrence {key : List Byte} {x : Nat → Word}
    (hload : ∀ k, k < 4 → x k = wordOf key k ^^^ fk.getD k 0)
    (hround : ∀ i, i < 32 → x (i + 4) = x i ^^^ roundTKey (x (i + 1) ^^^ x (i + 2) ^^^ x (i + 3) ^^^ ck i))
    {i : Nat} (hi : i ≤ 32) : keyWindow (keyLoad key) i = ⟨x i, x (i + 1), x (i + 2), x (i + 3)⟩ := by
  induction i with
  | zero => simp [keyWindow, keyLoad, xor32, hload]
  | succ i ih =>
    rw [keyWindow, ih (by omega), Words4.shift, keyWord]
    simp only [xor32, ← hround i hi]

/-! ### The rounds and their inverse (R153, R154, R158) -/

/-- The four words of a window in reverse order, as CRYPT stores them (R154). -/
def Words4.reverse (x : Words4) : Words4 := ⟨x.w3, x.w2, x.w1, x.w0⟩

/-- A data round on the reversed window undoes the round with the same key. -/
theorem dataRound_reverse_dataRound (x : Words4) (k : Word) :
    dataRound (dataRound x k).reverse k = x.reverse := by
  have hsum : xor32 (xor32 x.w3 x.w2) x.w1 = xor32 (xor32 x.w1 x.w2) x.w3 := by
    simp only [xor32]
    ac_rfl
  simp only [dataRound, Words4.shift, Words4.reverse, hsum]
  simp [xor32, BitVec.xor_assoc]

/-- The rounds with the keys in reverse order undo the rounds. -/
theorem foldl_dataRound_reverse (keys : List Word) (x : Words4) :
    keys.reverse.foldl dataRound (keys.foldl dataRound x).reverse = x.reverse := by
  induction keys generalizing x with
  | nil => rfl
  | cons k keys ih =>
    rw [List.foldl_cons, List.reverse_cons, List.foldl_append, ih, List.foldl_cons, List.foldl_nil,
      dataRound_reverse_dataRound]

/-- Loading a stored block reverses the window (R154). -/
theorem blockLoad_blockStore (x : Words4) : blockLoad (blockStore x) = x.reverse := by
  simp [blockLoad, blockStore, wordOf, bytes32, Words4.reverse]

/-- A block of 16 bytes is the bytes of its four words. -/
theorem blockStore_reverse_blockLoad {block : List Byte} (h : block.length = 16) :
    blockStore (blockLoad block).reverse = block := by
  have hbytes : blockStore (blockLoad block).reverse = (List.range 16).map fun k => block.getD k 0 := by
    simp only [blockStore, blockLoad, Words4.reverse, wordOf, bytes32_be32]
    rfl
  rw [hbytes]
  refine List.ext_getElem (by simp [h]) fun k _ hk => ?_
  simp [hk]

/-- CRYPT with the keys in reverse order undoes CRYPT. -/
theorem crypt_reverse_crypt (keys : List Word) {block : List Byte} (h : block.length = 16) :
    crypt keys.reverse (crypt keys block) = block := by
  rw [crypt, crypt, blockLoad_blockStore, foldl_dataRound_reverse, blockStore_reverse_blockLoad h]

/-- The other direction. -/
def Direction.opposite : Direction → Direction
  | .encrypt => .decrypt
  | .decrypt => .encrypt

theorem cryptBlock_eq_crypt (dir : Direction) (rk : Vector Word 32) (block : List Byte) :
    cryptBlock dir rk block = crypt (keyOrder dir rk) block := by
  cases dir <;> rfl

theorem keyOrder_opposite (dir : Direction) (rk : Vector Word 32) :
    keyOrder dir.opposite rk = (keyOrder dir rk).reverse := by
  cases dir <;> simp [keyOrder, Direction.opposite]

/-- The transform of a block in the other direction undoes it. -/
theorem cryptBlock_opposite (dir : Direction) (rk : Vector Word 32) {block : List Byte} (h : block.length = 16) :
    cryptBlock dir.opposite rk (cryptBlock dir rk block) = block := by
  rw [cryptBlock_eq_crypt, cryptBlock_eq_crypt, keyOrder_opposite, crypt_reverse_crypt _ h]

theorem keyOrder_length (dir : Direction) (rk : Vector Word 32) : (keyOrder dir rk).length = 32 := by
  cases dir <;> simp [keyOrder]

theorem keyOrder_getElem? (dir : Direction) (rk : Vector Word 32) (r : Fin 32) :
    (keyOrder dir rk)[r.val]? = some (roundKey dir rk r) := by
  cases dir with
  | encrypt => simp [keyOrder, roundKey, Vector.get_eq_getElem]
  | decrypt =>
    simp [keyOrder, roundKey, Vector.get_eq_getElem, Fin.val_rev]

/-! ### ECB, block by block (R157, R159) -/

/-- The first n blocks that ECB answers for `p`. -/
def ecbBlocks (dir : Direction) (rk : Vector Word 32) (p : List Byte) (n : Nat) : List Byte :=
  (List.range n).flatMap fun b => cryptBlock dir rk (cipherBlockAt p b)

theorem ecb_eq_ecbBlocks (dir : Direction) (rk : Vector Word 32) (p : List Byte) :
    ecb dir rk p = ecbBlocks dir rk p (p.length / 16) := rfl

theorem ecbBlocks_succ (dir : Direction) (rk : Vector Word 32) (p : List Byte) (n : Nat) :
    ecbBlocks dir rk p (n + 1) = ecbBlocks dir rk p n ++ cryptBlock dir rk (cipherBlockAt p n) := by
  simp [ecbBlocks, List.range_succ]

theorem ecbBlocks_length (dir : Direction) (rk : Vector Word 32) (p : List Byte) (n : Nat) :
    (ecbBlocks dir rk p n).length = 16 * n := by
  simp [ecbBlocks, List.length_flatMap, cryptBlock_length, Nat.mul_comm]

theorem cipherBlockAt_length {p : List Byte} {b : Nat} (hb : b < p.length / 16) : (cipherBlockAt p b).length = 16 := by
  simp only [cipherBlockAt, blockLen_eq, List.length_take, List.length_drop]
  omega

theorem cipherBlockAt_append_of_lt {p : List Byte} {b : Nat} (hb : b < p.length / 16) (q : List Byte) :
    cipherBlockAt (p ++ q) b = cipherBlockAt p b := by
  simp only [cipherBlockAt, blockLen_eq]
  rw [List.drop_append_of_le_length (by omega), List.take_append_of_le_length (by simp; omega)]

theorem cipherBlockAt_ecbBlocks (dir : Direction) (rk : Vector Word 32) (p : List Byte) {n b : Nat} (hb : b < n) :
    cipherBlockAt (ecbBlocks dir rk p n) b = cryptBlock dir rk (cipherBlockAt p b) := by
  induction n with
  | zero => omega
  | succ n ih =>
    have hlen := ecbBlocks_length dir rk p n
    rw [ecbBlocks_succ]
    rcases Nat.lt_succ_iff_lt_or_eq.1 hb with hlt | rfl
    · rw [cipherBlockAt_append_of_lt (by omega), ih hlt]
    · have hall : (cryptBlock dir rk (cipherBlockAt p b)).take 16 = cryptBlock dir rk (cipherBlockAt p b) :=
        List.take_of_length_le (cryptBlock_length dir rk _).le
      rw [cipherBlockAt, blockLen_eq, ← hlen, List.drop_left, hall]

/-- ECB transforms block b of its input into block b of its output. -/
theorem cipherBlockAt_ecb (dir : Direction) (rk : Vector Word 32) {p : List Byte} {b : Nat} (hb : b < p.length / 16) :
    cipherBlockAt (ecb dir rk p) b = cryptBlock dir rk (cipherBlockAt p b) :=
  cipherBlockAt_ecbBlocks dir rk p hb

/-- A sequence is its blocks, one after the other. -/
theorem flatMap_cipherBlockAt (p : List Byte) (n : Nat) :
    ((List.range n).flatMap fun b => cipherBlockAt p b) = p.take (16 * n) := by
  induction n with
  | zero => simp
  | succ n ih =>
    rw [List.range_succ, List.flatMap_append, ih, List.flatMap_singleton, cipherBlockAt, blockLen_eq, Nat.mul_succ,
      List.take_add]

/-- ECB in the other direction undoes ECB on a whole number of blocks. -/
theorem ecb_opposite (dir : Direction) (rk : Vector Word 32) {p : List Byte} (h : p.length % 16 = 0) :
    ecb dir.opposite rk (ecb dir rk p) = p := by
  have hblock : ∀ b ∈ List.range (p.length / 16),
      cryptBlock dir.opposite rk (cipherBlockAt (ecb dir rk p) b) = cipherBlockAt p b := by
    intro b hb
    have hb := List.mem_range.1 hb
    rw [cipherBlockAt_ecb dir rk hb, cryptBlock_opposite dir rk (cipherBlockAt_length hb)]
  rw [ecb_eq_ecbBlocks dir.opposite, ecb_length, Nat.mul_div_cancel_left _ (by decide), ecbBlocks,
    List.flatMap_congr hblock, flatMap_cipherBlockAt]
  exact List.take_of_length_le (by omega)

/-! ### The statements -/

/-- Settles O55: each window of the expansion holds four words of the sequence, and the round key is the next one. -/
theorem keyScheduleRecurrence : Obligations.KeyScheduleRecurrence := by
  unfold Obligations.KeyScheduleRecurrence
  intro key x hload hround i hi
  rw [keyExp_getElem key hi, keyWindow_of_recurrence hload hround hi.le, hround i hi]
  rfl

/-- Settles O56: a round on the reversed window undoes the round, so the rounds in reverse order undo a block. -/
theorem blockInverse : Obligations.BlockInverse := by
  unfold Obligations.BlockInverse
  exact fun rk =>
    ⟨fun block h => ⟨cryptBlock_opposite .encrypt rk h, cryptBlock_opposite .decrypt rk h⟩,
      fun p h => ⟨ecb_opposite .encrypt rk h, ecb_opposite .decrypt rk h⟩⟩

/-- Settles O57: every block that ECB answers is 16 bytes long and made from the input block in its place. -/
theorem blocksAreIndependent : Obligations.BlocksAreIndependent := by
  unfold Obligations.BlocksAreIndependent
  intro dir rk p hp
  refine ⟨?_, fun b hb => cipherBlockAt_ecb dir rk hb, fun b c hb hc hbc => ?_⟩
  · rw [ecb_length]; omega
  · rw [cipherBlockAt_ecb dir rk hb, cipherBlockAt_ecb dir rk hc, hbc]

end Sys2Proof.Machine
end

section
/-! SUPPORT. The cipher commands as one call within the duty of R66; the internal steps of the Block Cipher Engine, key round by key
round and block by block, as the work of the command; then the statements of 42_sm4_cipher.md on the commands. -/

namespace Sys2Proof.Machine

/-! ### SM4.SETKEY as one call, within the duty of R66 (R160) -/

/-- What SM4.SETKEY with the key `key` leaves, given to an idle engine within the duty of R66: the schedule, KEYVALID, and the
command in flight until the host has seen DONE. -/
def keyLoaded (src : Addr) (len : Len) (dst : Addr) (key : List Byte) (s : State) : State :=
  { s with
    ce := { s.ce with
      rk := keyExp key, keyValid := true, k := freeWords4 s.draws, cop := opcSetKey, csrc := src, clen := len, cdst := dst
      seq := .idle, status := ⟨false, true, none⟩ }
    ceInFlight := true
    ceDisturbed := false
    unseen := keepUnseen opcSetKey (supersede .ce s).unseen
    draws := s.draws + 4 }

theorem exec_sm4SetKey_of_dutyKept {src : Addr} {len : Len} {dst : Addr} {s : State} (hb : s.ce.status.busy = false)
    (hd : dutyKept (.sm4SetKey src len dst) s) (hc : keyCheck s.aw src len = none) :
    exec (.sm4SetKey src len dst) s =
      .next (hostReadStatus .ce (keyLoaded src len dst (memRead s.buf src.toNat 16) s)) := by
  rw [exec_accepted (i := .sm4SetKey src len dst) hb hc, finish, accept, acceptCipher_of_dutyKept .kload rfl rfl hd]
  simp [keyWork, keyFinish, keyLoaded, Instr.port]

/-! ### SM4.ENC and SM4.DEC as one call, within the duty of R66 (R161, R162) -/

/-- The cipher command of a direction. -/
def Direction.instr (dir : Direction) (src : Addr) (len : Len) (dst : Addr) : Instr :=
  match dir with
  | .encrypt => .sm4Enc src len dst
  | .decrypt => .sm4Dec src len dst

/-- The opcode of a direction. -/
def Direction.cop : Direction → BitVec 8
  | .encrypt => opcEnc
  | .decrypt => opcDec

theorem directionOf_cop (dir : Direction) : directionOf dir.cop = dir := by
  cases dir <;> rfl

theorem Direction.cop_ne_setKey (dir : Direction) : dir.cop ≠ opcSetKey := by
  cases dir <;> decide

/-- A statement about SM4.ENC and SM4.DEC is one about both directions. -/
theorem exists_direction {i : Instr} {src : Addr} {len : Len} {dst : Addr}
    (hi : i = .sm4Enc src len dst ∨ i = .sm4Dec src len dst) : ∃ dir : Direction, i = dir.instr src len dst :=
  hi.elim (fun h => ⟨.encrypt, h⟩) (fun h => ⟨.decrypt, h⟩)

/-- What SM4.ENC or SM4.DEC on the input `p` leaves, given to an idle engine within the duty of R66: the ECB image at DST, and the
command in flight until the host has seen DONE. -/
def ciphered (dir : Direction) (src : Addr) (len : Len) (dst : Addr) (p : List Byte) (s : State) : State :=
  { supersede .ce s with
    buf := memWrite s.buf dst.toNat (ecb dir s.ce.rk p)
    ce := { s.ce with
      x := freeWords4 s.draws, cop := dir.cop, csrc := src, clen := len, cdst := dst
      seq := .idle, status := ⟨false, true, none⟩ }
    ceInFlight := true
    ceDisturbed := false
    draws := s.draws + 4 }

section
variable (dir : Direction) (src : Addr) (len : Len) (dst : Addr)

theorem Direction.instr_port : (dir.instr src len dst).port = .ce := by
  cases dir <;> rfl

theorem instrCheck_instr (aw : Nat) (keyed : Bool) :
    instrCheck aw keyed (dir.instr src len dst) = cryptCheck aw keyed src len dst := by
  cases dir <;> rfl

theorem accept_instr (s : State) :
    accept (dir.instr src len dst) s = acceptCipher dir.cop (.bload 0) src len dst s := by
  cases dir <;> rfl

theorem finish_instr (s : State) : finish (dir.instr src len dst) s = cryptFinish (cryptWork dir s) := by
  cases dir <;> rfl

theorem instrSpans_instr :
    instrSpans (dir.instr src len dst) =
      (if dir.cop = opcSetKey then keyInput src else cryptInput src len,
       if dir.cop = opcSetKey then ⟨0, 0⟩ else cryptOutput len dst) := by
  cases dir <;> rfl

variable {dir src len dst}

theorem exec_instr_accepted {s : State} (hb : s.ce.status.busy = false)
    (hc : cryptCheck s.aw s.ce.keyValid src len dst = none) :
    exec (dir.instr src len dst) s =
      .next (hostReadStatus .ce (cryptFinish (cryptWork dir (acceptCipher dir.cop (.bload 0) src len dst s)))) := by
  rw [← accept_instr, ← finish_instr dir src len dst, ← dir.instr_port src len dst]
  exact exec_accepted (by rwa [dir.instr_port]) (by rwa [instrCheck_instr])

theorem exec_instr_refused {s : State} {e : CmdError} (hb : s.ce.status.busy = false)
    (hc : cryptCheck s.aw s.ce.keyValid src len dst = some e) :
    exec (dir.instr src len dst) s = .next (hostReadStatus .ce (refuse .ce e s)) := by
  rw [← dir.instr_port src len dst]
  exact exec_refused (by rwa [dir.instr_port]) (by rwa [instrCheck_instr])

theorem exec_instr_of_dutyKept {s : State} (hb : s.ce.status.busy = false) (hd : dutyKept (dir.instr src len dst) s)
    (hc : cryptCheck s.aw s.ce.keyValid src len dst = none) :
    exec (dir.instr src len dst) s =
      .next (hostReadStatus .ce (ciphered dir src len dst (memRead s.buf src.toNat len.toNat) s)) := by
  rw [exec_instr_accepted hb hc,
    acceptCipher_of_dutyKept (.bload 0) (dir.instr_port src len dst) (instrSpans_instr dir src len dst) hd]
  simp [cryptWork, cryptFinish, ciphered, keepUnseen, dir.cop_ne_setKey]

/-- The ECB image of the input stands at DST. -/
theorem memRead_ciphered {p : List Byte} {s : State} (hwf : s.buf.wf) (hp : p.length = len.toNat)
    (hlen : len.toNat % 16 = 0) :
    memRead (ciphered dir src len dst p s).buf dst.toNat len.toNat = ecb dir s.ce.rk p := by
  have hread := memRead_memWrite hwf dst.toNat (ecb dir s.ce.rk p)
  rwa [ecb_length, hp, Nat.mul_div_cancel' (Nat.dvd_of_mod_eq_zero hlen)] at hread

end

/-- The result of SM4.ENC and SM4.DEC under the conditions of R161 and R162. -/
theorem exec_instr_result (dir : Direction) {src : Addr} {len : Len} {dst : Addr} {s : State} (hwf : s.buf.wf)
    (hb : s.ce.status.busy = false) (hd : dutyKept (dir.instr src len dst) s) (hkey : s.ce.keyValid = true)
    (hc : cryptCheck s.aw s.ce.keyValid src len dst = none) :
    ∃ t, exec (dir.instr src len dst) s = .next t ∧
      memRead t.buf dst.toNat len.toNat = ecb dir s.ce.rk (memRead s.buf src.toNat len.toNat) ∧
      ceStatus t = 0x00000006 ∧ t.lastStatus = 0x00000006 ∧ t.ce.seq = .idle ∧
      t.ce.rk = s.ce.rk ∧ t.ce.keyValid = true := by
  obtain ⟨-, -, hlen, -⟩ := cryptCheck_none hc
  refine ⟨_, exec_instr_of_dutyKept hb hd hc, ?_, ?_⟩
  · rw [readStatus_ce_buf, memRead_ciphered hwf (memRead_length ..) hlen]
  · simp [ciphered, ceStatus, hkey]

/-! ### The internal steps of SM4.SETKEY (R163) -/

theorem cipherSteps_succ (n : Nat) (s : State) : cipherSteps (n + 1) s = cipherStep (cipherSteps n s) :=
  cipherSteps_add n 1 s

/-- The state with other registers of the Block Cipher Engine. -/
def State.withCe (s : State) (e : CipherEngine) : State := { s with ce := e }

@[simp] theorem withCe_ce (s : State) (e : CipherEngine) : (s.withCe e).ce = e := rfl

@[simp] theorem withCe_withCe (s : State) (e f : CipherEngine) : (s.withCe e).withCe f = s.withCe f := rfl

/-- The key of the running SM4.SETKEY. -/
def State.key (s : State) : List Byte := memRead s.buf s.ce.csrc.toNat 16

theorem keyWork_eq (s : State) : keyWork s = s.withCe { s.ce with rk := keyExp s.key } := rfl

/-- After KLOAD and n key rounds the window is the n-th of the expansion, and the first n round keys are the schedule's. -/
theorem cipherSteps_keyRounds {s : State} (hq : s.ce.seq = .kload) {n : Nat} (hn : n < 32) :
    ∃ rk : Vector Word 32,
      cipherSteps (n + 1) s =
        s.withCe { s.ce with rk := rk, k := keyWindow (keyLoad s.key) n, seq := .kround ⟨n, hn⟩ } ∧
      ∀ j (hj : j < n), rk[j] = (keyExp s.key)[j] := by
  induction n with
  | zero =>
    refine ⟨s.ce.rk, ?_, fun j hj => absurd hj (Nat.not_lt_zero j)⟩
    simp [cipherSteps, cipherStep, hq, keyWindow, State.key, State.withCe]
  | succ n ih =>
    obtain ⟨rk, hsteps, hrk⟩ := ih (by omega)
    refine ⟨rk.set n (keyWord n (keyWindow (keyLoad s.key) n)), ?_, fun j hj => ?_⟩
    · rw [cipherSteps_succ, hsteps]
      simp [cipherStep, hn, setCSeq, keyRoundStep, keyWindow, State.withCe]
    · rw [Vector.getElem_set]
      split
      · next hnj => subst hnj; rw [keyExp_getElem]
      · exact hrk j (by omega)

theorem cipherStep_kround_last {s : State} (hq : s.ce.seq = .kround 31) :
    cipherStep s = keyFinish (keyRoundStep 31 s) := by
  simp [cipherStep, hq]

/-- The end of SM4.SETKEY reads neither K nor CSEQ. -/
theorem keyFinish_congr (s : State) (k : Words4) (q : CSeq) :
    keyFinish (s.withCe { s.ce with k := k, seq := q }) = keyFinish s := by
  unfold keyFinish; rfl

/-- From KLOAD on, 33 internal steps do the command's work and end it, whether its duty is kept or broken. -/
theorem cipherSteps_key {s : State} (hq : s.ce.seq = .kload) : cipherSteps 33 s = keyFinish (keyWork s) := by
  obtain ⟨rk, hsteps, hrk⟩ := cipherSteps_keyRounds hq (n := 31) (by decide)
  have hfile : rk.set 31 (keyWord 31 (keyWindow (keyLoad s.key) 31)) = keyExp s.key := by
    refine Vector.ext fun j hj => ?_
    rw [Vector.getElem_set]
    split
    · next h => subst h; rw [keyExp_getElem]
    · exact hrk j (by omega)
  have hround : keyRoundStep 31 (cipherSteps 32 s) =
      (keyWork s).withCe { (keyWork s).ce with k := keyWindow (keyLoad s.key) 32, seq := .kround 31 } := by
    rw [hsteps, keyWork_eq, ← hfile]; rfl
  rw [cipherSteps_succ, cipherStep_kround_last (by rw [hsteps]; rfl), hround, keyFinish_congr]

/-! ### The internal steps of a block (R163) -/

/-- The phase after n rounds of block b. -/
def CSeq.afterRounds (b n : Nat) : CSeq := if h : n < 32 then .round b ⟨n, h⟩ else .bstore b

theorem cipherSteps_rounds {s : State} {b : Nat} (hq : s.ce.seq = .round b 0) {n : Nat} (hn : n ≤ 32) :
    cipherSteps n s = s.withCe { s.ce with
      x := ((keyOrder (directionOf s.ce.cop) s.ce.rk).take n).foldl dataRound s.ce.x
      seq := .afterRounds b n } := by
  induction n with
  | zero => simp [cipherSteps, CSeq.afterRounds, State.withCe, ← hq]
  | succ n ih =>
    have hround : n < 32 := hn
    have hkey := keyOrder_getElem? (directionOf s.ce.cop) s.ce.rk ⟨n, hround⟩
    rw [cipherSteps_succ, ih (by omega), List.take_add_one, hkey]
    simp [cipherStep, CSeq.afterRounds, hround, State.withCe]

/-- BLOAD and 32 rounds leave a window whose stored block is the transform of the input block. -/
theorem cipherSteps_block {s : State} {b : Nat} (hq : s.ce.seq = .bload b) :
    ∃ x, cipherSteps 33 s = s.withCe { s.ce with x := x, seq := .bstore b } ∧
      blockStore x = cryptBlock (directionOf s.ce.cop) s.ce.rk (memRead s.buf (s.ce.csrc.toNat + 16 * b) 16) := by
  have hload : cipherSteps 1 s = s.withCe { s.ce with
      x := blockLoad (memRead s.buf (s.ce.csrc.toNat + 16 * b) 16), seq := .round b 0 } := by
    simp [cipherSteps, cipherStep, hq, State.withCe]
  refine ⟨_, ?_, (cryptBlock_eq_crypt ..).symm⟩
  rw [show 33 = 1 + 32 from rfl, cipherSteps_add, hload, cipherSteps_rounds rfl le_rfl]
  simp [CSeq.afterRounds, List.take_of_length_le, keyOrder_length]

/-! ### The internal steps of SM4.ENC and SM4.DEC (R61, R62, R163) -/

/-- The input of the running SM4.ENC or SM4.DEC. -/
def State.source (s : State) : List Byte := memRead s.buf s.ce.csrc.toNat s.ce.clen.toNat

/-- BUF with the first n output blocks of the running SM4.ENC or SM4.DEC written. -/
def State.stored (s : State) (n : Nat) : Memory :=
  memWrite s.buf s.ce.cdst.toNat (ecbBlocks (directionOf s.ce.cop) s.ce.rk s.source n)

/-- The running SM4.ENC or SM4.DEC with n output blocks written, the window X and the phase given. -/
def State.crypting (s : State) (n : Nat) (x : Words4) (q : CSeq) : State :=
  { s with buf := s.stored n, ce := { s.ce with x := x, seq := q } }

/-- Storing output block n after the ones before it. -/
theorem stored_succ (s : State) (n : Nat) :
    memWrite (s.stored n) (s.ce.cdst.toNat + 16 * n)
      (cryptBlock (directionOf s.ce.cop) s.ce.rk (cipherBlockAt s.source n)) = s.stored (n + 1) := by
  rw [State.stored, State.stored, ecbBlocks_succ, memWrite_append, ecbBlocks_length]

/-- All output blocks are the work of the command in one piece. -/
theorem cryptWork_eq (s : State) :
    cryptWork (directionOf s.ce.cop) s = { s with buf := s.stored (cipherBlocks s) } := by
  rw [cryptWork, State.stored, State.source, ecb_eq_ecbBlocks, memRead_length]; rfl

/-- The end of SM4.ENC and SM4.DEC reads neither X nor CSEQ. -/
theorem cryptFinish_crypting (s : State) (n : Nat) (x : Words4) (q : CSeq) :
    cryptFinish (s.crypting n x q) = cryptFinish { s with buf := s.stored n } := by
  unfold cryptFinish; rfl

theorem cipherBlockAt_memRead (m : Memory) (a : Nat) {n b : Nat} (hb : b < n / 16) :
    cipherBlockAt (memRead m a n) b = memRead m (a + 16 * b) 16 := by
  refine List.ext_getElem ?_ fun k _ hk => ?_
  · rw [cipherBlockAt_length (by rwa [memRead_length]), memRead_length]
  · simp [cipherBlockAt, memRead, Nat.add_assoc]

section
variable {s : State} (hwf : s.buf.wf)
  (hranges : s.ce.cdst = s.ce.csrc ∨ s.ce.csrc.toNat + s.ce.clen.toNat ≤ s.ce.cdst.toNat ∨
    s.ce.cdst.toNat + s.ce.clen.toNat ≤ s.ce.csrc.toNat)
include hwf hranges

/-- The output blocks before block b leave input block b as it was, in place too (R62). -/
theorem memRead_stored {b : Nat} (hb : b < cipherBlocks s) :
    memRead (s.stored b) (s.ce.csrc.toNat + 16 * b) 16 = cipherBlockAt s.source b := by
  rw [cipherBlocks, blockLen_eq] at hb
  rw [State.stored, memRead_memWrite_apart hwf, State.source, cipherBlockAt_memRead _ _ hb]
  rw [ecbBlocks_length]
  rcases hranges with heq | hapart
  · rw [heq]; omega
  · omega

/-- BLOAD, 32 rounds and the write of BSTORE for one block, those before it being written. -/
theorem cipherSteps_store {b : Nat} (hb : b < cipherBlocks s) {x : Words4} :
    ∃ y, cipherSteps 33 (s.crypting b x (.bload b)) = s.crypting b y (.bstore b) ∧
      blockStoreStep b (s.crypting b y (.bstore b)) = s.crypting (b + 1) y (.bstore b) := by
  obtain ⟨y, hsteps, hy⟩ := cipherSteps_block (s := s.crypting b x (.bload b)) rfl
  refine ⟨y, hsteps, ?_⟩
  have hstore : memWrite (s.stored b) (s.ce.cdst.toNat + 16 * b) (blockStore y) = s.stored (b + 1) := by
    rw [← stored_succ, ← memRead_stored hwf hranges hb]
    exact congrArg (memWrite _ _) hy
  simp [blockStoreStep, State.crypting, hstore]

/-- 34 internal steps for each block write the output blocks in ascending order. -/
theorem cipherSteps_blocks (hq : s.ce.seq = .bload 0) {b : Nat} (hb : b < cipherBlocks s) :
    ∃ x, cipherSteps (34 * b) s = s.crypting b x (.bload b) := by
  induction b with
  | zero => exact ⟨s.ce.x, by simp [cipherSteps, State.crypting, State.stored, ecbBlocks, ← hq]⟩
  | succ b ih =>
    obtain ⟨x, hsteps⟩ := ih (by omega)
    obtain ⟨y, hblock, hstore⟩ := cipherSteps_store hwf hranges (b := b) (by omega) (x := x)
    refine ⟨y, ?_⟩
    rw [Nat.mul_succ, cipherSteps_add, hsteps, cipherSteps_succ, hblock,
      cipherStep_store_more (s := s.crypting b y (.bstore b)) rfl hb, hstore]
    rfl

/-- From BLOAD of the first block on, 34 internal steps a block do the command's work and end it, whether its duty is kept or
broken. -/
theorem cipherSteps_crypt (hq : s.ce.seq = .bload 0) (hpos : 0 < cipherBlocks s) :
    cipherSteps (34 * cipherBlocks s) s = cryptFinish (cryptWork (directionOf s.ce.cop) s) := by
  obtain ⟨b, hb⟩ := Nat.exists_eq_add_of_le' hpos
  obtain ⟨x, hsteps⟩ := cipherSteps_blocks hwf hranges hq (b := b) (by omega)
  obtain ⟨y, hblock, hstore⟩ := cipherSteps_store hwf hranges (b := b) (by omega) (x := x)
  have hlast : ¬ b + 1 < cipherBlocks (s.crypting b y (.bstore b)) :=
    not_lt.2 (show cipherBlocks s ≤ b + 1 from hb.le)
  rw [hb, Nat.mul_succ, cipherSteps_add, hsteps, cipherSteps_succ, hblock, cipherStep_store_last rfl hlast, hstore, ← hb,
    cryptWork_eq, cryptFinish_crypting]

end

/-! ### What an acceptance leaves to the internal steps (R78) -/

/-- The start of a cipher command: its first phase and its latched operands, whether the duty of R66 is kept or broken. -/
theorem acceptCipher_latches (cop : BitVec 8) (first : CSeq) (src : Addr) (len : Len) (dst : Addr) (s : State) :
    (acceptCipher cop first src len dst s).ce.seq = first ∧ (acceptCipher cop first src len dst s).ce.csrc = src ∧
    (acceptCipher cop first src len dst s).ce.clen = len ∧ (acceptCipher cop first src len dst s).ce.cdst = dst := by
  obtain ⟨-, ⟨hseq, -, -, hsrc, hlen, hdst, -⟩, -⟩ := markClash_same .ce _
  rw [acceptCipher, hseq, hsrc, hlen, hdst]
  exact ⟨rfl, rfl, rfl, rfl⟩

/-- 34 internal steps a block after the acceptance of SM4.ENC or SM4.DEC, on operands that pass the checks. -/
theorem cipherSteps_acceptCipher (dir : Direction) {src : Addr} {len : Len} {dst : Addr} {s : State} (hwf : s.buf.wf)
    (hc : cryptCheck s.aw s.ce.keyValid src len dst = none) :
    cipherSteps (34 * (len.toNat / 16)) (acceptCipher dir.cop (.bload 0) src len dst s) =
      cryptFinish (cryptWork dir (acceptCipher dir.cop (.bload 0) src len dst s)) := by
  obtain ⟨-, hpos, hmul, -, -, hranges⟩ := cryptCheck_none hc
  obtain ⟨hseq, hsrc, hlen, hdst⟩ := acceptCipher_latches dir.cop (.bload 0) src len dst s
  have hcop := acceptCipher_cop dir.cop (.bload 0) src len dst s
  have haccepted : (acceptCipher dir.cop (.bload 0) src len dst s).buf.wf := markClash_wf (by simpa using hwf)
  have hblocks : cipherBlocks (acceptCipher dir.cop (.bload 0) src len dst s) = len.toNat / 16 := by
    rw [cipherBlocks, hlen, blockLen_eq]
  have hsteps := cipherSteps_crypt haccepted (by rwa [hsrc, hlen, hdst]) hseq (by omega)
  rwa [hblocks, hcop, directionOf_cop] at hsteps

/-- Internal steps after a refused issue to an idle engine change nothing (R197). -/
theorem cipherSteps_refuse {s : State} (hinv : s.Inv) (hb : s.ce.status.busy = false) (e : CmdError) (n : Nat) :
    cipherSteps n (refuse .ce e s) = refuse .ce e s := by
  have hidle : s.ce.seq = .idle := by
    by_contra hq
    simp [hinv.cipherIdle.2 hq] at hb
  exact cipherSteps_idle n (by simpa [refuse] using hidle)

/-! ### The statements -/

/-- Settles O31: within the duty the call leaves `keyLoaded`, as the host sees it with DONE = 1. -/
theorem setKeyCommandResult : Obligations.SetKeyCommandResult := by
  unfold Obligations.SetKeyCommandResult
  intro src len dst s hb hd hlen hsrc
  refine ⟨_, exec_sm4SetKey_of_dutyKept hb hd (keyCheck_of hlen hsrc), ?_⟩
  simp [keyLoaded, ceStatus]

/-- Settles O32: `keyLoaded` writes registers of the Block Cipher Engine other than X; a refusal writes the status alone. -/
theorem setKeyCommandFrame : Obligations.SetKeyCommandFrame := by
  unfold Obligations.SetKeyCommandFrame
  intro src len dst s t hb hd h
  cases hc : keyCheck s.aw src len with
  | none =>
    cases h.symm.trans (exec_sm4SetKey_of_dutyKept hb hd hc)
    simp [keyLoaded]
  | some e =>
    cases h.symm.trans (exec_refused (i := .sm4SetKey src len dst) hb hc)
    simp [refuse, Instr.port]

/-- Settles O33: the result of the call in the direction of SM4.ENC. -/
theorem encryptCommandResult : Obligations.EncryptCommandResult := by
  unfold Obligations.EncryptCommandResult
  intro src len dst s hwf hb hd hkey hpos hmul hsrc hdst hranges
  exact exec_instr_result .encrypt hwf hb hd hkey (by rw [hkey]; exact cryptCheck_of hpos hmul hsrc hdst hranges)

/-- Settles O34: the result of the call in the direction of SM4.DEC. -/
theorem decryptCommandResult : Obligations.DecryptCommandResult := by
  unfold Obligations.DecryptCommandResult
  intro src len dst s hwf hb hd hkey hpos hmul hsrc hdst hranges
  exact exec_instr_result .decrypt hwf hb hd hkey (by rw [hkey]; exact cryptCheck_of hpos hmul hsrc hdst hranges)

/-- Settles O35: `ciphered` writes the LEN bytes at DST and X; a refusal writes the status alone. -/
theorem cryptCommandFrame : Obligations.CryptCommandFrame := by
  unfold Obligations.CryptCommandFrame
  intro i src len dst s t hi hwf hb hd h
  obtain ⟨dir, rfl⟩ := exists_direction hi
  cases hc : cryptCheck s.aw s.ce.keyValid src len dst with
  | none =>
    cases h.symm.trans (exec_instr_of_dutyKept hb hd hc)
    refine ⟨fun a ha => ?_, by simp, by simp [ciphered]⟩
    have hlen : (ecb dir s.ce.rk (memRead s.buf src.toNat len.toNat)).length ≤ len.toNat := by
      rw [ecb_length, memRead_length]; omega
    rw [readStatus_ce_buf, ciphered]
    exact read_memWrite_outside hwf (by omega)
  | some e =>
    cases h.symm.trans (exec_instr_refused hb hc)
    simp [refuse]

/-- The call in the other direction, on the range where a call put its output, gives the input back. -/
theorem exec_instr_opposite (dir : Direction) {src mid dst : Addr} {len : Len} {s t u : State} (hwf : s.buf.wf)
    (hb : s.ce.status.busy = false) (hd : dutyKept (dir.instr src len mid) s)
    (hd' : dutyKept (dir.opposite.instr mid len dst) t) (hc : cryptCheck s.aw s.ce.keyValid src len mid = none)
    (hc' : cryptCheck t.aw t.ce.keyValid mid len dst = none) (h : exec (dir.instr src len mid) s = .next t)
    (h' : exec (dir.opposite.instr mid len dst) t = .next u) :
    memRead u.buf dst.toNat len.toNat = memRead s.buf src.toNat len.toNat := by
  obtain ⟨-, -, hlen, -⟩ := cryptCheck_none hc
  cases h.symm.trans (exec_instr_of_dutyKept hb hd hc)
  cases h'.symm.trans (exec_instr_of_dutyKept rfl hd' hc')
  have hwf' : (ciphered dir src len mid (memRead s.buf src.toNat len.toNat) s).buf.wf := memWrite_wf hwf _ _
  rw [readStatus_ce_buf, memRead_ciphered (by rwa [readStatus_ce_buf]) (memRead_length ..) hlen, readStatus_ce_buf,
    memRead_ciphered hwf (memRead_length ..) hlen]
  exact ecb_opposite dir s.ce.rk (by rwa [memRead_length])

/-- Settles O36: the second call transforms under the same schedule what the first one left at its DST. -/
theorem decryptUndoesEncrypt : Obligations.DecryptUndoesEncrypt := by
  unfold Obligations.DecryptUndoesEncrypt
  rintro i j src len mid dst s t u (⟨rfl, rfl⟩ | ⟨rfl, rfl⟩) hwf hb hd hd' hc hc' h h'
  · exact exec_instr_opposite .encrypt hwf hb hd hd' hc hc' h h'
  · exact exec_instr_opposite .decrypt hwf hb hd hd' hc hc' h h'

/-- Settles O37: an accepted issue stands at KLOAD, and the steps from there are the command's work; after a refused one the engine
is idle and takes none. -/
theorem keyInternalStepsMeetTheCommand : Obligations.KeyInternalStepsMeetTheCommand := by
  unfold Obligations.KeyInternalStepsMeetTheCommand
  intro src len dst s hinv hb
  cases hc : instrCheck s.aw s.ce.keyValid (.sm4SetKey src len dst) with
  | none =>
    obtain ⟨hseq, -⟩ := acceptCipher_latches opcSetKey .kload src len dst s
    rw [exec_accepted (i := .sm4SetKey src len dst) hb hc, issueInstr_of_check hc, accept, cipherSteps_key hseq]
    rfl
  | some e =>
    rw [exec_refused (i := .sm4SetKey src len dst) hb hc, issueInstr, hc]
    simp only [Instr.port, cipherSteps_refuse hinv hb]

/-- Settles O38: an accepted issue stands at BLOAD of the first block, and the blocks from there are the command's work; after a
refused one the engine is idle and takes no step. -/
theorem cryptInternalStepsMeetTheCommand : Obligations.CryptInternalStepsMeetTheCommand := by
  unfold Obligations.CryptInternalStepsMeetTheCommand
  intro i src len dst s hi hinv hb
  obtain ⟨dir, rfl⟩ := exists_direction hi
  cases hc : cryptCheck s.aw s.ce.keyValid src len dst with
  | none =>
    rw [exec_instr_accepted hb hc, issueInstr, instrCheck_instr, hc, accept_instr]
    simp only [cipherSteps_acceptCipher dir hinv.bufWf hc]
  | some e =>
    rw [exec_instr_refused hb hc, issueInstr, instrCheck_instr, hc, dir.instr_port]
    simp only [cipherSteps_refuse hinv hb]

end Sys2Proof.Machine
end

section
/-! SUPPORT. The checks of each command as one chain of comparisons, in their order; what a port that reads no command does; an
error's entry, and what a refused command leaves for the host to see; then the statements of 60_exceptions.md. -/

namespace Sys2Proof.Machine

/-! ### The checks in plain arithmetic, in order (R182 to R189) -/

theorem hashCheck_eq (aw : Nat) (src : Addr) (len : Len) (dst : Addr) :
    hashCheck aw src len dst =
      if 2 ^ 61 ≤ len.toNat then some .messageTooLong
      else if (0 < len.toNat ∧ 2 ^ aw < src.toNat + len.toNat) ∨ 2 ^ aw < dst.toNat + 32 then some .addressRange
      else none := by
  have hrange : ((hashInput src len).inBuf aw && (hashOutput dst).inBuf aw) = false ↔
      (0 < len.toNat ∧ 2 ^ aw < src.toNat + len.toNat) ∨ 2 ^ aw < dst.toNat + 32 := by
    rw [← Bool.not_eq_true, Bool.and_eq_true, Span.inBuf_iff, Span.inBuf_iff]
    simp only [hashInput_n, hashInput_a, hashOutput_n, hashOutput_a]
    omega
  simp only [hashCheck, messageTooLong_iff, Config.msgLimit, Bool.not_eq_true', hrange]

theorem keyCheck_eq (aw : Nat) (src : Addr) (len : Len) :
    keyCheck aw src len =
      if len.toNat ≠ 16 then some .invalidKeyLength
      else if 2 ^ aw < src.toNat + 16 then some .addressRange
      else none := by
  have hrange : (keyInput src).inBuf aw = false ↔ 2 ^ aw < src.toNat + 16 := by
    rw [← Bool.not_eq_true, Span.inBuf_iff]
    simp only [keyInput_n, keyInput_a]
    omega
  simp only [keyCheck, badKeyLength_iff, Bool.not_eq_true', hrange]

/-- In the third comparison LEN is not 0, so that neither range is empty. -/
theorem cryptCheck_eq (aw : Nat) (keyed : Bool) (src : Addr) (len : Len) (dst : Addr) :
    cryptCheck aw keyed src len dst =
      if keyed = false then some .noKey
      else if len.toNat = 0 ∨ len.toNat % 16 ≠ 0 then some .invalidInputLength
      else if 2 ^ aw < src.toNat + len.toNat ∨ 2 ^ aw < dst.toNat + len.toNat then some .addressRange
      else if dst ≠ src ∧ src.toNat < dst.toNat + len.toNat ∧ dst.toNat < src.toNat + len.toNat then some .bufferOverlap
      else none := by
  simp only [cryptCheck, Bool.not_eq_true', badInputLength_iff]
  refine if_ctx_congr Iff.rfl (fun _ => rfl) fun _ => if_ctx_congr Iff.rfl (fun _ => rfl) fun hlen => ?_
  have hrange : ((cryptInput src len).inBuf aw && (cryptOutput len dst).inBuf aw) = false ↔
      2 ^ aw < src.toNat + len.toNat ∨ 2 ^ aw < dst.toNat + len.toNat := by
    rw [← Bool.not_eq_true, Bool.and_eq_true, Span.inBuf_iff, Span.inBuf_iff]
    simp only [cryptInput_n, cryptInput_a, cryptOutput_n, cryptOutput_a]
    omega
  have hpos : 0 < len.toNat := by omega
  simp only [hrange, badOverlap_iff, hpos, true_and]

/-! ### A CMD that is none of the port's commands (R76, R186) -/

theorem decode_error_of_unknown {p : Port} {d : Descriptor} (hhe : p = .he → d.cmd ≠ 0x00000010)
    (hce : p = .ce → d.cmd ≠ 0x00000020 ∧ d.cmd ≠ 0x00000021 ∧ d.cmd ≠ 0x00000022) : ∃ r, decode p d = .error r := by
  cases h : decode p d with
  | error r => exact ⟨r, rfl⟩
  | ok i =>
    obtain ⟨rfl, rfl⟩ := decode_eq_ok_iff.1 h
    cases i with
    | sm3Hash => exact absurd rfl (hhe rfl)
    | sm4SetKey => exact absurd rfl (hce rfl).1
    | sm4Enc => exact absurd rfl (hce rfl).2.1
    | sm4Dec => exact absurd rfl (hce rfl).2.2

theorem issueAt_of_decode_error {p : Port} {d : Descriptor} {r : DecodeReject} (h : decode p d = .error r) (s : State) :
    issueAt p d s = refuse p .illegalCommand s := by
  rw [issueAt, h]

theorem runCommand_of_decode_error {p : Port} {d : Descriptor} {r : DecodeReject} {s : State}
    (h : decode p d = .error r) (hb : busyOf p s = false) :
    runCommand p d s = .next (hostReadStatus p (refuse p .illegalCommand s)) := by
  rw [runCommand, h, await_idle hb]

/-! ### An error's entry (R190) -/

theorem raise_he_of_idle {s : State} (hb : s.he.status.busy = false) (e : CmdError) :
    raise .he e s = { s with he := { s.he with status := ⟨false, true, some e⟩ } } := by
  simp only [raise, Status.raise_clear, hb]

theorem raise_ce_of_idle {s : State} (hb : s.ce.status.busy = false) (e : CmdError) :
    raise .ce e s = { s with ce := { s.ce with status := ⟨false, true, some e⟩ } } := by
  simp only [raise, Status.raise_clear, hb]

theorem heStatus_raise {s : State} (hb : s.he.status.busy = false) (e : CmdError) :
    heStatus (raise .he e s) = Status.word ⟨false, true, some e⟩ false := by
  rw [raise_he_of_idle hb, heStatus]

theorem ceStatus_raise {s : State} (hb : s.ce.status.busy = false) (e : CmdError) :
    ceStatus (raise .ce e s) = Status.word ⟨false, true, some e⟩ s.ce.keyValid := by
  rw [raise_ce_of_idle hb, ceStatus]

/-! ### What a refused command leaves (R191, R192) -/

theorem hostReadStatus_lastStatus (p : Port) (s : State) :
    (hostReadStatus p s).lastStatus = statusOf p (hostReadStatus p s) := by
  cases p <;> rfl

/-- The register the host sees after a refusal carries the error. -/
theorem statusOf_refused {p : Port} {s : State} (hb : busyOf p s = false) (e : CmdError) :
    ∃ kv, statusOf p (hostReadStatus p (refuse p e s)) = Status.word ⟨false, true, some e⟩ kv := by
  cases p with
  | he =>
    refine ⟨false, heStatus_raise (s := supersede .he s) ?_ e⟩
    rwa [supersede_he_he]
  | ce =>
    refine ⟨(supersede .ce s).ce.keyValid, ceStatus_raise (s := supersede .ce s) ?_ e⟩
    rwa [supersede_ce_ce]

theorem refused_frame (p : Port) (e : CmdError) (s : State) :
    (hostReadStatus p (refuse p e s)).buf = s.buf ∧ (hostReadStatus p (refuse p e s)).host = s.host ∧
    (hostReadStatus p (refuse p e s)).lastByte = s.lastByte ∧ (hostReadStatus p (refuse p e s)).draws = s.draws := by
  cases p <;> simp [refuse]

theorem refused_engines (p : Port) (e : CmdError) (s : State) :
    (hostReadStatus p (refuse p e s)).he = { s.he with status := (hostReadStatus p (refuse p e s)).he.status } ∧
    (hostReadStatus p (refuse p e s)).ce = { s.ce with status := (hostReadStatus p (refuse p e s)).ce.status } ∧
    (p = .he → (hostReadStatus p (refuse p e s)).ce = s.ce) ∧
    (p = .ce → (hostReadStatus p (refuse p e s)).he = s.he) := by
  cases p <;> simp [refuse]

/-! ### Nothing to do (R197) -/

theorem freeRun_idle {s : State} (h : s.Inv) (he : s.he.status.busy = false) (hc : s.ce.status.busy = false) :
    freeRun s = s := by
  have hseq : s.ce.seq = .idle := by simpa [hc] using h.cipherIdle
  rw [freeRun, if_neg (by simp [he]), cipherStep_idle hseq]

/-! ### The statements -/

/-- Settles O5: the port reads no command, so that the issue, and the call, refuse with IllegalCommand. -/
theorem unknownCommandIsIllegal : Obligations.UnknownCommandIsIllegal := by
  unfold Obligations.UnknownCommandIsIllegal
  intro s p d rest hb hhe hce
  obtain ⟨r, hr⟩ := decode_error_of_unknown hhe hce
  refine ⟨fun hs => ?_, fun hs => ?_⟩
  · rw [step_cons hs, hostStep, hb, issueAt_of_decode_error hr]
    rfl
  · rw [step_cons hs, hostStep, runCommand_of_decode_error hr ((busyOf_withHost p s rest).trans hb)]
    rfl

/-- Settles O20: case by case, which of the four comparisons is the first to fail. -/
theorem cryptChecksInOrder : Obligations.CryptChecksInOrder := by
  unfold Obligations.CryptChecksInOrder
  intro aw keyed src len dst
  have hlt : len.toNat < 2 ^ 64 := len.isLt
  cases keyed with
  | false => simp [cryptCheck_eq]
  | true =>
    simp only [cryptCheck_eq, Bool.true_eq_false, if_false, true_and, ne_eq, ← BitVec.toNat_inj]
    split_ifs with hlen hrange hover
    all_goals
      simp only [Option.some.injEq, reduceCtorEq, true_iff, false_iff, true_implies, false_implies, true_and, and_true]
      omega

/-- Settles O21: the call refuses, and of the refusal and the host's read each changes its own few fields. -/
theorem refusedCommandChangesNothingElse : Obligations.RefusedCommandChangesNothingElse := by
  unfold Obligations.RefusedCommandChangesNothingElse
  intro i s e hb hc
  have hexec := exec_refused hb hc
  obtain ⟨hbuf, hhost, hbyte, hdraws⟩ := refused_frame i.port e s
  obtain ⟨hhe, hce, hotherCe, hotherHe⟩ := refused_engines i.port e s
  have hseen := hostReadStatus_lastStatus i.port (refuse i.port e s)
  obtain ⟨kv, hword⟩ := statusOf_refused hb e
  obtain ⟨herr, hdone, hbusy⟩ := Status.word_error_fields e kv
  rw [← hword, ← hseen] at herr hdone hbusy
  exact ⟨hexec, _, hexec, hbuf, hhost, hbyte, hdraws, hhe, hce, hotherCe, hotherHe, hseen, herr, hdone, hbusy⟩

/-- Settles O11: the machine runs freely, and an idle engine's step is none. -/
theorem idleMachineKeepsItsState : Obligations.IdleMachineKeepsItsState := by
  unfold Obligations.IdleMachineKeepsItsState
  intro s hinv hs he hc
  rw [step_nil hs, freeRun_idle hinv he hc]

/-- Settles O16: the table of codes, read error by error. -/
theorem errorCodes : Obligations.ErrorCodes := by
  unfold Obligations.ErrorCodes
  refine ⟨rfl, rfl, rfl, rfl, rfl, rfl, rfl, fun e => ?_⟩
  cases e <;> decide

/-- Settles O17: BUSY being 0, the status of the engine is DONE and the error, and the register reads so. -/
theorem errorEntry : Obligations.ErrorEntry := by
  unfold Obligations.ErrorEntry
  refine fun e s => ⟨fun hb => ⟨raise_he_of_idle hb e, ?_⟩, fun hb => ⟨raise_ce_of_idle hb e, ?_⟩⟩
  · rw [heStatus_raise hb, Status.word_error]
    simp
  · rw [ceStatus_raise hb, Status.word_error]

/-- Settles O18: case by case, which of the two comparisons is the first to fail. -/
theorem hashChecksInOrder : Obligations.HashChecksInOrder := by
  unfold Obligations.HashChecksInOrder
  intro aw src len dst
  rw [hashCheck_eq]
  split_ifs with hlong hrange
  all_goals
    simp only [Option.some.injEq, reduceCtorEq, true_iff, false_iff, true_implies, false_implies, and_true]
    omega

/-- Settles O19: case by case, which of the two comparisons is the first to fail. -/
theorem keyChecksInOrder : Obligations.KeyChecksInOrder := by
  unfold Obligations.KeyChecksInOrder
  intro aw src len
  rw [keyCheck_eq]
  split_ifs with hlen hrange
  all_goals
    simp only [Option.some.injEq, reduceCtorEq, true_iff, false_iff]
    omega

end Sys2Proof.Machine
end

section
/-! SUPPORT. The reset input, byte by byte; the pace of the engines, step by step; what a command leaves of BUF where its duty is
broken; the measure by which every run comes to rest; then the statements of 70_reset_and_hazards.md. -/

namespace Sys2Proof.Machine

/-! ### Waiting, and the actions still to come -/

theorem withHost_spoilCipher (s : State) (rest : List HostAction) :
    (spoilCipher s).withHost rest = spoilCipher (s.withHost rest) := by
  by_cases hk : s.ce.cop = opcSetKey
  · simp only [spoilCipher, withHost_ce, if_pos hk]; rfl
  · simp only [spoilCipher, withHost_ce, if_neg hk]; rfl

theorem withHost_keyFinish (s : State) (rest : List HostAction) :
    (keyFinish s).withHost rest = keyFinish (s.withHost rest) := by
  unfold keyFinish
  simp only [withHost_ceDisturbed]
  split
  · exact withHost_spoilCipher _ rest
  · rfl

theorem withHost_cryptFinish (s : State) (rest : List HostAction) :
    (cryptFinish s).withHost rest = cryptFinish (s.withHost rest) := by
  unfold cryptFinish
  simp only [withHost_ceDisturbed]
  split
  · exact withHost_spoilCipher _ rest
  · rfl

/-- The Block Cipher Engine's step reads nothing of the actions still to come. -/
theorem withHost_cipherStep (s : State) (rest : List HostAction) :
    (cipherStep s).withHost rest = cipherStep (s.withHost rest) := by
  cases hq : s.ce.seq with
  | kround r =>
    by_cases hr : r.val + 1 < 32
    · simp only [cipherStep, withHost_ce, hq, dif_pos hr]; rfl
    · simp only [cipherStep, withHost_ce, hq, dif_neg hr]
      exact withHost_keyFinish (keyRoundStep r s) rest
  | bstore b =>
    by_cases hb : b + 1 < cipherBlocks s
    · rw [cipherStep_store_more hq hb, cipherStep_store_more (s := s.withHost rest) hq hb]; rfl
    · rw [cipherStep_store_last hq hb, cipherStep_store_last (s := s.withHost rest) hq hb]
      exact withHost_cryptFinish (blockStoreStep b s) rest
  | idle => rw [cipherStep_idle hq, cipherStep_idle (s := s.withHost rest) hq]
  | kload | bload | round => simp only [cipherStep, withHost_ce, hq]; rfl

theorem withHost_cipherSteps (n : Nat) (s : State) (rest : List HostAction) :
    (cipherSteps n s).withHost rest = cipherSteps n (s.withHost rest) := by
  induction n generalizing s with
  | zero => rfl
  | succ n ih => rw [cipherSteps, ih, withHost_cipherStep, cipherSteps]

theorem withHost_awaitCipher (s : State) (rest : List HostAction) :
    (awaitCipher s).withHost rest = awaitCipher (s.withHost rest) := by
  unfold awaitCipher
  rw [withHost_ce, ← withHost_cipherSteps]
  split <;> rfl

/-! ### The reset input (R210, R212) -/

theorem step_reset {s : State} {rest : List HostAction} (hs : s.host = .reset :: rest) :
    step s = .next (resetStep (s.withHost rest)) :=
  step_cons hs

theorem hashAbortBuf_withHost (s : State) (rest : List HostAction) : hashAbortBuf (s.withHost rest) = hashAbortBuf s := rfl

theorem cipherAbortBuf_withHost (m : Memory) (s : State) (rest : List HostAction) :
    cipherAbortBuf m (s.withHost rest) = cipherAbortBuf m s := by
  have hcrypt : ∀ b, cryptAbortBuf b m (s.withHost rest) = cryptAbortBuf b m s := by
    intro b
    simp only [cryptAbortBuf, ← withHost_awaitCipher]; rfl
  cases hq : s.ce.seq <;> simp only [cipherAbortBuf, withHost_ce, hq, hcrypt]

theorem resetStep_buf (s : State) (rest : List HostAction) :
    (resetStep (s.withHost rest)).buf = cipherAbortBuf (hashAbortBuf s) s :=
  (cipherAbortBuf_withHost _ s rest).trans (by rw [hashAbortBuf_withHost])

/-- At EMIT the wait for the Hash Engine is the one step that writes the digest. -/
theorem awaitHash_buf_of_emit {s : State} {i : Nat} (hb : s.he.status.busy = true) (hm : s.heDisturbed = false)
    (hq : s.he.seq = .emit i) : (awaitHash s).buf = memWrite s.buf s.he.hdst.toNat (digestOf s.he.v) := by
  rw [awaitHash, if_pos hb, hashStepCount, hashSteps, hashStep_emit hq,
    hashSteps_idle _ (hashEmit_control s).1]
  simp [hashEmit, hm]

/-- A byte that the abandoned Hash Engine's command has changed is one of the digest's. -/
theorem hashAbortBuf_read {s : State} (h : s.Inv) (hm : s.heDisturbed = false) (a : Nat) :
    (hashAbortBuf s).read a = s.buf.read a ∨
    ((∃ i, s.he.seq = .emit i) ∧ (hashOutput s.he.hdst).has a = true ∧
      (hashAbortBuf s).read a = (awaitHash s).buf.read a) := by
  cases hq : s.he.seq with
  | emit i =>
    have hb : s.he.status.busy = true := h.hashIdle.2 (by simp [hq])
    have hbuf : hashAbortBuf s =
        memWrite s.buf s.he.hdst.toNat ((digestOf s.he.v).take (Config.freeCount s.draws)) := by
      simp [hashAbortBuf, hq, hm]
    rw [hbuf, awaitHash_buf_of_emit hb hm hq, read_memWrite h.bufWf, read_memWrite h.bufWf, List.length_take,
      digestOf_length, Span.has_iff, hashOutput_a, hashOutput_n]
    split
    · next hin =>
      refine .inr ⟨⟨i, rfl⟩, by omega, ?_⟩
      rw [if_pos (by omega), List.getD_eq_getElem?_getD, List.getElem?_take_of_lt (by omega),
        ← List.getD_eq_getElem?_getD]
    · exact .inl rfl
  | idle | load | expand | round | feed => exact .inl (by simp [hashAbortBuf, hq, hm])

theorem hashAbortBuf_wf {s : State} (h : s.Inv) : (hashAbortBuf s).wf := (hashAbortBuf_ok h).wf

theorem mixBytes_getD (n : Nat) {old : List Byte} (new : List Byte) {k : Nat} (hk : k < old.length) :
    (mixBytes n old new).getD k 0 = old.getD k 0 ∨ (mixBytes n old new).getD k 0 = new.getD k 0 := by
  cases hf : Config.freeChoice (n + k) <;> simp [mixBytes, hk, hf]

theorem cryptAbortBuf_read {s : State} {m : Memory} (hwf : m.wf) (hm : s.ceDisturbed = false) (b a : Nat) :
    (cryptAbortBuf b m s).read a = m.read a ∨
    ((cryptOutput s.ce.clen s.ce.cdst).has a = true ∧
      ((cryptAbortBuf b m s).read a = s.buf.read a ∨ (cryptAbortBuf b m s).read a = (awaitCipher s).buf.read a)) := by
  simp only [cryptAbortBuf, hm, Bool.false_eq_true, if_false, read_memWrite hwf, mixBytes_length, memRead_length,
    blockLen_eq, Span.has_iff, cryptOutput_a, cryptOutput_n]
  split
  · next hin =>
    refine .inr ⟨by omega, ?_⟩
    have hk : a - (s.ce.cdst.toNat + 16 * b) < s.ce.clen.toNat - 16 * b := by omega
    have ha : s.ce.cdst.toNat + 16 * b + (a - (s.ce.cdst.toNat + 16 * b)) = a := by omega
    have hmix := mixBytes_getD s.draws (old := memRead s.buf (s.ce.cdst.toNat + 16 * b) (s.ce.clen.toNat - 16 * b))
      (memRead (awaitCipher s).buf (s.ce.cdst.toNat + 16 * b) (s.ce.clen.toNat - 16 * b)) (by rwa [memRead_length])
    rwa [memRead_getD _ _ _ _ hk, memRead_getD _ _ _ _ hk, ha] at hmix
  · exact .inl rfl

/-- A byte that the abandoned command of the Block Cipher Engine may have changed lies in its output range. -/
theorem cipherAbortBuf_read {s : State} {m : Memory} (h : s.Inv) (hwf : m.wf) (hm : s.ceDisturbed = false) (a : Nat) :
    (cipherAbortBuf m s).read a = m.read a ∨
    ((s.ce.seq ≠ .idle ∧ s.ce.cop ≠ opcSetKey ∧ (cryptOutput s.ce.clen s.ce.cdst).has a = true) ∧
      ((cipherAbortBuf m s).read a = s.buf.read a ∨ (cipherAbortBuf m s).read a = (awaitCipher s).buf.read a)) := by
  have hl := h.cipherSeq
  cases hq : s.ce.seq with
  | idle | kload | kround => exact .inl (by simp only [cipherAbortBuf, hq])
  | bload b | round b | bstore b =>
    rw [hq] at hl
    simp only [cipherAbortBuf, hq]
    exact (cryptAbortBuf_read hwf hm b a).imp_right fun hout => ⟨⟨by simp, hl.1, hout.1⟩, hout.2⟩

/-- Within the duties no byte is in the output ranges of both running commands. -/
theorem outputs_apart {s : State} (h : s.Inv) (hu : s.Undisturbed) (hhe : s.he.seq ≠ .idle) (hce : s.ce.seq ≠ .idle)
    (hk : s.ce.cop ≠ opcSetKey) {a : Nat} (ho : (hashOutput s.he.hdst).has a = true) :
    (cryptOutput s.ce.clen s.ce.cdst).has a = false := by
  obtain ⟨-, -, hoo⟩ := running_apart h hu hhe hce
  rw [cipherOutput, if_neg hk, Span.not_meets_iff] at hoo
  rw [Span.has_iff] at ho
  rw [← Bool.not_eq_true, Span.has_iff]
  omega

/-! ### The pace of the engines (R219) -/

/-- The Hash Engine is busy exactly in its phases of work, and its sequencer is within its bounds. -/
structure HashEngine.Paced (e : HashEngine) : Prop where
  idle : e.status.busy = true ↔ e.seq ≠ .idle
  bounds : e.seq.legal (blockCount e.hlen.toNat)

/-- The same of the Block Cipher Engine. -/
structure CipherEngine.Paced (e : CipherEngine) : Prop where
  idle : e.status.busy = true ↔ e.seq ≠ .idle
  bounds : e.seq.legal e.cop (e.clen.toNat / Config.blockLen)

theorem State.Inv.hashPaced {s : State} (h : s.Inv) : s.he.Paced := ⟨h.hashIdle, h.hashSeq⟩

theorem State.Inv.cipherPaced {s : State} (h : s.Inv) : s.ce.Paced := ⟨h.cipherIdle, h.cipherSeq⟩

theorem hashStep_paced {s : State} (h : s.he.Paced) : (hashStep s).he.Paced := by
  obtain ⟨hidle, hbounds⟩ := h
  cases hq : s.he.seq with
  | idle => rw [hashStep_idle hq]; exact ⟨hidle, hbounds⟩
  | emit i =>
    obtain ⟨hseq, hstatus, -⟩ := hashEmit_control s
    rw [hashStep_emit hq]
    exact ⟨by simp [hseq, hstatus, Status.complete], by rw [hseq]; trivial⟩
  | load i | expand i =>
    rw [hq] at hidle hbounds
    exact ⟨by simpa [hashStep, hq] using hidle, by simpa [hashStep, hq, HSeq.legal] using hbounds⟩
  | round i j =>
    rw [hq] at hidle hbounds
    simp only [hashStep, hq]
    split
    · exact ⟨by simpa using hidle, hbounds⟩
    · exact ⟨by simpa using hidle, hbounds⟩
  | feed i =>
    rw [hq] at hidle hbounds
    simp only [hashStep, hq]
    split
    · next hmore => exact ⟨by simpa using hidle, hmore⟩
    · next hlast => exact ⟨by simpa using hidle, (Nat.le_antisymm hbounds (not_lt.1 hlast) : i + 1 = _)⟩

theorem cipherStep_paced {s : State} (h : s.ce.Paced) : (cipherStep s).ce.Paced := by
  obtain ⟨hidle, hbounds⟩ := h
  cases hq : s.ce.seq with
  | idle => rw [cipherStep_idle hq]; exact ⟨hidle, hbounds⟩
  | kload | bload b =>
    rw [hq] at hidle hbounds
    exact ⟨by simpa [cipherStep, hq] using hidle, by simpa [cipherStep, hq, CSeq.legal] using hbounds⟩
  | kround r =>
    by_cases hr : r.val + 1 < 32
    · rw [hq] at hidle hbounds
      simp only [cipherStep, hq, dif_pos hr]
      exact ⟨by simpa using hidle, hbounds⟩
    · obtain ⟨hseq, hstatus, -⟩ := keyFinish_control (keyRoundStep r s)
      simp only [cipherStep, hq, dif_neg hr]
      exact ⟨by simp [hseq, hstatus, Status.complete], by rw [hseq]; trivial⟩
  | round b r =>
    rw [hq] at hidle hbounds
    simp only [cipherStep, hq]
    split
    · exact ⟨by simpa using hidle, hbounds⟩
    · exact ⟨by simpa using hidle, hbounds⟩
  | bstore b =>
    by_cases hb : b + 1 < cipherBlocks s
    · rw [hq] at hidle hbounds
      rw [cipherStep_store_more hq hb]
      exact ⟨by simpa using hidle, by simpa using ⟨hbounds.1, hb⟩⟩
    · obtain ⟨hseq, hstatus, -⟩ := cryptFinish_control (blockStoreStep b s)
      rw [cipherStep_store_last hq hb]
      exact ⟨by simp [hseq, hstatus, Status.complete], by rw [hseq]; trivial⟩

/-- The internal steps the Hash Engine has left. -/
def HashEngine.left (e : HashEngine) : Nat := e.seq.left (blockCount e.hlen.toNat)

/-- The internal steps the Block Cipher Engine has left. -/
def CipherEngine.left (e : CipherEngine) : Nat := e.seq.left (e.clen.toNat / Config.blockLen)

theorem HashEngine.Paced.busy_iff {e : HashEngine} (h : e.Paced) : e.status.busy = true ↔ e.left ≠ 0 := by
  rw [h.idle]
  exact not_congr ⟨fun hq => by rw [left, hq]; rfl, HSeq.left_eq_zero h.bounds⟩

theorem CipherEngine.Paced.busy_iff {e : CipherEngine} (h : e.Paced) : e.status.busy = true ↔ e.left ≠ 0 := by
  rw [h.idle]
  exact not_congr ⟨fun hq => by rw [left, hq]; rfl, CSeq.left_eq_zero h.bounds⟩

theorem hashStep_he_left {s : State} (h : s.he.Paced) : (hashStep s).he.left = s.he.left - 1 := by
  obtain ⟨-, hlen, -⟩ := hashStep_latch .he s
  rw [HashEngine.left, hlen]
  exact hashStep_left h.bounds

theorem cipherStep_ce_left {s : State} (h : s.ce.Paced) : (cipherStep s).ce.left = s.ce.left - 1 := by
  obtain ⟨-, -, hlen, -⟩ := cipherStep_latch .ce s
  rw [CipherEngine.left, hlen]
  exact cipherStep_left h.bounds

theorem hashSteps_busy_iff {s : State} (h : s.he.Paced) (k : Nat) :
    (hashSteps k s).he.status.busy = true ↔ k < s.he.left := by
  induction k generalizing s with
  | zero => exact h.busy_iff.trans Nat.pos_iff_ne_zero.symm
  | succ k ih => rw [hashSteps, ih (hashStep_paced h), hashStep_he_left h]; omega

theorem cipherSteps_busy_iff {s : State} (h : s.ce.Paced) (k : Nat) :
    (cipherSteps k s).ce.status.busy = true ↔ k < s.ce.left := by
  induction k generalizing s with
  | zero => exact h.busy_iff.trans Nat.pos_iff_ne_zero.symm
  | succ k ih => rw [cipherSteps, ih (cipherStep_paced h), cipherStep_ce_left h]; omega

theorem acceptHash_paced (src : Addr) (len : Len) (dst : Addr) (s : State) :
    (acceptHash src len dst s).he.Paced := by
  constructor
  · simp [acceptHash_busy, acceptHash_seq]
  · rw [acceptHash_seq, acceptHash_hlen]
    exact blockCount_pos len.toNat

theorem acceptHash_left (src : Addr) (len : Len) (dst : Addr) (s : State) :
    (acceptHash src len dst s).he.left = 67 * ((len.toNat + 72) / 64) + 1 := by
  rw [HashEngine.left, acceptHash_seq, acceptHash_hlen, blockCount_eq_div]; rfl

theorem acceptCipher_paced {cop : BitVec 8} {first : CSeq} (src : Addr) {len : Len} (dst : Addr) (s : State)
    (hfirst : first ≠ .idle) (hlegal : first.legal cop (len.toNat / Config.blockLen)) :
    (acceptCipher cop first src len dst s).ce.Paced := by
  obtain ⟨hseq, -, hlen, -⟩ := acceptCipher_latches cop first src len dst s
  constructor
  · simpa [acceptCipher_busy, hseq] using hfirst
  · rwa [hseq, hlen, acceptCipher_cop]

theorem acceptCipher_left (cop : BitVec 8) (first : CSeq) (src : Addr) (len : Len) (dst : Addr) (s : State) :
    (acceptCipher cop first src len dst s).ce.left = first.left (len.toNat / Config.blockLen) := by
  obtain ⟨hseq, -, hlen, -⟩ := acceptCipher_latches cop first src len dst s
  rw [CipherEngine.left, hseq, hlen]

/-- An accepted command of the Block Cipher Engine has its number of internal steps to take. -/
theorem accept_ce_pace {i : Instr} {s : State} (hp : i.port = .ce) (hc : instrCheck s.aw s.ce.keyValid i = none) :
    (accept i s).ce.Paced ∧
      (accept i s).ce.left = if i.cmd = 0x00000020 then 33 else 34 * (i.len.toNat / 16) := by
  have hcrypt : ∀ {cop : BitVec 8} {src : Addr} {len : Len} {dst : Addr}, cop ≠ opcSetKey →
      cryptCheck s.aw s.ce.keyValid src len dst = none → (acceptCipher cop (.bload 0) src len dst s).ce.Paced := by
    intro cop src len dst hcop hcheck
    obtain ⟨-, hpos, hmul, -⟩ := cryptCheck_none hcheck
    exact acceptCipher_paced src dst s (by simp) ⟨hcop, by rw [blockLen_eq]; omega⟩
  cases i with
  | sm3Hash => cases hp
  | sm4SetKey src len dst => exact ⟨acceptCipher_paced src dst s (by simp) rfl, acceptCipher_left ..⟩
  | sm4Enc src len dst => exact ⟨hcrypt (by decide) hc, acceptCipher_left ..⟩
  | sm4Dec src len dst => exact ⟨hcrypt (by decide) hc, acceptCipher_left ..⟩

/-! ### What a command leaves of BUF, its duty kept or broken (R65, R66, R193) -/

/-- What is in no result that is not valid is in no output range of a command in flight. -/
theorem spans_of_valid {p : Port} {s : State} {x : Span × Span} {a : Nat} (hv : notValid a s = false)
    (hx : spansOf p s = some x) : x.2.has a = false :=
  ((notValid_eq_false_iff a s).1 hv).1 p x hx

theorem record_of_valid {s : State} {u : Unseen} {a : Nat} (hv : notValid a s = false) (hu : u ∈ s.unseen) :
    u.has a = false :=
  Bool.eq_false_iff.2 fun ha => by simp [notValid_of_record hu ha] at hv

theorem notValid_duty {s t : State} (h : SameDuty s t) (a : Nat) : notValid a t = notValid a s := by
  rw [Bool.eq_iff_iff, ← not_iff_not, Bool.not_eq_true, Bool.not_eq_true, notValid_eq_false_iff, notValid_eq_false_iff,
    h.unseen]
  simp only [spansOf_duty h]

theorem spoilSpan_read {s : State} {o : Span} {a : Nat} (hwf : s.buf.wf) (ho : o.has a = false) :
    (spoilSpan s o).buf.read a = s.buf.read a := by
  rw [← Bool.not_eq_true, Span.has_iff] at ho
  rw [spoilSpan_buf, read_memWrite_outside hwf (by rw [freeBytes_length]; omega)]

theorem spoilHash_read {s : State} {a : Nat} (hwf : s.buf.wf) (ho : (hashOutput s.he.hdst).has a = false) :
    (spoilHash s).buf.read a = s.buf.read a := by
  rw [← Bool.not_eq_true, Span.has_iff, hashOutput_a, hashOutput_n] at ho
  rw [spoilHash_buf, read_memWrite_outside hwf (by rw [freeBytes_length, digestLen_eq]; omega)]

theorem spoilCipher_read {s : State} {a : Nat} (hwf : s.buf.wf) (ho : (cipherOutput s).has a = false) :
    (spoilCipher s).buf.read a = s.buf.read a := by
  unfold spoilCipher
  split
  · rw [spoilKey_buf]
  · next hk =>
    rw [cipherOutput, if_neg hk] at ho
    exact spoilSpan_read hwf ho

theorem breach_read {p : Port} {s : State} {x : Span × Span} {a : Nat} (hwf : s.buf.wf) (hx : spansOf p s = some x)
    (ha : x.2.has a = false) : (breach p s).buf.read a = s.buf.read a := by
  cases p <;> simp only [spansOf, heSpans, ceSpans] at hx <;> split at hx <;> cases hx <;> simp only [breach] <;> split
  · rfl
  · exact spoilHash_read hwf ha
  · rfl
  · exact spoilCipher_read hwf ha

/-- `t` is `s` after breaches that have kept the byte at `a`, which is in no result that is not valid. -/
structure ByteKept (a : Nat) (s t : State) : Prop where
  valid : notValid a s = false
  same : SameControl s t
  wf : t.buf.wf
  read : t.buf.read a = s.buf.read a

section
variable {a : Nat} {s t : State} (h : ByteKept a s t)
include h

theorem ByteKept.after_spoilSpans {os : List Span} (ho : os.any (fun o => o.has a) = false) :
    ByteKept a s (os.foldl spoilSpan t) := by
  induction os generalizing t with
  | nil => exact h
  | cons o os ih =>
    rw [List.any_cons, Bool.or_eq_false_iff] at ho
    obtain ⟨hv, hs, hwf, hr⟩ := h
    exact ih ⟨hv, hs.trans (spoilSpans_same [o] t), spoilSpan_wf hwf, (spoilSpan_read hwf ho.1).trans hr⟩ ho.2

theorem ByteKept.after_spoilKey : ByteKept a s (spoilKey t) :=
  ⟨h.valid, h.same.trans (by simp [SameControl]), by simpa using h.wf, by simpa using h.read⟩

theorem ByteKept.after_breach {p : Port} (hf : spansOf p s ≠ none) : ByteKept a s (breach p t) := by
  obtain ⟨x, hx⟩ := Option.ne_none_iff_exists'.1 hf
  obtain ⟨hv, hs, hwf, hr⟩ := h
  exact ⟨hv, hs.trans (breach_same p t), breach_wf hwf,
    (breach_read hwf ((spansOf_same hs p).trans hx) (spans_of_valid hv hx)).trans hr⟩

theorem ByteKept.after_breachUnseen {u : Unseen} (hu : u.has a = false) : ByteKept a s (breachUnseen t u) := by
  have hspoiled := h.after_spoilSpans hu
  unfold breachUnseen
  split
  · refine ByteKept.after_spoilKey ?_
    split
    · next hf =>
      have hflight : spansOf .ce s ≠ none := by
        rw [← spansOf_same hspoiled.same]
        simp [spansOf, ceSpans, hf]
      exact hspoiled.after_breach hflight
    · exact hspoiled
  · exact hspoiled

theorem ByteKept.after_breachAll {us : List Unseen} (hu : ∀ u ∈ us, u ∈ s.unseen) :
    ByteKept a s (us.foldl breachUnseen t) := by
  induction us generalizing t with
  | nil => exact h
  | cons u us ih =>
    exact ih (h.after_breachUnseen (record_of_valid h.valid (hu u List.mem_cons_self)))
      fun v hv => hu v (List.mem_cons_of_mem _ hv)

end

/-- Marking after an acceptance keeps every byte that is in no result that is not valid. -/
theorem markClash_kept {p : Port} {s : State} {a : Nat} (hwf : s.buf.wf) (hf : spansOf p s ≠ none)
    (hv : notValid a s = false) : ByteKept a s (markClash p s) := by
  have hclash : ByteKept a s (if clash (heSpans s) (ceSpans s) then breach .ce (breach .he s) else s) := by
    split
    · next hc =>
      obtain ⟨hhe, hce⟩ := inFlight_of_clash hc
      exact .after_breach (.after_breach ⟨hv, .refl s, hwf, rfl⟩ (by simp [spansOf, heSpans, hhe]))
        (by simp [spansOf, ceSpans, hce])
    · exact ⟨hv, .refl s, hwf, rfl⟩
  unfold markClash
  simp only
  split
  · exact hclash
  · exact (hclash.after_breachAll fun u hu => (List.mem_filter.1 hu).1).after_breach hf

/-- An acceptance, its duty kept or broken, keeps the bytes outside its output range, that of the other engine's command in flight
and the results that no DONE was seen for. -/
theorem accept_read {i : Instr} {s : State} {a : Nat} (hwf : s.buf.wf) (hown : (instrSpans i).2.has a = false)
    (hother : ∀ x ∈ otherSpans i.port s, x.2.has a = false)
    (hunseen : ∀ u ∈ (supersede i.port s).unseen, u.has a = false) : (accept i s).buf.read a = s.buf.read a := by
  have hv : notValid a (accept i s) = false := by
    rw [notValid_eq_false_iff, accept_unseen, List.any_eq_false]
    refine ⟨fun q x hx => ?_, fun u hu => Bool.not_eq_true _ ▸ hunseen u (mem_keepUnseen hu)⟩
    rw [spansOf_accept] at hx
    split at hx
    · cases hx; exact hown
    · next hq => exact hother x (by rwa [otherSpans_of_ne hq])
  have hf : spansOf i.port (accept i s) ≠ none := by simp [spansOf_accept]
  have marked : ∀ t, accept i s = markClash i.port t → t.buf = s.buf → (accept i s).buf.read a = s.buf.read a := by
    intro t ht hb
    have hsame := markClash_same i.port t
    rw [← ht] at hsame
    rw [notValid_duty hsame.duty] at hv
    rw [spansOf_same hsame] at hf
    rw [ht, (markClash_kept (by rwa [hb]) hf hv).read, hb]
  cases i <;> exact marked _ rfl (by simp)

theorem accept_wf {i : Instr} {s : State} (hwf : s.buf.wf) : (accept i s).buf.wf := by
  cases i <;> exact markClash_wf (by simpa using hwf)

theorem hashEmit_read {s : State} {a : Nat} (hwf : s.buf.wf) (ho : (hashOutput s.he.hdst).has a = false) :
    (hashEmit s).buf.read a = s.buf.read a := by
  have hdigest : (memWrite s.buf s.he.hdst.toNat (digestOf s.he.v)).read a = s.buf.read a := by
    rw [← Bool.not_eq_true, Span.has_iff, hashOutput_a, hashOutput_n] at ho
    exact read_memWrite_outside hwf (by rw [digestOf_length]; omega)
  unfold hashEmit
  simp only
  split
  · rw [spoilHash_read (memWrite_wf hwf _ _)]
    · simpa only using hdigest
    · exact ho
  · simpa only using hdigest

theorem keyFinish_read {s : State} {a : Nat} (hwf : s.buf.wf) (ho : (cipherOutput s).has a = false) :
    (keyFinish s).buf.read a = s.buf.read a := by
  unfold keyFinish
  simp only
  split
  · exact spoilCipher_read hwf ho
  · rfl

theorem cryptFinish_read {s : State} {a : Nat} (hwf : s.buf.wf) (ho : (cipherOutput s).has a = false) :
    (cryptFinish s).buf.read a = s.buf.read a := by
  unfold cryptFinish
  simp only
  split
  · exact spoilCipher_read hwf ho
  · rfl

theorem cryptWork_read {dir : Direction} {s : State} {a : Nat} (hwf : s.buf.wf) (hk : s.ce.cop ≠ opcSetKey)
    (ho : (cipherOutput s).has a = false) : (cryptWork dir s).buf.read a = s.buf.read a := by
  rw [cipherOutput, if_neg hk, ← Bool.not_eq_true, Span.has_iff, cryptOutput_a, cryptOutput_n] at ho
  rw [cryptWork_buf]
  exact read_memWrite_outside hwf (by rw [ecb_length, memRead_length]; omega)

/-- The ranges of a command in flight, by its engine's latched fields. -/
theorem output_of_spansOf_he {s : State} {x : Span × Span} (h : spansOf .he s = some x) : x.2 = hashOutput s.he.hdst := by
  simp only [spansOf, heSpans] at h
  split at h <;> cases h
  rfl

theorem output_of_spansOf_ce {s : State} {x : Span × Span} (h : spansOf .ce s = some x) : x.2 = cipherOutput s := by
  simp only [spansOf, ceSpans] at h
  split at h <;> cases h
  rfl

/-- What an accepted command does up to its end, its duty kept or broken, keeps the bytes outside its output range. -/
theorem finish_accept_read {i : Instr} {s : State} {a : Nat} (hwf : s.buf.wf) (hown : (instrSpans i).2.has a = false) :
    (finish i (accept i s)).buf.read a = (accept i s).buf.read a := by
  have haccepted : (accept i s).buf.wf := accept_wf hwf
  have hspans : spansOf i.port (accept i s) = some (instrSpans i) := by rw [spansOf_accept, if_pos rfl]
  have hcrypt : ∀ dir : Direction, (cipherOutput (accept i s)).has a = false → (accept i s).ce.cop ≠ opcSetKey →
      (cryptFinish (cryptWork dir (accept i s))).buf.read a = (accept i s).buf.read a := fun dir ho hk =>
    (cryptFinish_read (s := cryptWork dir _) (memWrite_wf haccepted _ _) ho).trans (cryptWork_read haccepted hk ho)
  cases i with
  | sm3Hash src len dst =>
    rw [output_of_spansOf_he hspans] at hown
    exact hashEmit_read (s := hashWork _) haccepted hown
  | sm4SetKey src len dst =>
    rw [output_of_spansOf_ce hspans] at hown
    exact keyFinish_read (s := keyWork _) haccepted hown
  | sm4Enc src len dst | sm4Dec src len dst =>
    rw [output_of_spansOf_ce hspans] at hown
    exact hcrypt _ hown (by rw [accept, acceptCipher_cop]; decide)

/-! ### How an accepted command ends (R129, R163) -/

theorem acceptHash_status (src : Addr) (len : Len) (dst : Addr) (s : State) :
    (acceptHash src len dst s).he.status = ⟨true, false, none⟩ := by
  obtain ⟨⟨-, hst, -⟩, -⟩ := markClash_same .he _
  rw [acceptHash, hst]; rfl

theorem acceptCipher_status (cop : BitVec 8) (first : CSeq) (src : Addr) (len : Len) (dst : Addr) (s : State) :
    (acceptCipher cop first src len dst s).ce.status = ⟨true, false, none⟩ := by
  obtain ⟨-, ⟨-, hst, -⟩, -⟩ := markClash_same .ce _
  rw [acceptCipher, hst]; rfl

/-- An accepted command ends with BUSY 0, DONE 1 and no error, its duty kept or broken. -/
theorem finish_accept_status (i : Instr) (s : State) :
    busyOf i.port (finish i (accept i s)) = false ∧
      ∃ kv, statusOf i.port (finish i (accept i s)) = Status.word ⟨false, true, none⟩ kv := by
  cases i with
  | sm3Hash =>
    simp [finish, accept, Instr.port, busyOf, statusOf, heStatus, hashEmit_control, hashWork, acceptHash_status]
  | sm4SetKey =>
    simp [finish, accept, Instr.port, busyOf, statusOf, ceStatus, keyFinish_control, acceptCipher_status]
  | sm4Enc | sm4Dec =>
    simp [finish, accept, Instr.port, busyOf, statusOf, ceStatus, cryptFinish_control, acceptCipher_status]

@[simp] theorem busyOf_hostReadStatus (p q : Port) (s : State) : busyOf q (hostReadStatus p s) = busyOf q s := by
  cases q <;> simp [busyOf]

@[simp] theorem doneOf_hostReadStatus (p q : Port) (s : State) : doneOf q (hostReadStatus p s) = doneOf q s := by
  cases q <;> simp [doneOf]

@[simp] theorem statusOf_hostReadStatus (p q : Port) (s : State) : statusOf q (hostReadStatus p s) = statusOf q s := by
  cases q <;> simp [statusOf, heStatus, ceStatus]

@[simp] theorem hostReadStatus_buf (p : Port) (s : State) : (hostReadStatus p s).buf = s.buf := by
  cases p <;> simp

/-! ### The actions still to come (R20) -/

theorem SameControl.host_eq {s t : State} (h : SameControl s t) : t.host = s.host := by
  obtain ⟨-, -, -, hhost, -⟩ := h
  exact hhost

@[simp] theorem await_host (p : Port) (s : State) : (await p s).host = s.host :=
  await_keeps (P := fun t => t.host = s.host) (fun t h => (engineStep_host p t).trans h) rfl

@[simp] theorem hostReadStatus_host (p : Port) (s : State) : (hostReadStatus p s).host = s.host := by
  cases p <;> simp

@[simp] theorem refuse_host (p : Port) (e : CmdError) (s : State) : (refuse p e s).host = s.host := by
  cases p <;> simp [refuse]

@[simp] theorem accept_host (i : Instr) (s : State) : (accept i s).host = s.host := by
  cases i <;> exact (markClash_same _ _).host_eq.trans (by simp)

@[simp] theorem finish_host (i : Instr) (s : State) : (finish i s).host = s.host := by
  cases i <;> simp [finish, hashEmit_rest, keyFinish_rest, cryptFinish_rest]

theorem exec_host {i : Instr} {s t : State} (hinv : s.Inv) (h : exec i s = .next t) : t.host = s.host := by
  have hidle : busyOf i.port (await i.port s) = false := await_not_busy hinv
  rw [← exec_congr_await (await_idle hidle)] at h
  cases hc : instrCheck (await i.port s).aw (await i.port s).ce.keyValid i with
  | none => cases h.symm.trans (exec_accepted hidle hc); simp
  | some e => cases h.symm.trans (exec_refused hidle hc); simp

theorem runCommand_host {p : Port} {d : Descriptor} {s t : State} (hinv : s.Inv) (h : runCommand p d s = .next t) :
    t.host = s.host := by
  unfold runCommand at h
  split at h
  · exact exec_host hinv h
  · cases h; simp

@[simp] theorem issueAt_host (p : Port) (d : Descriptor) (s : State) : (issueAt p d s).host = s.host := by
  unfold issueAt issueInstr
  split
  · exact refuse_host p _ s
  · split
    · exact refuse_host _ _ s
    · exact accept_host _ s

@[simp] theorem hostWrite_host (a : Nat) (v : Byte) (s : State) : (hostWrite a v s).host = s.host :=
  (hostWrite_same a v s).host_eq

@[simp] theorem hostRead_host (a : Nat) (s : State) : (hostRead a s).host = s.host := by
  obtain ⟨b, hsame⟩ := hostRead_same a s
  exact hsame.host_eq

@[simp] theorem freeRun_host (s : State) : (freeRun s).host = s.host := by
  obtain ⟨p, hp⟩ := freeRun_eq_engineStep s
  rw [hp, engineStep_host]

@[simp] theorem waitStep_host (p : Port) (s : State) : (waitStep p s).host = s.host := by
  obtain ⟨q, hq⟩ := waitStep_eq_engineStep p s
  rw [hq, engineStep_host]

/-! ### Every run comes to rest (R219, R220) -/

/-- The internal steps both engines have left. -/
def State.left (s : State) : Nat := s.he.left + s.ce.left

/-- A busy engine's internal step leaves one fewer. -/
theorem engineStep_left_lt {p : Port} {s : State} (h : s.Inv) (hb : busyOf p s = true) :
    (engineStep p s).left < s.left := by
  cases p with
  | he =>
    have hleft := h.hashPaced.busy_iff.1 hb
    rw [engineStep, State.left, hashStep_ce, hashStep_he_left h.hashPaced, State.left]
    omega
  | ce =>
    have hleft := h.cipherPaced.busy_iff.1 hb
    rw [engineStep, State.left, cipherStep_he, cipherStep_ce_left h.cipherPaced, State.left]
    omega

/-- Some engine is busy. -/
def State.atWork (s : State) : Prop := busyOf .he s = true ∨ busyOf .ce s = true

theorem freeRun_left_lt {s : State} (h : s.Inv) (hw : s.atWork) : (freeRun s).left < s.left := by
  unfold freeRun
  split
  · next hb => exact engineStep_left_lt (p := .he) h hb
  · next hb => exact engineStep_left_lt (p := .ce) h (hw.resolve_left hb)

theorem waitStep_left_lt {p : Port} {s : State} (h : s.Inv) (hw : s.atWork) : (waitStep p s).left < s.left := by
  unfold waitStep
  split
  · next hb => exact engineStep_left_lt h hb
  · exact freeRun_left_lt h hw

/-- From `s` to `t` the list of actions has become shorter, or it is the same and fewer internal steps are left. -/
def Progress (s t : State) : Prop :=
  t.host.length < s.host.length ∨ (t.host = s.host ∧ t.left < s.left)

/-- Taking an action off the list is progress. -/
theorem Progress.of_taken {s t : State} {act : HostAction} {rest : List HostAction} (hs : s.host = act :: rest)
    (ht : t.host = rest) : Progress s t :=
  .inl (by rw [hs, ht]; exact Nat.lt_succ_self _)

/-- While an engine is at work every step is progress, whatever action is next. -/
theorem step_progress {s t : State} (h : s.Inv) (hw : s.atWork) (ht : step s = .next t) : Progress s t := by
  unfold step at ht
  split at ht
  · cases ht
    exact .inr ⟨freeRun_host s, freeRun_left_lt h hw⟩
  · next act rest hs =>
    have taken : ∀ {u : State}, u.host = rest → Progress s u := .of_taken hs
    cases act with
    | writeByte a v =>
      simp only [hostStep] at ht
      split at ht <;> cases ht
      exact taken (by simp)
    | readByte a =>
      simp only [hostStep] at ht
      split at ht <;> cases ht
      exact taken (by simp)
    | readStatus p => cases ht; exact taken (by simp)
    | command p d =>
      have hr : (s.withHost rest).Inv :=
        withHost_inv h fun x hx => h.hostFits x (by rw [hs]; exact List.mem_cons_of_mem _ hx)
      exact taken (runCommand_host hr ht)
    | issue p d =>
      cases ht
      split
      · next hb => exact .inr ⟨engineStep_host p s, engineStep_left_lt h hb⟩
      · exact taken (by simp)
    | wait p =>
      cases ht
      split
      · exact taken (by simp)
      · refine .inr ⟨by simp, ?_⟩
        have hlt := waitStep_left_lt (p := p) (hostReadStatus_inv (p := p) h) (by simpa [State.atWork] using hw)
        simpa [State.left] using hlt
    | engine p => cases ht; exact taken (by simp)
    | reset => cases ht; exact taken rfl

/-- By induction on the actions to come and, while they stay the same, on the internal steps left. -/
theorem comes_to_rest (s : State) (h : s.Inv) : ∃ n t, runSteps n s = .next t ∧ ¬t.atWork := by
  by_cases hw : s.atWork
  · obtain ⟨t, ht, hinv⟩ := step_inv h
    have hprogress := step_progress h hw ht
    obtain ⟨n, u, hrun, hrest⟩ := comes_to_rest t hinv
    exact ⟨n + 1, u, by rw [runSteps, ht]; exact hrun, hrest⟩
  · exact ⟨0, s, rfl, hw⟩
termination_by (s.host.length, s.left)
decreasing_by
  rcases hprogress with hlt | ⟨heq, hlt⟩
  · exact .left _ _ hlt
  · rw [heq]; exact .right _ hlt

/-! ### The statements -/

/-- Settles O13: reset gives both engines their reset state, and with no command abandoned BUF is kept. -/
theorem resetInputAnyTime : Obligations.ResetInputAnyTime := by
  unfold Obligations.ResetInputAnyTime
  intro s rest hs
  refine ⟨_, step_reset hs, Status.word_reset false, Status.word_reset false, rfl, rfl, rfl, rfl, rfl, fun hhe hce => ?_⟩
  rw [resetStep_buf]
  simp only [cipherAbortBuf, hashAbortBuf, hhe, hce]

/-- Settles O14: the abandoned hash leaves the old byte or the digest's, the abandoned cipher command then that byte, the old one
or the command's own, and the two output ranges keep apart. -/
theorem resetWhileBusyLeavesOldOrNew : Obligations.ResetWhileBusyLeavesOldOrNew := by
  unfold Obligations.ResetWhileBusyLeavesOldOrNew
  intro s t rest h hu hs ht a
  cases (step_reset hs).symm.trans ht
  rw [resetStep_buf, h.hashIdle, h.cipherIdle]
  have hhash := hashAbortBuf_read h hu.hash a
  have hcipher := cipherAbortBuf_read h (hashAbortBuf_wf h) hu.cipher a
  refine ⟨fun hhe hce => ?_, fun hhe ho => ?_, fun hce hk ho => ?_⟩
  · rw [hcipher.resolve_right fun hc => hce hc.1]
    exact hhash.resolve_right fun ⟨⟨i, hq⟩, ho, _⟩ => hhe ⟨by simp [hq], ho⟩
  · rw [hcipher.resolve_right fun ⟨⟨hce, hk, hc⟩, _⟩ => by simp [outputs_apart h hu hhe hce hk ho] at hc]
    exact hhash.imp_right fun ⟨hq, _, hnew⟩ => ⟨hq, hnew⟩
  · have hold : (hashAbortBuf s).read a = s.buf.read a :=
      hhash.resolve_right fun ⟨⟨i, hq⟩, hh, _⟩ => by simp [outputs_apart h hu (by simp [hq]) hce hk hh] at ho
    exact hcipher.elim (fun hc => .inl (hc.trans hold)) fun hc => hc.2

/-- Settles O30: the accepted command has 67 * n + 1 steps left, each step takes one, and the engine is busy while one is left. -/
theorem hashTakesItsStepCount : Obligations.HashTakesItsStepCount := by
  unfold Obligations.HashTakesItsStepCount
  intro src len dst s _ _ hc
  rw [issueInstr_of_check (i := .sm3Hash src len dst) hc, accept]
  have hbusy := hashSteps_busy_iff (acceptHash_paced src len dst s)
  rw [acceptHash_left] at hbusy
  exact ⟨fun k => (hbusy k).2, Bool.eq_false_iff.2 fun hb => lt_irrefl _ ((hbusy _).1 hb)⟩

/-- Settles O39: the accepted command has its number of steps left, each step takes one, and the engine is busy while one is
left. -/
theorem cipherTakesItsStepCount : Obligations.CipherTakesItsStepCount := by
  unfold Obligations.CipherTakesItsStepCount
  intro i s n hp _ _ hc hn
  obtain ⟨hpaced, hleft⟩ := accept_ce_pace hp hc
  have hbusy := cipherSteps_busy_iff hpaced
  rw [hleft, ← hn] at hbusy
  rw [issueInstr_of_check hc]
  exact ⟨fun k => (hbusy k).2, Bool.eq_false_iff.2 fun hb => lt_irrefl _ ((hbusy _).1 hb)⟩

/-- Settles O40: the command is accepted, marks what it clashes with and finishes; none of the three writes outside the results
that are not valid. -/
theorem acceptedCommandAlwaysEnds : Obligations.AcceptedCommandAlwaysEnds := by
  unfold Obligations.AcceptedCommandAlwaysEnds
  intro i s h hb hc
  obtain ⟨hbusy, kv, hword⟩ := finish_accept_status i s
  refine ⟨_, exec_accepted hb hc, ?_, ?_, hostReadStatus_lastStatus .., ?_, fun a hown hother hunseen => ?_⟩
  · rwa [busyOf_hostReadStatus]
  · rw [doneOf_hostReadStatus, finish_done]
  · rw [hostReadStatus_lastStatus, statusOf_hostReadStatus, hword]
    obtain ⟨-, -, -, -, herr, -⟩ := Status.word_fields ⟨false, true, none⟩ kv
    exact herr
  · rw [hostReadStatus_buf, finish_accept_read h.bufWf hown, accept_read h.bufWf hown hother hunseen]

/-- Settles O60: a step is progress as long as an engine is at work, so that in the end none is. -/
theorem enginesAlwaysComeToRest : Obligations.EnginesAlwaysComeToRest := by
  unfold Obligations.EnginesAlwaysComeToRest
  intro s h
  obtain ⟨n, t, hrun, hrest⟩ := comes_to_rest s h
  rw [State.atWork, not_or, Bool.not_eq_true, Bool.not_eq_true] at hrest
  exact ⟨n, t, hrun, hrest.1, hrest.2⟩

end Sys2Proof.Machine
end
